-- ==== Sys2Proof/Word.lean ====
section
/-! DEFINITION. The widths of the machine's values (00_scope.md R6: byte 8, word 16, doubleword 32,
quadword 64 bits). -/

namespace Sys2Proof

/-- 8 bits. -/
abbrev Byte := BitVec 8

/-- 16 bits; the spec's "word" (R6). -/
abbrev Word16 := BitVec 16

/-- 32 bits; the spec's "doubleword" (R6). -/
abbrev Dword := BitVec 32

/-- 64 bits; the spec's "quadword" (R6). -/
abbrev Quad := BitVec 64

end Sys2Proof
end

