-- ==== Sys2Proof/Syntax.lean ====
section
/-! DEFINITION. The instructions as decoded: registers, memory operands, the 24 instructions of
00_scope.md R1, and the reasons a byte sequence is none of them (30_encoding.md R74). -/

namespace Sys2Proof

/-- The eight MMX registers (10_state.md R13). -/
inductive MmReg where
  | mm0 | mm1 | mm2 | mm3 | mm4 | mm5 | mm6 | mm7
  deriving DecidableEq, Repr

/-- The eight 32-bit integer registers, in the order of their numbers (10_state.md R15). -/
inductive IntReg where
  | eax | ecx | edx | ebx | esp | ebp | esi | edi
  deriving DecidableEq, Repr

/-- The six segment registers (10_state.md R26). -/
inductive Seg where
  | es | cs | ss | ds | fs | gs
  deriving DecidableEq, Repr

/-- `addr_size` of 00_scope.md R5. -/
inductive AddrSize where
  | a16 | a32
  deriving DecidableEq, Repr

/-- The other address size (30_encoding.md R67, prefix byte 67h). -/
def AddrSize.opposite : AddrSize → AddrSize
  | .a16 => .a32
  | .a32 => .a16

/-- The admitted bytes before `0Fh`: at most one segment override and at most one 67h, in either order
(30_encoding.md R67). -/
inductive Pfx where
  | plain
  | seg (s : Seg)
  | addr
  | segAddr (s : Seg)
  | addrSeg (s : Seg)
  deriving DecidableEq, Repr

/-- Displacement of a 32-bit memory operand with a base (30_encoding.md R60, R62). -/
inductive Disp32 where
  | none
  | d8 (d : BitVec 8)
  | d32 (d : BitVec 32)
  deriving DecidableEq, Repr

/-- Displacement of a 16-bit memory operand with a base (30_encoding.md R62, R64). -/
inductive Disp16 where
  | none
  | d8 (d : BitVec 8)
  | d16 (d : BitVec 16)
  deriving DecidableEq, Repr

/-- Memory operand with `addr_size = 32` (30_encoding.md R60, R61). An index of ESP means that there is
no index (R61). -/
inductive Mem32 where
  | reg (base : IntReg) (disp : Disp32)
  | abs (disp : BitVec 32)
  | sib (base : IntReg) (index : IntReg) (scale : BitVec 2) (disp : Disp32)
  | sibAbs (index : IntReg) (scale : BitVec 2) (disp : BitVec 32)
  deriving DecidableEq, Repr

/-- The eight register sums of 30_encoding.md R64, in the order of `rm`. -/
inductive Base16 where
  | bxsi | bxdi | bpsi | bpdi | si | di | bp | bx
  deriving DecidableEq, Repr

/-- Memory operand with `addr_size = 16` (30_encoding.md R64). -/
inductive Mem16 where
  | based (base : Base16) (disp : Disp16)
  | abs (disp : BitVec 16)
  deriving DecidableEq, Repr

/-- A memory operand, of either address size. -/
inductive MemRef where
  | m32 (m : Mem32)
  | m16 (m : Mem16)
  deriving DecidableEq, Repr

/-- An operand in `ModRM.rm`: a register of the instruction's file, or memory (30_encoding.md R57, R59). -/
inductive RM (ρ : Type) where
  | reg (r : ρ)
  | mem (m : MemRef)
  deriving DecidableEq, Repr

/-- The 24 instructions of 00_scope.md R1, one constructor per row of the opcode table. `d` is the
destination register of R59, `s` a source register, `src` the operand in `ModRM.rm`. -/
inductive Instr where
  | pf2iw (p : Pfx) (d : MmReg) (src : RM MmReg)
  | pfnacc (p : Pfx) (d : MmReg) (src : RM MmReg)
  | pfpnacc (p : Pfx) (d : MmReg) (src : RM MmReg)
  | pi2fw (p : Pfx) (d : MmReg) (src : RM MmReg)
  | pswapd (p : Pfx) (d : MmReg) (src : RM MmReg)
  | maskmovq (p : Pfx) (d : MmReg) (m : MmReg)
  | movntq (p : Pfx) (dst : MemRef) (r : MmReg)
  | pavgb (p : Pfx) (d : MmReg) (src : RM MmReg)
  | pavgw (p : Pfx) (d : MmReg) (src : RM MmReg)
  | pextrw (p : Pfx) (d : IntReg) (r : MmReg) (imm : Byte)
  | pinsrw (p : Pfx) (d : MmReg) (src : RM IntReg) (imm : Byte)
  | pmaxsw (p : Pfx) (d : MmReg) (src : RM MmReg)
  | pmaxub (p : Pfx) (d : MmReg) (src : RM MmReg)
  | pminsw (p : Pfx) (d : MmReg) (src : RM MmReg)
  | pminub (p : Pfx) (d : MmReg) (src : RM MmReg)
  | pmovmskb (p : Pfx) (d : IntReg) (r : MmReg)
  | pmulhuw (p : Pfx) (d : MmReg) (src : RM MmReg)
  | prefetchnta (p : Pfx) (m : MemRef)
  | prefetcht0 (p : Pfx) (m : MemRef)
  | prefetcht1 (p : Pfx) (m : MemRef)
  | prefetcht2 (p : Pfx) (m : MemRef)
  | psadbw (p : Pfx) (d : MmReg) (src : RM MmReg)
  | pshufw (p : Pfx) (d : MmReg) (src : RM MmReg) (imm : Byte)
  | sfence (p : Pfx)
  deriving DecidableEq, Repr

/-- Why a byte sequence is none of the 24 instructions (30_encoding.md R68, R71 to R74). -/
inductive DecodeError where
  /-- The bytes end before the instruction does. -/
  | truncated
  /-- 66h, F0h, F2h or F3h before `0Fh` (R68). -/
  | refusedPfx (b : Byte)
  /-- A second segment override, or a second 67h (R68). -/
  | repeatedPfx (b : Byte)
  /-- The byte after the prefix bytes is not `0Fh` (R53). -/
  | notTwoByte (b : Byte)
  /-- `op2` is none of R56's. -/
  | unknownOp2 (b : Byte)
  /-- `op3` is none of 0Ch, 1Ch, 8Ah, 8Eh, BBh (R69). -/
  | unknownOp3 (b : Byte)
  /-- `mod = 11b` is required (R71). -/
  | needsRegister (op2 : Byte)
  /-- `mod` other than 11b is required (R71, R72). -/
  | needsMemory (op2 : Byte)
  /-- A member of group `0F 18` or `0F AE` that the source does not define (R72, R73). -/
  | undefinedGroupMember (op2 modrm : Byte)
  deriving DecidableEq, Repr

end Sys2Proof
end

