-- ==== Sys2Proof/Decode.lean ====
section
/-! DEFINITION. The decoder (30_encoding.md R53 to R76), total on any bytes, and the encoder written from
the same tables. -/

namespace Sys2Proof

/-! ## Register and field numbers (R57, R58) -/

/-- MMX register of a 3-bit field (R58). -/
def mmRegOfBits (b : BitVec 3) : MmReg :=
  match b.toNat with
  | 0 => .mm0 | 1 => .mm1 | 2 => .mm2 | 3 => .mm3 | 4 => .mm4 | 5 => .mm5 | 6 => .mm6 | _ => .mm7

/-- The 3-bit number of an MMX register (R58). -/
def mmRegBits : MmReg → BitVec 3
  | .mm0 => 0 | .mm1 => 1 | .mm2 => 2 | .mm3 => 3 | .mm4 => 4 | .mm5 => 5 | .mm6 => 6 | .mm7 => 7

/-- Integer register of a 3-bit field (R58). -/
def intRegOfBits (b : BitVec 3) : IntReg :=
  match b.toNat with
  | 0 => .eax | 1 => .ecx | 2 => .edx | 3 => .ebx | 4 => .esp | 5 => .ebp | 6 => .esi | _ => .edi

/-- The 3-bit number of an integer register (R58). -/
def intRegBits : IntReg → BitVec 3
  | .eax => 0 | .ecx => 1 | .edx => 2 | .ebx => 3 | .esp => 4 | .ebp => 5 | .esi => 6 | .edi => 7

/-- The register sum that `rm` names with `addr_size = 16` (R64). -/
def base16OfBits (b : BitVec 3) : Base16 :=
  match b.toNat with
  | 0 => .bxsi | 1 => .bxdi | 2 => .bpsi | 3 => .bpdi | 4 => .si | 5 => .di | 6 => .bp | _ => .bx

/-- The `rm` of a register sum (R64). -/
def base16Bits : Base16 → BitVec 3
  | .bxsi => 0 | .bxdi => 1 | .bpsi => 2 | .bpdi => 3 | .si => 4 | .di => 5 | .bp => 6 | .bx => 7

/-- The override byte of a segment register (R67). -/
def segByte : Seg → Byte
  | .es => 0x26 | .cs => 0x2E | .ss => 0x36 | .ds => 0x3E | .fs => 0x64 | .gs => 0x65

/-- `mod`, bits 7:6 of the ModR/M byte (R57); also the scale of the SIB byte (R61). -/
def fieldTop (b : Byte) : BitVec 2 := b.extractLsb' 6 2

/-- `reg`, bits 5:3 of the ModR/M byte (R57); also the index of the SIB byte (R61). -/
def fieldMid (b : Byte) : BitVec 3 := b.extractLsb' 3 3

/-- `rm`, bits 2:0 of the ModR/M byte (R57); also the base of the SIB byte (R61). -/
def fieldLow (b : Byte) : BitVec 3 := b.extractLsb' 0 3

/-- A ModR/M byte, or a SIB byte, of its three fields (R57, R61). -/
def threeFields (top : BitVec 2) (mid low : BitVec 3) : Byte := top ++ mid ++ low

/-! ## Reading bytes (R62: least significant byte first) -/

/-- One byte and the rest. -/
def take1 : List Byte → Except DecodeError (Byte × List Byte)
  | b :: r => .ok (b, r)
  | [] => .error .truncated

/-- A 16-bit value and the rest. -/
def take2 : List Byte → Except DecodeError (Word16 × List Byte)
  | b0 :: b1 :: r => .ok (b1 ++ b0, r)
  | _ => .error .truncated

/-- A 32-bit value and the rest. -/
def take4 : List Byte → Except DecodeError (Dword × List Byte)
  | b0 :: b1 :: b2 :: b3 :: r => .ok (b3 ++ b2 ++ b1 ++ b0, r)
  | _ => .error .truncated

/-! ## Memory operands (R60, R61, R64) -/

/-- The displacement that `mod` announces with `addr_size = 32` (R60). -/
def parseDisp32 (mod : BitVec 2) (bs : List Byte) : Except DecodeError (Disp32 × List Byte) :=
  match mod.toNat with
  | 0 => .ok (.none, bs)
  | 1 => do let (d, r) ← take1 bs; .ok (.d8 d, r)
  | _ => do let (d, r) ← take4 bs; .ok (.d32 d, r)

/-- The displacement that `mod` announces with `addr_size = 16` (R64). -/
def parseDisp16 (mod : BitVec 2) (bs : List Byte) : Except DecodeError (Disp16 × List Byte) :=
  match mod.toNat with
  | 0 => .ok (.none, bs)
  | 1 => do let (d, r) ← take1 bs; .ok (.d8 d, r)
  | _ => do let (d, r) ← take2 bs; .ok (.d16 d, r)

/-- The memory operand of `mod`, `rm` and the bytes after ModR/M, `addr_size = 32` (R60, R61). -/
def parseMem32 (mod : BitVec 2) (rm : BitVec 3) (bs : List Byte) :
    Except DecodeError (Mem32 × List Byte) :=
  if rm = 4 then do
    let (sib, r) ← take1 bs
    if fieldLow sib = 5 ∧ mod = 0 then do
      let (d, r) ← take4 r
      .ok (.sibAbs (intRegOfBits (fieldMid sib)) (fieldTop sib) d, r)
    else do
      let (d, r) ← parseDisp32 mod r
      .ok (.sib (intRegOfBits (fieldLow sib)) (intRegOfBits (fieldMid sib)) (fieldTop sib) d, r)
  else if rm = 5 ∧ mod = 0 then do
    let (d, r) ← take4 bs
    .ok (.abs d, r)
  else do
    let (d, r) ← parseDisp32 mod bs
    .ok (.reg (intRegOfBits rm) d, r)

/-- The memory operand of `mod`, `rm` and the bytes after ModR/M, `addr_size = 16` (R64). -/
def parseMem16 (mod : BitVec 2) (rm : BitVec 3) (bs : List Byte) :
    Except DecodeError (Mem16 × List Byte) :=
  if rm = 6 ∧ mod = 0 then do
    let (d, r) ← take2 bs
    .ok (.abs d, r)
  else do
    let (d, r) ← parseDisp16 mod bs
    .ok (.based (base16OfBits rm) d, r)

/-- The memory operand for an address size. -/
def parseMem (size : AddrSize) (mod : BitVec 2) (rm : BitVec 3) (bs : List Byte) :
    Except DecodeError (MemRef × List Byte) :=
  match size with
  | .a32 => do let (m, r) ← parseMem32 mod rm bs; .ok (.m32 m, r)
  | .a16 => do let (m, r) ← parseMem16 mod rm bs; .ok (.m16 m, r)

/-- The operand in `ModRM.rm` of an instruction that admits every `mod` (R57, R59). -/
def parseRM {ρ : Type} (reg : BitVec 3 → ρ) (size : AddrSize) (modrm : Byte) (bs : List Byte) :
    Except DecodeError (RM ρ × List Byte) :=
  if fieldTop modrm = 3 then .ok (.reg (reg (fieldLow modrm)), bs)
  else do
    let (m, r) ← parseMem size (fieldTop modrm) (fieldLow modrm) bs
    .ok (.mem m, r)

/-- The operand of an instruction that requires `mod` other than 11b (R71, R72). -/
def parseMemOnly (size : AddrSize) (op2 modrm : Byte) (bs : List Byte) :
    Except DecodeError (MemRef × List Byte) :=
  if fieldTop modrm = 3 then .error (.needsMemory op2)
  else parseMem size (fieldTop modrm) (fieldLow modrm) bs

/-- The `rm` register of an instruction that requires `mod = 11b` (R71). -/
def parseRegOnly (op2 modrm : Byte) : Except DecodeError MmReg :=
  if fieldTop modrm = 3 then .ok (mmRegOfBits (fieldLow modrm)) else .error (.needsRegister op2)

/-! ## The opcode map (R56) -/

/-- The two-operand `RM` instructions `mmreg1, mmreg2/mem64` by `op2` (R56). -/
def rmForm (op2 : Byte) : Option (Pfx → MmReg → RM MmReg → Instr) :=
  match op2.toNat with
  | 0xE0 => some .pavgb
  | 0xE3 => some .pavgw
  | 0xEE => some .pmaxsw
  | 0xDE => some .pmaxub
  | 0xEA => some .pminsw
  | 0xDA => some .pminub
  | 0xE4 => some .pmulhuw
  | 0xF6 => some .psadbw
  | _ => none

/-- The `3DN` instructions by their last byte `op3` (R56, R69). -/
def threeDNowForm (op3 : Byte) : Option (Pfx → MmReg → RM MmReg → Instr) :=
  match op3.toNat with
  | 0x1C => some .pf2iw
  | 0x8A => some .pfnacc
  | 0x8E => some .pfpnacc
  | 0x0C => some .pi2fw
  | 0xBB => some .pswapd
  | _ => none

/-- The members of group `0F 18` by `ModRM.reg` (R72, R111). -/
def prefetchForm (reg : BitVec 3) : Option (Pfx → MemRef → Instr) :=
  match reg.toNat with
  | 0 => some .prefetchnta
  | 1 => some .prefetcht0
  | 2 => some .prefetcht1
  | 3 => some .prefetcht2
  | _ => none

/-- Decode from `op2` and ModR/M on: the operand bytes, then the last byte where the format has one
(R54, R69, R70). DESIGN CHOICE: where a sequence breaks several rules the refusal names the first one met in the order
of this definition, a member that a group does not have before its `mod`, and a forbidden `mod` or member before bytes
that are missing after ModR/M (R74 names no order; log 20). -/
def decodeOpcode (size : AddrSize) (p : Pfx) (op2 modrm : Byte) (bs : List Byte) :
    Except DecodeError (Instr × List Byte) :=
  let dmm := mmRegOfBits (fieldMid modrm)
  match op2.toNat with
  | 0x0F => do
    let (src, r) ← parseRM mmRegOfBits size modrm bs
    let (op3, r) ← take1 r
    match threeDNowForm op3 with
    | some f => .ok (f p dmm src, r)
    | none => .error (.unknownOp3 op3)
  | 0x18 =>
    match prefetchForm (fieldMid modrm) with
    | some f => do
      let (m, r) ← parseMemOnly size op2 modrm bs
      .ok (f p m, r)
    | none => .error (.undefinedGroupMember op2 modrm)
  | 0xAE => if modrm = 0xF8 then .ok (.sfence p, bs) else .error (.undefinedGroupMember op2 modrm)
  | 0x70 => do
    let (src, r) ← parseRM mmRegOfBits size modrm bs
    let (imm, r) ← take1 r
    .ok (.pshufw p dmm src imm, r)
  | 0xC4 => do
    let (src, r) ← parseRM intRegOfBits size modrm bs
    let (imm, r) ← take1 r
    .ok (.pinsrw p dmm src imm, r)
  | 0xC5 => do
    let s ← parseRegOnly op2 modrm
    let (imm, r) ← take1 bs
    .ok (.pextrw p (intRegOfBits (fieldMid modrm)) s imm, r)
  | 0xD7 => do
    let s ← parseRegOnly op2 modrm
    .ok (.pmovmskb p (intRegOfBits (fieldMid modrm)) s, bs)
  | 0xE7 => do
    let (m, r) ← parseMemOnly size op2 modrm bs
    .ok (.movntq p m dmm, r)
  | 0xF7 => do
    let s ← parseRegOnly op2 modrm
    .ok (.maskmovq p dmm s, bs)
  | _ =>
    match rmForm op2 with
    | some f => do
      let (src, r) ← parseRM mmRegOfBits size modrm bs
      .ok (f p dmm src, r)
    | none => .error (.unknownOp2 op2)

/-- What a byte is at a place where a prefix byte may stand (R67, R68). -/
inductive PfxByte where
  | override (s : Seg)
  | addrSize
  | refused
  | opcode
  deriving DecidableEq, Repr

/-- The prefix bytes of R67 and R68. -/
def pfxByte (b : Byte) : PfxByte :=
  match b.toNat with
  | 0x26 => .override .es
  | 0x2E => .override .cs
  | 0x36 => .override .ss
  | 0x3E => .override .ds
  | 0x64 => .override .fs
  | 0x65 => .override .gs
  | 0x67 => .addrSize
  | 0x66 | 0xF0 | 0xF2 | 0xF3 => .refused
  | _ => .opcode

/-- The address size that the prefix bytes leave (R67). -/
def pfxAddrSize (dflt : AddrSize) : Pfx → AddrSize
  | .plain | .seg _ => dflt
  | .addr | .segAddr _ | .addrSeg _ => dflt.opposite

/-- Take in one more prefix byte, or refuse it (R67, R68). -/
def addPfx (p : Pfx) (k : PfxByte) (b : Byte) : Except DecodeError Pfx :=
  match k, p with
  | .override s, .plain => .ok (.seg s)
  | .override s, .addr => .ok (.addrSeg s)
  | .addrSize, .plain => .ok .addr
  | .addrSize, .seg s => .ok (.segAddr s)
  | .refused, _ => .error (.refusedPfx b)
  | _, _ => .error (.repeatedPfx b)

/-- Decode after `0Fh` was met: `op2`, ModR/M and what follows (R53). -/
def decodeAfterEscape (dflt : AddrSize) (p : Pfx) : List Byte → Except DecodeError (Instr × List Byte)
  | op2 :: modrm :: r => decodeOpcode (pfxAddrSize dflt p) p op2 modrm r
  | _ => .error .truncated

/-- Decode with the prefix bytes `p` already taken (R53). -/
def decodeFrom (dflt : AddrSize) (p : Pfx) : List Byte → Except DecodeError (Instr × List Byte)
  | [] => .error .truncated
  | b :: r =>
    match pfxByte b with
    | .opcode => if b = 0x0F then decodeAfterEscape dflt p r else .error (.notTwoByte b)
    | k =>
      match addPfx p k b with
      | .ok p' => decodeFrom dflt p' r
      | .error e => .error e

/-- The instruction at the start of a list of bytes, and the bytes after it (R53). DESIGN CHOICE: of several reasons to
refuse, the one whose byte comes first is named, and `op2` counts only with its ModR/M byte (log 20). -/
def decode (dflt : AddrSize) (bs : List Byte) : Except DecodeError (Instr × List Byte) :=
  decodeFrom dflt .plain bs

/-! ## The encoder -/

/-- The prefix bytes (R67). -/
def pfxBytes : Pfx → List Byte
  | .plain => []
  | .seg s => [segByte s]
  | .addr => [0x67]
  | .segAddr s => [segByte s, 0x67]
  | .addrSeg s => [0x67, segByte s]

/-- The bytes of a 16-bit value, least significant first (R62). -/
def bytes2 (v : Word16) : List Byte := [v.extractLsb' 0 8, v.extractLsb' 8 8]

/-- The bytes of a 32-bit value, least significant first (R62). -/
def bytes4 (v : Dword) : List Byte :=
  [v.extractLsb' 0 8, v.extractLsb' 8 8, v.extractLsb' 16 8, v.extractLsb' 24 8]

/-- `mod` of a displacement (R60). -/
def disp32Mod : Disp32 → BitVec 2
  | .none => 0
  | .d8 _ => 1
  | .d32 _ => 2

/-- The bytes of a displacement (R60). -/
def disp32Bytes : Disp32 → List Byte
  | .none => []
  | .d8 d => [d]
  | .d32 d => bytes4 d

/-- `mod` of a displacement (R64). -/
def disp16Mod : Disp16 → BitVec 2
  | .none => 0
  | .d8 _ => 1
  | .d16 _ => 2

/-- The bytes of a displacement (R64). -/
def disp16Bytes : Disp16 → List Byte
  | .none => []
  | .d8 d => [d]
  | .d16 d => bytes2 d

/-- ModR/M with this `reg` field, SIB and displacement of a 32-bit operand (R60, R61). -/
def encodeMem32 (reg : BitVec 3) : Mem32 → List Byte
  | .reg base disp => threeFields (disp32Mod disp) reg (intRegBits base) :: disp32Bytes disp
  | .abs d => threeFields 0 reg 5 :: bytes4 d
  | .sib base index scale disp =>
    threeFields (disp32Mod disp) reg 4 :: threeFields scale (intRegBits index) (intRegBits base) ::
      disp32Bytes disp
  | .sibAbs index scale d =>
    threeFields 0 reg 4 :: threeFields scale (intRegBits index) 5 :: bytes4 d

/-- ModR/M with this `reg` field and displacement of a 16-bit operand (R64). -/
def encodeMem16 (reg : BitVec 3) : Mem16 → List Byte
  | .based base disp => threeFields (disp16Mod disp) reg (base16Bits base) :: disp16Bytes disp
  | .abs d => threeFields 0 reg 6 :: bytes2 d

/-- ModR/M and what follows of a memory operand. -/
def encodeMem (reg : BitVec 3) : MemRef → List Byte
  | .m32 m => encodeMem32 reg m
  | .m16 m => encodeMem16 reg m

/-- ModR/M and what follows of an operand in `ModRM.rm` (R57). -/
def encodeRM {ρ : Type} (bits : ρ → BitVec 3) (reg : BitVec 3) : RM ρ → List Byte
  | .reg r => [threeFields 3 reg (bits r)]
  | .mem m => encodeMem reg m

/-- Format `RM` of R54. -/
def encodeRMForm (p : Pfx) (op2 : Byte) (d : MmReg) (src : RM MmReg) : List Byte :=
  pfxBytes p ++ [0x0F, op2] ++ encodeRM mmRegBits (mmRegBits d) src

/-- Format `3DN` of R54: `op3` is the last byte (R69). -/
def encode3DN (p : Pfx) (op3 : Byte) (d : MmReg) (src : RM MmReg) : List Byte :=
  encodeRMForm p 0x0F d src ++ [op3]

/-- Format `GRP` of R54 with a memory operand. -/
def encodePrefetch (p : Pfx) (ext : BitVec 3) (m : MemRef) : List Byte :=
  pfxBytes p ++ [0x0F, 0x18] ++ encodeMem ext m

/-- The bytes of an instruction (R54, R56). -/
def encode : Instr → List Byte
  | .pf2iw p d src => encode3DN p 0x1C d src
  | .pfnacc p d src => encode3DN p 0x8A d src
  | .pfpnacc p d src => encode3DN p 0x8E d src
  | .pi2fw p d src => encode3DN p 0x0C d src
  | .pswapd p d src => encode3DN p 0xBB d src
  | .maskmovq p d m => encodeRMForm p 0xF7 d (.reg m)
  | .movntq p dst r => encodeRMForm p 0xE7 r (.mem dst)
  | .pavgb p d src => encodeRMForm p 0xE0 d src
  | .pavgw p d src => encodeRMForm p 0xE3 d src
  | .pextrw p d r imm => pfxBytes p ++ [0x0F, 0xC5, threeFields 3 (intRegBits d) (mmRegBits r), imm]
  | .pinsrw p d src imm =>
    pfxBytes p ++ [0x0F, 0xC4] ++ encodeRM intRegBits (mmRegBits d) src ++ [imm]
  | .pmaxsw p d src => encodeRMForm p 0xEE d src
  | .pmaxub p d src => encodeRMForm p 0xDE d src
  | .pminsw p d src => encodeRMForm p 0xEA d src
  | .pminub p d src => encodeRMForm p 0xDA d src
  | .pmovmskb p d r => pfxBytes p ++ [0x0F, 0xD7, threeFields 3 (intRegBits d) (mmRegBits r)]
  | .pmulhuw p d src => encodeRMForm p 0xE4 d src
  | .prefetchnta p m => encodePrefetch p 0 m
  | .prefetcht0 p m => encodePrefetch p 1 m
  | .prefetcht1 p m => encodePrefetch p 2 m
  | .prefetcht2 p m => encodePrefetch p 3 m
  | .psadbw p d src => encodeRMForm p 0xF6 d src
  | .pshufw p d src imm => encodeRMForm p 0x70 d src ++ [imm]
  | .sfence p => pfxBytes p ++ [0x0F, 0xAE, 0xF8]

/-! ## Length (R55) -/

/-- `n_prefix` of R55. -/
def pfxLength : Pfx → Nat
  | .plain => 0
  | .seg _ | .addr => 1
  | .segAddr _ | .addrSeg _ => 2

/-- `n_disp` of R55 with a base, `addr_size = 32`. -/
def disp32Length : Disp32 → Nat
  | .none => 0
  | .d8 _ => 1
  | .d32 _ => 4

/-- `n_disp` of R55 with a base, `addr_size = 16`. -/
def disp16Length : Disp16 → Nat
  | .none => 0
  | .d8 _ => 1
  | .d16 _ => 2

/-- `n_sib + n_disp` of R55. -/
def memLength : MemRef → Nat
  | .m32 (.reg _ d) => disp32Length d
  | .m32 (.abs _) => 4
  | .m32 (.sib _ _ _ d) => 1 + disp32Length d
  | .m32 (.sibAbs _ _ _) => 5
  | .m16 (.based _ d) => disp16Length d
  | .m16 (.abs _) => 2

/-- `n_sib + n_disp` of R55; none for a register. -/
def rmLength {ρ : Type} : RM ρ → Nat
  | .reg _ => 0
  | .mem m => memLength m

/-- `len = n_prefix + 2 + 1 + n_sib + n_disp + n_last` (R55). -/
def lengthOf (p : Pfx) (operand last : Nat) : Nat := pfxLength p + 2 + 1 + operand + last

/-- The length of an instruction in bytes (R55). -/
def instrLength : Instr → Nat
  | .pf2iw p _ src => lengthOf p (rmLength src) 1
  | .pfnacc p _ src => lengthOf p (rmLength src) 1
  | .pfpnacc p _ src => lengthOf p (rmLength src) 1
  | .pi2fw p _ src => lengthOf p (rmLength src) 1
  | .pswapd p _ src => lengthOf p (rmLength src) 1
  | .maskmovq p _ _ => lengthOf p 0 0
  | .movntq p dst _ => lengthOf p (memLength dst) 0
  | .pavgb p _ src => lengthOf p (rmLength src) 0
  | .pavgw p _ src => lengthOf p (rmLength src) 0
  | .pextrw p _ _ _ => lengthOf p 0 1
  | .pinsrw p _ src _ => lengthOf p (rmLength src) 1
  | .pmaxsw p _ src => lengthOf p (rmLength src) 0
  | .pmaxub p _ src => lengthOf p (rmLength src) 0
  | .pminsw p _ src => lengthOf p (rmLength src) 0
  | .pminub p _ src => lengthOf p (rmLength src) 0
  | .pmovmskb p _ _ => lengthOf p 0 0
  | .pmulhuw p _ src => lengthOf p (rmLength src) 0
  | .prefetchnta p m => lengthOf p (memLength m) 0
  | .prefetcht0 p m => lengthOf p (memLength m) 0
  | .prefetcht1 p m => lengthOf p (memLength m) 0
  | .prefetcht2 p m => lengthOf p (memLength m) 0
  | .psadbw p _ src => lengthOf p (rmLength src) 0
  | .pshufw p _ src _ => lengthOf p (rmLength src) 1
  | .sfence p => lengthOf p 0 0

/-- The longest admitted instruction (R55). -/
def maxLength : Nat := 11

/-! ## The opcode table's numbering -/

/-- The bytes that the opcode table numbers `w`: the FIRST byte is the most significant of the `nbits`
bits ("window: byte0<<16 | byte1<<8 | ModRM"), and every byte after them is zero (log 7). -/
def tableBytes (nbits w : Nat) : List Byte :=
  (List.range maxLength).map fun k =>
    if k < nbits / 8 then BitVec.ofNat 8 (w >>> (8 * (nbits / 8 - 1 - k))) else 0

/-- The instruction the decoder reads from the opcode table's word, in the 16-bit code segment of reset
(log 7). -/
def decodeTableWord (nbits w : Nat) : Option Instr :=
  match decode .a16 (tableBytes nbits w) with
  | .ok (i, _) => some i
  | .error _ => none

end Sys2Proof
end

