-- ==== Sys2Proof/Config.lean ====
section
/-! DEFINITION. What an implementation fixes and what the spec leaves free (00_scope.md R5): constants
without a body, so that no proof can see a value of them. -/

namespace Sys2Proof.Config

/-- `fadd32` where P-EXACT of R80 says nothing (log 8). -/
opaque faddFree : Dword → Dword → Dword

/-- `fsub32` where P-EXACT of R80 says nothing (log 8). -/
opaque fsubFree : Dword → Dword → Dword

/-- Whether `fadd32` answers `-0` for an exact zero result; P-EXACT of R80 admits both zeros (log 8). -/
opaque faddZeroIsNegative : Dword → Dword → Bool

/-- Whether `fsub32` answers `-0` for an exact zero result; P-EXACT of R80 admits both zeros (log 8). -/
opaque fsubZeroIsNegative : Dword → Dword → Bool

/-- `f2iw_special` of R82 on an infinity: a function of the lane (log 9). -/
opaque f2iwInfinity : Dword → Dword

/-- The draw of R82 that PF2IW answers for a NaN lane: a fresh value for each number of draws made
before it (log 9). -/
opaque f2iwNaN : Nat → Dword

/-- `maskmov_zero_mask_faults` of R93 (log 11). -/
opaque maskmovZeroMaskFaults : Bool

/-- `atomic64` of R40: whether an 8-byte access at a multiple of 8 is one event (log 10). -/
opaque atomic64 : Bool

/-- How far the cache line exceeds its minimum of 32 bytes (R114, log 23). -/
opaque cacheLineExtra : Nat

/-- `cache_line_size` of R114: at least 32 bytes; no rule reads it. -/
def cacheLineSize : Nat := 32 + cacheLineExtra

/-- `has_level0_cache` of R114; no rule reads it (log 23). -/
opaque hasLevel0Cache : Bool

/-- `vec_segment_overrun` of R125 (log 17). -/
opaque vecSegmentOverrun : Nat

end Sys2Proof.Config
end

