-- ==== Sys2Proof/Machine/State.lean ====
section
/-! DEFINITION. Everything the machine holds (10_state.md, 20_memory.md R44 to R50), as plain data, and its
value after reset (70_reset_and_hazards.md R148 and R149, 10_state.md R30). -/

namespace Sys2Proof.Machine

/-- Eight registers of one width, numbered like the MMX registers (10_state.md R13). -/
structure MmFile (w : Nat) where
  mm0 : BitVec w
  mm1 : BitVec w
  mm2 : BitVec w
  mm3 : BitVec w
  mm4 : BitVec w
  mm5 : BitVec w
  mm6 : BitVec w
  mm7 : BitVec w
  deriving DecidableEq, Repr

/-- The integer registers (10_state.md R15). -/
structure IntFile where
  eax : Dword
  ecx : Dword
  edx : Dword
  ebx : Dword
  esp : Dword
  ebp : Dword
  esi : Dword
  edi : Dword
  deriving DecidableEq, Repr

/-- The operating modes (10_state.md R23). -/
inductive Mode where
  | realAddress
  | protectedMode
  | virtual8086
  deriving DecidableEq, Repr

/-- A segment register: base, limit and access rights (10_state.md R26), with the selector and, for the
code segment, the D bit (30_encoding.md R67). -/
structure SegReg where
  selector : Word16
  base : Dword
  limit : Dword
  readable : Bool
  writable : Bool
  big : Bool
  deriving DecidableEq, Repr

/-- The six segment registers (10_state.md R26). -/
structure SegFile where
  es : SegReg
  cs : SegReg
  ss : SegReg
  ds : SegReg
  fs : SegReg
  gs : SegReg
  deriving DecidableEq, Repr

/-- `kind` of 20_memory.md R41. -/
inductive Access where
  | read
  | write
  deriving DecidableEq, Repr

/-- One 4-KByte page of linear addresses, the physical page it maps to, and who may do what with it
(20_memory.md R34, R42; log 14). `user` is CPL 3. -/
structure PageEntry where
  page : BitVec 20
  frame : Nat
  userRead : Bool
  userWrite : Bool
  supervisorRead : Bool
  supervisorWrite : Bool
  deriving DecidableEq, Repr

/-- The x87 state that the MMX registers lie in (10_state.md R27): the top-of-stack field, the tag word
(two bits a register, 00 is valid) and bits 79:64 of the eight physical registers. -/
structure X87 where
  top : BitVec 3
  tags : BitVec 16
  high : MmFile 16
  deriving DecidableEq, Repr

/-- A byte bound for a physical address, with the epoch of its store (20_memory.md R46). `quad` is the
model's own: the place in an aligned MOVNTQ store, which drains as one when `atomic64` holds (R40, R46;
log 10). -/
structure Record where
  epoch : Nat
  addr : Nat
  byte : Byte
  quad : Option (Fin 8)
  deriving DecidableEq, Repr

/-- Byte `index` of the operand of the instruction in progress, already read at physical address `addr`
(20_memory.md R40, R48; log 10). -/
structure EarlyByte where
  index : Nat
  addr : Nat
  byte : Byte
  deriving DecidableEq, Repr

/-- The eight exceptions (60_exceptions.md R124). -/
inductive Exn where
  | invalidOpcode
  | deviceNotAvailable
  | stackException
  | generalProtection
  | segmentOverrun
  | pageFault (lin : Dword)
  | fpPending
  | alignmentCheck
  deriving DecidableEq, Repr

/-- `Fault(X, pc)` of 60_exceptions.md R133: the machine stops at an exception, with `pc` at the faulting
instruction. Every one is raised by the checks of an instruction, as the spec says, and is safe: the model
stops where the spec's model stops. -/
inductive Fault where
  /-- Raised by MMXChecks when CR0.EM is 1 (R127). Safe. -/
  | invalidOpcode (pc : Dword)
  /-- Raised by MMXChecks when CR0.TS is 1 (R128). Safe. -/
  | deviceNotAvailable (pc : Dword)
  /-- Raised by the segment check, protected mode, through SS (R130). Safe. -/
  | stackException (pc : Dword)
  /-- Raised by the segment check, protected mode, not through SS (R130). Safe. -/
  | generalProtection (pc : Dword)
  /-- Raised by the segment check in real-address and virtual-8086 mode (R130). Safe. -/
  | segmentOverrun (pc : Dword)
  /-- Raised by the page check; `lin` is the linear address reported (R130, R134). Safe. -/
  | pageFault (lin : Dword) (pc : Dword)
  /-- Raised by MMXChecks when an x87 exception is pending (R129). Safe. -/
  | fpPending (pc : Dword)
  /-- Raised by the alignment check (R130, 20_memory.md R37). Safe. -/
  | alignmentCheck (pc : Dword)
  deriving DecidableEq, Repr

/-- Why a step has no meaning. -/
inductive Refusal where
  /-- An instruction with no meaning yet; raised by no arm of exec now. Safe. -/
  | notModelled (mnemonic : String)
  /-- The bytes at `pc` are none of the 24 instructions (30_encoding.md R74); raised by the step. Safe. -/
  | undefinedEncoding (why : DecodeError)
  /-- An instruction byte lies beyond the code segment limit or the offset range (10_state.md R18);
  raised by the step. Safe. -/
  | codeLimit
  /-- `pc + len` would pass the last offset of the code segment (10_state.md R18); raised by the step.
  Safe. -/
  | pcOverflow
  /-- The page of an instruction byte is not mapped (log 6); raised by the step. Safe. -/
  | codeNotMapped
  /-- An instruction byte lies outside the program text (log 5); raised by the step. Safe. -/
  | outsideProgram
  /-- No exception and no refusal of an instruction: `pc` has reached the end of the program
  (70_reset_and_hazards.md R158 (a)), so that nothing is left to run; raised by the step. Safe. -/
  | programEnd
  /-- An operand byte lies in a device (20_memory.md R44); raised by reads and stores. Safe. -/
  | deviceAccess (addr : Nat)
  /-- The destination of a store overlaps the program text at this byte (20_memory.md R50, 70_reset_and_hazards.md
  R156); raised by stores. Safe. -/
  | storeToText (addr : Nat)
  deriving DecidableEq, Repr

/-- How the run of an agent ended (70_reset_and_hazards.md R158). -/
inductive Ending where
  /-- `pc` reached the end of the program (R158 (a)). -/
  | programEnd
  /-- An instruction raised (R158 (b), 60_exceptions.md R133). -/
  | raised (f : Fault)
  /-- The decoder or a rule refused (R158 (c)). -/
  | refused (r : Refusal)
  deriving DecidableEq, Repr

/-- What each agent holds for itself (20_memory.md R45, 70_reset_and_hazards.md R150). -/
structure Agent where
  mm : MmFile 64
  x : IntFile
  pc : Dword
  cr0 : Dword
  /-- In protected mode the low two bits of the CS selector too (10_state.md R22; log 27). -/
  cpl : BitVec 2
  mode : Mode
  fpPending : Bool
  eflagsAc : Bool
  segs : SegFile
  /-- `none` is paging off (20_memory.md R34). -/
  paging : Option (List PageEntry)
  x87 : X87
  pending : List Record
  epoch : Nat
  early : List EarlyByte
  /-- The `pc` that the claim designates as the end of the agent's program, the byte after its last instruction
  (70_reset_and_hazards.md R158 (a)); with `none` the program ends where its text does (log 5). -/
  endAt : Option Dword
  /-- The outcome of the agent's run, once it has ended (70_reset_and_hazards.md R158). -/
  ended : Option Ending
  deriving DecidableEq, Repr

/-- `len` physical addresses from `lo`. -/
structure Region where
  lo : Nat
  len : Nat
  deriving DecidableEq, Repr

/-- Memory: the bytes that differ from what an unlisted address reads as, by rising address. -/
abbrev Memory := List Host.Cell

/-- What happens next in the machine. The spec lets any of these come at any time (20_memory.md R46, R40,
R45); the list of them that State holds is one of the interleavings (log 3). -/
inductive Event where
  /-- The running agent executes one instruction, unless its run has ended. -/
  | run
  /-- Agent `k` of the others becomes the running agent. -/
  | resume (k : Nat)
  /-- The drain step of R46 on record `i` of agent `who` (0 is the running agent, `k + 1` the other `k`). -/
  | drain (who i : Nat)
  /-- The running agent reads byte `index` of the operand of its next instruction, at `addr`, now (R40). -/
  | early (index addr : Nat)
  /-- An agent outside the model writes a byte (R45: what other agents write is unconstrained). -/
  | external (addr : Nat) (b : Byte)
  deriving DecidableEq, Repr

/-- The whole machine: the running agent, the others, and what they share. -/
structure State where
  cpu : Agent
  others : List Agent
  mem : Memory
  text : List Region
  devices : List Region
  schedule : List Event
  draws : Nat
  deriving DecidableEq, Repr

/-- A segment register other than CS after reset. The source gives no reset value (70_reset_and_hazards.md R148).
PRESUMED, log 2: the family's selector 0, base 0 and limit FFFFh (R149, 10_state.md R30). DESIGN CHOICE, log 2: the
access rights and the D bit. -/
def resetSegment : SegReg :=
  { selector := 0, base := 0, limit := 0xFFFF, readable := true, writable := true, big := false }

/-- The agent after reset. The source gives no reset vector, no privilege mode at reset, no state of translation and
no reset value of any register (70_reset_and_hazards.md R148), so each has a value that the model names. PRESUMED,
log 2: the family's value of every register, of `pc` with the base of CS (the reset vector), of `mode` and `cpl` (the
privilege mode) and of `paging` (translation), as R149 and 10_state.md R30 print them, and of `x87`. Caches, which R148
names too, are no state (logs 2 and 23). `pending` is empty and `epoch` 0, as at launch (R30, 20_memory.md R46). DESIGN
CHOICE, logs 5, 10 and 35: `endAt`, `early` and `ended`, which no hardware register holds. -/
def resetAgent : Agent :=
  { mm := ⟨0, 0, 0, 0, 0, 0, 0, 0⟩
    x := { eax := 0, ecx := 0, edx := 0x612, ebx := 0, esp := 0, ebp := 0, esi := 0, edi := 0 }
    pc := 0xFFF0
    cr0 := 0x60000010
    cpl := 0
    mode := .realAddress
    fpPending := false
    eflagsAc := false
    segs :=
      { es := resetSegment
        cs := { resetSegment with selector := 0xF000, base := 0xFFFF0000 }
        ss := resetSegment
        ds := resetSegment
        fs := resetSegment
        gs := resetSegment }
    paging := none
    x87 := { top := 0, tags := 0x5555, high := ⟨0, 0, 0, 0, 0, 0, 0, 0⟩ }
    pending := []
    epoch := 0
    early := []
    endAt := none
    ended := none }

/-- The machine right after reset. The source says nothing of reset (70_reset_and_hazards.md R148), and a run of the
spec's model starts from a launch state and not from here (R149, R150), so every value is one that the model names:
the agent's in `resetAgent` (log 2), and DESIGN CHOICE for the shared fields: the memory (log 1), `schedule` (log 3), one
agent (log 4), `text` and `devices` (log 5), `draws` (log 9). -/
def State.reset : State :=
  { cpu := resetAgent
    others := []
    mem := []
    text := []
    devices := []
    schedule := []
    draws := 0 }

end Sys2Proof.Machine
end

