-- ==== Sys2Proof/Machine/Flags.lean ====
section
/-! DEFINITION. The control bits that the checks read (10_state.md R20, R24, R25). No instruction in scope
computes or writes a flag (R19), so there is no flag computation here. -/

namespace Sys2Proof.Machine

/-- `CR0.EM`, bit 2 (R20). -/
def Agent.em (a : Agent) : Bool := a.cr0.getLsbD 2

/-- `CR0.TS`, bit 3 (R20). -/
def Agent.ts (a : Agent) : Bool := a.cr0.getLsbD 3

/-- `CR0.AM`, bit 18 (R20). -/
def Agent.am (a : Agent) : Bool := a.cr0.getLsbD 18

/-- The part of `AlignFault` that does not depend on the operand: alignment is checked in protected and
virtual-8086 mode, with CR0.AM = 1, CPL = 3 and the AC flag 1 (20_memory.md R37). -/
def Agent.alignmentChecked (a : Agent) : Bool :=
  a.mode != .realAddress && a.am && a.cpl == 3 && a.eflagsAc

end Sys2Proof.Machine
end

