-- ==== Sys2Proof/Machine/Lanes.lean ====
section
/-! DEFINITION. Lanes of a 64-bit value (10_state.md R14), byte order (20_memory.md R31), and the packed
integer functions of 42_packed_integer_a.md and 44_packed_integer_b.md. -/

namespace Sys2Proof.Machine

/-! ## Lane views (R14) -/

/-- Byte lane `k` of a 64-bit value. -/
def byteLane (v : Quad) (k : Nat) : Byte := v.extractLsb' (8 * k) 8

/-- Word lane `k` of a 64-bit value. -/
def wordLane (v : Quad) (k : Nat) : Word16 := v.extractLsb' (16 * k) 16

/-- Doubleword lane `k` of a 64-bit value. -/
def dwordLane (v : Quad) (k : Nat) : Dword := v.extractLsb' (32 * k) 32

/-- The 64-bit value of eight byte lanes. -/
def ofByteLanes (l : Nat → Byte) : Quad :=
  l 7 ++ l 6 ++ l 5 ++ l 4 ++ l 3 ++ l 2 ++ l 1 ++ l 0

/-- The 64-bit value of four word lanes. -/
def ofWordLanes (l : Nat → Word16) : Quad := l 3 ++ l 2 ++ l 1 ++ l 0

/-- The 64-bit value of two doubleword lanes. -/
def ofDwordLanes (high low : Dword) : Quad := high ++ low

/-- A function of two bytes on every byte lane. -/
def mapBytes (f : Byte → Byte → Byte) (a b : Quad) : Quad :=
  ofByteLanes fun k => f (byteLane a k) (byteLane b k)

/-- A function of two words on every word lane. -/
def mapWords (f : Word16 → Word16 → Word16) (a b : Quad) : Quad :=
  ofWordLanes fun k => f (wordLane a k) (wordLane b k)

/-! ## Byte order (20_memory.md R31) -/

/-- The number whose bytes these are, least significant first. -/
def littleEndian : List Byte → Nat
  | [] => 0
  | b :: r => b.toNat + 256 * littleEndian r

/-- The 64-bit value of eight bytes at ascending addresses. -/
def quadOfBytes (bs : List Byte) : Quad := BitVec.ofNat 64 (littleEndian bs)

/-- The 16-bit value of two bytes at ascending addresses. -/
def wordOfBytes (bs : List Byte) : Word16 := BitVec.ofNat 16 (littleEndian bs)

/-! ## Packed integer functions -/

/-- `AVG_8` of R98: the sum is computed in nine bits. -/
def avgByte (a b : Byte) : Byte := BitVec.ofNat 8 ((a.toNat + b.toNat + 1) / 2)

/-- `AVG_16` of R98: the sum is computed in seventeen bits. -/
def avgWord (a b : Word16) : Word16 := BitVec.ofNat 16 ((a.toNat + b.toNat + 1) / 2)

/-- The larger of two words, signed (R103). -/
def maxSignedWord (a b : Word16) : Word16 := if a.toInt > b.toInt then a else b

/-- The larger of two bytes, unsigned (R104). -/
def maxUnsignedByte (a b : Byte) : Byte := if a.toNat > b.toNat then a else b

/-- The smaller of two words, signed (R105). -/
def minSignedWord (a b : Word16) : Word16 := if a.toInt ≤ b.toInt then a else b

/-- The smaller of two bytes, unsigned (R106). -/
def minUnsignedByte (a b : Byte) : Byte := if a.toNat ≤ b.toNat then a else b

/-- Bits 31:16 of the exact unsigned product (R108). -/
def mulHighWord (a b : Word16) : Word16 := BitVec.ofNat 16 (a.toNat * b.toNat / 65536)

/-- `|a - b|` of two unsigned bytes (R118). -/
def absDiff (a b : Byte) : Nat := if a.toNat ≥ b.toNat then a.toNat - b.toNat else b.toNat - a.toNat

/-- The sum of R118 over the byte lanes below `n`. -/
def sumAbsDiff (a b : Quad) : Nat → Nat
  | 0 => 0
  | n + 1 => sumAbsDiff a b n + absDiff (byteLane a n) (byteLane b n)

/-- The result of PSADBW (R118): `zext_64(sum[15:0])`. -/
def sadBytes (a b : Quad) : Quad := (BitVec.ofNat 16 (sumAbsDiff a b 8)).setWidth 64

/-- The source word that PSHUFW's selector `k` names: `imm8[2k+1:2k]` (R119). -/
def shuffleSelector (imm : Byte) (k : Nat) : Nat := (imm.extractLsb' (2 * k) 2).toNat

/-- The result of PSHUFW (R119). -/
def shuffleWords (src : Quad) (imm : Byte) : Quad :=
  ofWordLanes fun k => wordLane src (shuffleSelector imm k)

/-- The word that PEXTRW and PINSRW name: `imm8[1:0]` (R101, R102). -/
def wordIndex (imm : Byte) : Nat := (imm.extractLsb' 0 2).toNat

/-- `v` with word `n` replaced, the others kept (R102). -/
def insertWord (v : Quad) (n : Nat) (w : Word16) : Quad :=
  ofWordLanes fun k => if k = n then w else wordLane v k

/-- The doublewords of `v` exchanged (R88). -/
def swapDwords (v : Quad) : Quad := ofDwordLanes (dwordLane v 0) (dwordLane v 1)

/-- The top bit of byte `k`: MASKMOVQ's `m[k]` and PMOVMSKB's `r[k]` (R92, R107). -/
def topBit (v : Quad) (k : Nat) : Bool := v.getLsbD (8 * k + 7)

/-- `r[7:0]` of R107. -/
def byteMask (v : Quad) : Byte :=
  BitVec.ofBool (topBit v 7) ++ BitVec.ofBool (topBit v 6) ++ BitVec.ofBool (topBit v 5) ++
  BitVec.ofBool (topBit v 4) ++ BitVec.ofBool (topBit v 3) ++ BitVec.ofBool (topBit v 2) ++
  BitVec.ofBool (topBit v 1) ++ BitVec.ofBool (topBit v 0)

end Sys2Proof.Machine
end

