-- ==== Sys2Proof/Machine/Memory.lean ====
section
/-! DEFINITION. Memory in its canonical form, the pending writes of an agent (20_memory.md R46, R47), the
drain step, and the actions of the memory system and of other agents between two instructions. -/

namespace Sys2Proof.Machine

/-! ## Memory -/

/-- What an unlisted address reads as. DESIGN CHOICE, log 1. -/
def Memory.unlisted : Byte := 0

/-- Canonical form from address `lo` on: addresses strictly rise and no entry says what an unlisted
address says. -/
def Memory.wfFrom (lo : Nat) : Memory → Bool
  | [] => true
  | (a, b) :: m => decide (lo ≤ a) && b != Memory.unlisted && Memory.wfFrom (a + 1) m

/-- The canonical form of memory. -/
def Memory.wf (m : Memory) : Bool := Memory.wfFrom 0 m

/-- `mem[p]`. -/
def Memory.read : Memory → Nat → Byte
  | [], _ => Memory.unlisted
  | (a, b) :: m, p => if a = p then b else Memory.read m p

/-- `mem[p] <- v`, keeping the canonical form. -/
def Memory.write : Memory → Nat → Byte → Memory
  | [], p, v => if v = Memory.unlisted then [] else [(p, v)]
  | (a, b) :: m, p, v =>
    if p < a then (if v = Memory.unlisted then (a, b) :: m else (p, v) :: (a, b) :: m)
    else if p = a then (if v = Memory.unlisted then m else (p, v) :: m)
    else (a, b) :: Memory.write m p v

/-- Whether a physical address lies in one of the regions. -/
def inRegions (rs : List Region) (p : Nat) : Bool :=
  rs.any fun r => decide (r.lo ≤ p) && decide (p < r.lo + r.len)

/-- Whether a physical address is one of the program text (20_memory.md R50). -/
def State.inText (s : State) (p : Nat) : Bool := inRegions s.text p

/-- Whether a physical address is one of a device (20_memory.md R44). -/
def State.inDevice (s : State) (p : Nat) : Bool := inRegions s.devices p

/-! ## Pending writes and what a read sees (R46, R47) -/

/-- The byte of the most recently appended record for `p` (R47). -/
def newestPending : List Record → Nat → Option Byte
  | [], _ => none
  | r :: rs, p =>
    match newestPending rs p with
    | some b => some b
    | none => if r.addr = p then some r.byte else none

/-- The byte an agent sees at physical address `p` (R47). -/
def Agent.sees (a : Agent) (mem : Memory) (p : Nat) : Byte := (newestPending a.pending p).getD (mem.read p)

/-- The byte the running agent sees at physical address `p` (R47). -/
def State.sees (s : State) (p : Nat) : Byte := s.cpu.sees s.mem p

/-- Whether an access of `n` bytes from linear address `lin` is of the kind that `atomic64` makes one event:
8 bytes at a multiple of 8 (R40). -/
def alignedQuad (lin : Dword) (n : Nat) : Bool := n == 8 && lin.toNat % 8 == 0

/-- Byte `k` of a read operand at physical address `p`: the byte read early, where one was and the access is
not one event, otherwise the byte seen now (R40, R48). -/
def State.operandByte (s : State) (quad : Bool) (k p : Nat) : Byte :=
  match s.cpu.early.find? fun e => e.index == k && e.addr == p with
  | none => s.sees p
  | some e => if quad && Config.atomic64 then s.sees p else e.byte

/-- The operand bytes at these physical addresses, the first being byte `k`. -/
def State.operandBytes (s : State) (quad : Bool) : Nat → List Nat → List Byte
  | _, [] => []
  | k, p :: ps => s.operandByte quad k p :: s.operandBytes quad (k + 1) ps

/-- The records of a store, epoch `e`, for bytes at physical addresses; `quad` marks the bytes of an aligned
8-byte store with their places (R46). -/
def storeRecords (e : Nat) (quad : Bool) : Nat → List (Nat × Byte) → List Record
  | _, [] => []
  | k, (p, b) :: r =>
    { epoch := e, addr := p, byte := b, quad := if quad then some (Fin.ofNat 8 k) else none } ::
      storeRecords e quad (k + 1) r

/-! ## The drain step (R46) -/

/-- How many leading records are of epoch `e` and have the places `k`, `k + 1` and so on in an aligned store. -/
def quadRun (e : Nat) : Nat → List Record → Nat
  | _, [] => 0
  | k, r :: rs => if r.epoch = e ∧ r.quad.map Fin.val = some k then quadRun e (k + 1) rs + 1 else 0

/-- Where the drain of record `i` starts and how many records it takes: one, or those of the aligned MOVNTQ
store that it belongs to when `atomic64` holds, which are eight (R46). -/
def drainSpan (rs : List Record) (i : Nat) : Option (Nat × Nat) :=
  match rs[i]? with
  | none => none
  | some r =>
    match r.quad with
    | none => some (i, 1)
    | some k =>
      if Config.atomic64 then some (i - k, quadRun r.epoch (k - i) (rs.drop (i - k))) else some (i, 1)

/-- Conditions (i) and (ii) of R46 for the `n` records from `start`: no record of the agent has an older
epoch, and none appended before them has an address of theirs. -/
def drainEnabled (rs : List Record) (start n : Nat) : Bool :=
  ((rs.drop start).take n).all fun r =>
    rs.all (fun q => decide (r.epoch ≤ q.epoch)) && (rs.take start).all (fun q => q.addr != r.addr)

/-- Records written to memory in order. -/
def drainInto (mem : Memory) (rs : List Record) : Memory :=
  rs.foldl (fun m r => m.write r.addr r.byte) mem

/-- All agents, the running one first. -/
def State.agents (s : State) : List Agent := s.cpu :: s.others

/-- Agent `who`: 0 is the running one. -/
def State.agent (s : State) : Nat → Option Agent
  | 0 => some s.cpu
  | k + 1 => s.others[k]?

/-- Agent `who` replaced. -/
def State.setAgent (s : State) (who : Nat) (a : Agent) : State :=
  match who with
  | 0 => { s with cpu := a }
  | k + 1 => { s with others := s.others.set k a }

/-- The drain step of R46 for record `i` of agent `who`; where it is not enabled nothing happens (log 3). -/
def State.drain (s : State) (who i : Nat) : State :=
  match s.agent who with
  | none => s
  | some a =>
    match drainSpan a.pending i with
    | none => s
    | some (start, n) =>
      if drainEnabled a.pending start n then
        { s.setAgent who
            { a with pending := a.pending.take start ++ a.pending.drop (start + n) } with
          mem := drainInto s.mem ((a.pending.drop start).take n) }
      else s

/-! ## Actions between two instructions -/

/-- Agent `k` of the others becomes the running one, which takes its place (R45). -/
def State.resume (s : State) (k : Nat) : State :=
  match s.others[k]? with
  | none => s
  | some a => { s with cpu := a, others := s.others.set k s.cpu }

/-- The running agent reads byte `k` of the operand of its next instruction now (R40). -/
def State.readEarly (s : State) (k p : Nat) : State :=
  { s with cpu := { s.cpu with early := { index := k, addr := p, byte := s.sees p } :: s.cpu.early } }

/-- An agent outside the model writes a byte (R45); the program text stays as it is (R50, log 3). -/
def State.writeExternal (s : State) (p : Nat) (b : Byte) : State :=
  if s.inText p then s else { s with mem := s.mem.write p b }

/-- The effect of an event that is not an instruction of the running agent. -/
def State.happen (s : State) : Event → State
  | .run => s
  | .resume k => s.resume k
  | .drain who i => s.drain who i
  | .early k p => s.readEarly k p
  | .external p b => s.writeExternal p b

end Sys2Proof.Machine
end

