-- ==== Sys2Proof/Machine/Translate.lean ====
section
/-! DEFINITION. From segment and offset to physical addresses: `Translate` of 20_memory.md R41, with the
segment checks of R35 and R36, the page check of R42 and the alignment check of R37. -/

namespace Sys2Proof.Machine

/-- A segment register (10_state.md R26). -/
def SegFile.get (f : SegFile) : Seg → SegReg
  | .es => f.es
  | .cs => f.cs
  | .ss => f.ss
  | .ds => f.ds
  | .fs => f.fs
  | .gs => f.gs

/-- `base(seg)` of R34 for a data operand: the descriptor's base in protected mode, 16 times the selector in
the other two. An instruction fetch uses the base that CS holds instead (log 12). -/
def Agent.segBase (a : Agent) (seg : Seg) : Dword :=
  match a.mode with
  | .protectedMode => (a.segs.get seg).base
  | _ => (a.segs.get seg).selector.setWidth 32 <<< 4

/-- `lin_k` of R34: the linear address of byte `k` of an operand. -/
def Agent.linear (a : Agent) (seg : Seg) (off : Dword) (k : Nat) : Dword :=
  a.segBase seg + off + BitVec.ofNat 32 k

/-- A null selector: index 0 of the global table, at any privilege (R36). PRESUMED, log 13. -/
def SegReg.isNull (r : SegReg) : Bool := r.selector.extractLsb' 2 14 == 0

/-- Whether the segment's rights admit the access (R36). -/
def SegReg.permits (r : SegReg) : Access → Bool
  | .read => r.readable
  | .write => r.writable

/-- The segment check: R35 in real-address and virtual-8086 mode, R36 in protected mode. -/
def segCheck (a : Agent) (seg : Seg) (off : Dword) (n : Nat) (kind : Access) : Except Exn Unit :=
  match a.mode with
  | .protectedMode =>
    let r := a.segs.get seg
    let beyond := decide (off.toNat + n > r.limit.toNat + 1)
    if seg = .ss then (if beyond then .error .stackException else .ok ())
    else if beyond || r.isNull || !r.permits kind then .error .generalProtection
    else .ok ()
  | _ => if off.toNat + n > 0x10000 then .error .segmentOverrun else .ok ()

/-- Whether a page admits the access at this privilege level (R42; log 14). -/
def PageEntry.permits (e : PageEntry) (kind : Access) (cpl : BitVec 2) : Bool :=
  match kind with
  | .read => if cpl = 3 then e.userRead else e.supervisorRead
  | .write => if cpl = 3 then e.userWrite else e.supervisorWrite

/-- The physical address of a linear one (R34, R42): the same in real-address mode and with paging off, and
otherwise through its page, where it is mapped and admits the access. -/
def Agent.physical (a : Agent) (kind : Access) (lin : Dword) : Option Nat :=
  match a.mode, a.paging with
  | .realAddress, _ => some lin.toNat
  | _, none => some lin.toNat
  | _, some entries =>
    match entries.find? fun e => e.page == lin.extractLsb' 12 20 with
    | none => none
    | some e => if e.permits kind a.cpl then some (e.frame * 4096 + lin.toNat % 4096) else none

/-- The physical addresses of `n` bytes from byte `k` of an operand on; the first byte whose page does not
admit the access is reported (R42; log 14). -/
def pageCheck (a : Agent) (seg : Seg) (off : Dword) (kind : Access) : Nat → Nat → Except Exn (List Nat)
  | _, 0 => .ok []
  | k, n + 1 =>
    match a.physical kind (a.linear seg off k) with
    | none => .error (.pageFault (a.linear seg off k))
    | some p =>
      match pageCheck a seg off kind (k + 1) n with
      | .ok ps => .ok (p :: ps)
      | .error e => .error e

/-- `Translate(mode, seg, off, n, kind, CPL)` of R41. -/
def translate (a : Agent) (seg : Seg) (off : Dword) (n : Nat) (kind : Access) : Except Exn (List Nat) :=
  match segCheck a seg off n kind with
  | .error e => .error e
  | .ok _ => pageCheck a seg off kind 0 n

/-- `AlignFault(lin0, n)` of R37. -/
def alignFault (a : Agent) (lin0 : Dword) (n : Nat) : Bool :=
  a.alignmentChecked && lin0.toNat % n != 0

/-- The checks of R39 in their order: segment, page, alignment. -/
def accessCheck (a : Agent) (seg : Seg) (off : Dword) (n : Nat) (kind : Access) :
    Except Exn (List Nat) :=
  match translate a seg off n kind with
  | .error e => .error e
  | .ok ps => if alignFault a (a.linear seg off 0) n then .error .alignmentCheck else .ok ps

end Sys2Proof.Machine
end

