-- ==== Sys2Proof/Machine/Ops.lean ====
section
/-! DEFINITION. The named operations over registers and memory that the meanings are written with, taking an
exception among them (60_exceptions.md R131, R133; 20_memory.md R38, R39). -/

namespace Sys2Proof.Machine

/-! ## Registers -/

/-- `mm[i]` of a file (10_state.md R13). -/
def MmFile.get {w : Nat} (f : MmFile w) : MmReg → BitVec w
  | .mm0 => f.mm0
  | .mm1 => f.mm1
  | .mm2 => f.mm2
  | .mm3 => f.mm3
  | .mm4 => f.mm4
  | .mm5 => f.mm5
  | .mm6 => f.mm6
  | .mm7 => f.mm7

/-- One register of a file replaced. -/
def MmFile.set {w : Nat} (f : MmFile w) (r : MmReg) (v : BitVec w) : MmFile w :=
  match r with
  | .mm0 => { f with mm0 := v }
  | .mm1 => { f with mm1 := v }
  | .mm2 => { f with mm2 := v }
  | .mm3 => { f with mm3 := v }
  | .mm4 => { f with mm4 := v }
  | .mm5 => { f with mm5 := v }
  | .mm6 => { f with mm6 := v }
  | .mm7 => { f with mm7 := v }

/-- `x[i]` (10_state.md R15). -/
def IntFile.get (f : IntFile) : IntReg → Dword
  | .eax => f.eax
  | .ecx => f.ecx
  | .edx => f.edx
  | .ebx => f.ebx
  | .esp => f.esp
  | .ebp => f.ebp
  | .esi => f.esi
  | .edi => f.edi

/-- One integer register replaced. -/
def IntFile.set (f : IntFile) (r : IntReg) (v : Dword) : IntFile :=
  match r with
  | .eax => { f with eax := v }
  | .ecx => { f with ecx := v }
  | .edx => { f with edx := v }
  | .ebx => { f with ebx := v }
  | .esp => { f with esp := v }
  | .ebp => { f with ebp := v }
  | .esi => { f with esi := v }
  | .edi => { f with edi := v }

/-- `mm[r]` of the running agent. -/
def State.mm (s : State) (r : MmReg) : Quad := s.cpu.mm.get r

/-- `x[r]` of the running agent. -/
def State.x (s : State) (r : IntReg) : Dword := s.cpu.x.get r

/-- `mm[r] <- v`; bits 79:64 of the x87 register that `mm[r]` lies in become ones (10_state.md R27). -/
def State.setMm (s : State) (r : MmReg) (v : Quad) : State :=
  { s with
    cpu :=
      { s.cpu with
        mm := s.cpu.mm.set r v
        x87 := { s.cpu.x87 with high := s.cpu.x87.high.set r (BitVec.allOnes 16) } } }

/-- `x[r] <- v`. -/
def State.setX (s : State) (r : IntReg) (v : Dword) : State :=
  { s with cpu := { s.cpu with x := s.cpu.x.set r v } }

/-- The instruction is done: `pc <- pc + len` (10_state.md R18), and no operand byte read early is left. -/
def State.advance (s : State) (len : Nat) : State :=
  { s with cpu := { s.cpu with pc := s.cpu.pc + BitVec.ofNat 32 len, early := [] } }

/-- What every MMX or 3DNow! instruction does to the x87 state when it executes: top-of-stack 0, all eight
tags valid (10_state.md R27). -/
def State.touchX87 (s : State) : State :=
  { s with cpu := { s.cpu with x87 := { s.cpu.x87 with top := 0, tags := 0 } } }

/-- An instruction other than PREFETCH and SFENCE is done. -/
def State.retireMmx (s : State) (len : Nat) : State := s.touchX87.advance len

/-- `pending` with the records of a store at the end (20_memory.md R46). -/
def State.addPending (s : State) (rs : List Record) : State :=
  { s with cpu := { s.cpu with pending := s.cpu.pending ++ rs } }

/-- `epoch <- epoch + 1` (45_sfence.md R121). -/
def State.bumpEpoch (s : State) : State :=
  { s with cpu := { s.cpu with epoch := s.cpu.epoch + 1 } }

/-- `n` free values drawn (log 9). -/
def State.draw (s : State) (n : Nat) : State := { s with draws := s.draws + n }

/-! ## Taking an exception, and refusing -/

/-- Why an instruction does not complete. -/
inductive Stop where
  | fault (f : Fault)
  | refused (r : Refusal)
  deriving DecidableEq, Repr

/-- `Fault(X, pc)` (60_exceptions.md R133). -/
def faultOf (x : Exn) (pc : Dword) : Fault :=
  match x with
  | .invalidOpcode => .invalidOpcode pc
  | .deviceNotAvailable => .deviceNotAvailable pc
  | .stackException => .stackException pc
  | .generalProtection => .generalProtection pc
  | .segmentOverrun => .segmentOverrun pc
  | .pageFault lin => .pageFault lin pc
  | .fpPending => .fpPending pc
  | .alignmentCheck => .alignmentCheck pc

/-- `raise X`: the step ends with `Fault(X, pc)`, `pc` at this instruction and no state changed (R133). There
is no trap entry and no return from one (R135, R136). -/
def raise (x : Exn) (s : State) : Stop := .fault (faultOf x s.cpu.pc)

/-- The outcome of an instruction (00_scope.md R9). -/
def conclude : Except Stop State → Host.Outcome State Fault Refusal
  | .ok s => .next s
  | .error (.fault f) => .fault f
  | .error (.refused r) => .refused r

/-- `vec_*` of 60_exceptions.md R125; nothing reads them (log 17). -/
def exnVector : Exn → Nat
  | .invalidOpcode => 6
  | .deviceNotAvailable => 7
  | .stackException => 12
  | .generalProtection => 13
  | .pageFault _ => 14
  | .fpPending => 16
  | .alignmentCheck => 17
  | .segmentOverrun => Config.vecSegmentOverrun

/-- Whether a vector pushes an error code (R125); nothing reads it (log 17). -/
def vectorPushesErrorCode (v : Nat) : Bool := v == 12 || v == 13 || v == 14 || v == 17

/-- `MMXChecks` (R131, steps 1 to 3). -/
def mmxChecks (s : State) : Except Stop Unit :=
  if s.cpu.em then .error (raise .invalidOpcode s)
  else if s.cpu.ts then .error (raise .deviceNotAvailable s)
  else if s.cpu.fpPending then .error (raise .fpPending s)
  else .ok ()

/-! ## Memory access (20_memory.md R38, R39) -/

/-- The checks of R39 for the running agent. -/
def State.access (s : State) (seg : Seg) (off : Dword) (n : Nat) (kind : Access) :
    Except Stop (List Nat) :=
  match accessCheck s.cpu seg off n kind with
  | .ok ps => .ok ps
  | .error x => .error (raise x s)

/-- Refuse an access to a device (R44). DESIGN CHOICE: of several such bytes the refusal names the first one of the
operand (log 16). -/
def State.refuseDevice (s : State) (ps : List Nat) : Except Stop Unit :=
  match ps.find? s.inDevice with
  | some p => .error (.refused (.deviceAccess p))
  | none => .ok ()

/-- Refuse a store whose destination overlaps the program text (R50, 70_reset_and_hazards.md R156). DESIGN CHOICE: of
several such bytes the refusal names the first one (log 16). -/
def State.refuseText (s : State) (ps : List Nat) : Except Stop Unit :=
  match ps.find? s.inText with
  | some p => .error (.refused (.storeToText p))
  | none => .ok ()

/-- `MemRead(seg, off, n)`: the bytes at ascending addresses (R39). -/
def memRead (s : State) (seg : Seg) (off : Dword) (n : Nat) : Except Stop (List Byte) := do
  let ps ← s.access seg off n .read
  s.refuseDevice ps
  .ok (s.operandBytes (alignedQuad (s.cpu.linear seg off 0) n) 0 ps)

/-- The bytes of `cells` enter `pending`, unless one of them belongs to a device or a byte of the destination `dst`
to the program text (R44, R50, 70_reset_and_hazards.md R156). DESIGN CHOICE: a store that touches both is refused for
the device (log 16; the rules say only that it is refused). -/
def State.store (s : State) (quad : Bool) (dst : List Nat) (cells : List (Nat × Byte)) : Except Stop State := do
  s.refuseDevice (cells.map Prod.fst)
  s.refuseText dst
  .ok (s.addPending (storeRecords s.cpu.epoch quad 0 cells))

/-- The bytes of a 64-bit value with their physical addresses (20_memory.md R31). -/
def quadCells (ps : List Nat) (v : Quad) : List (Nat × Byte) :=
  ps.zip ((List.range 8).map (byteLane v))

/-- `MemWrite(seg, off, 8, v)` (R39). -/
def memWrite (s : State) (seg : Seg) (off : Dword) (v : Quad) : Except Stop State := do
  let ps ← s.access seg off 8 .write
  s.store (alignedQuad (s.cpu.linear seg off 0) 8) ps (quadCells ps v)

/-- The cells whose mask bit is 1, `topBit mask k` being the bit of byte `k` (R38). -/
def selectedCells (mask : Quad) : Nat → List (Nat × Byte) → List (Nat × Byte)
  | _, [] => []
  | k, c :: r => if topBit mask k then c :: selectedCells mask (k + 1) r else selectedCells mask (k + 1) r

/-- The checks of the whole destination and the store of its selected bytes (R38, 70_reset_and_hazards.md R156). DESIGN
CHOICE: a device counts only where a selected byte lies in it (log 24). -/
def State.storeSelected (s : State) (seg : Seg) (off : Dword) (v mask : Quad) : Except Stop State := do
  let ps ← s.access seg off 8 .write
  s.store false ps (selectedCells mask 0 (quadCells ps v))

/-- `MemWriteMasked(seg, off, 8, v, m)` with `m[k]` the top bit of mask byte `k` (R38). When no bit is selected,
what stops the store counts only if `maskmov_zero_mask_faults` (41_streaming_stores.md R93). DESIGN CHOICE: the
overlap of the destination with the program text is such a stop too (log 24). -/
def memWriteMasked (s : State) (seg : Seg) (off : Dword) (v mask : Quad) : Except Stop State :=
  match s.storeSelected seg off v mask with
  | .ok t => .ok t
  | .error e => if byteMask mask = 0 && !Config.maskmovZeroMaskFaults then .ok s else .error e

end Sys2Proof.Machine
end

