-- ==== Sys2Proof/Machine/Operands.lean ====
section
/-! DEFINITION. The operand forms: effective addresses, segments and source operands (30_encoding.md R57 to
R67). -/

namespace Sys2Proof.Machine

/-- The default address size of the code segment (30_encoding.md R67). -/
def defaultAddrSize (a : Agent) : AddrSize :=
  match a.mode with
  | .protectedMode => if a.segs.cs.big then .a32 else .a16
  | _ => .a16

/-- The segment that an override prefix names (R67). -/
def segOverride : Pfx → Option Seg
  | .plain | .addr => none
  | .seg s | .segAddr s | .addrSeg s => some s

/-- The value of a displacement, `addr_size = 32` (R62). -/
def disp32Value : Disp32 → Dword
  | .none => 0
  | .d8 d => d.signExtend 32
  | .d32 d => d

/-- The value of a displacement, `addr_size = 16` (R62). -/
def disp16Value : Disp16 → Word16
  | .none => 0
  | .d8 d => d.signExtend 16
  | .d16 d => d

/-- `index_part` of R61: ESP is no index. -/
def indexPart (a : Agent) (index : IntReg) (scale : BitVec 2) : Dword :=
  if index = .esp then 0 else a.x.get index <<< scale.toNat

/-- The offset of a 32-bit operand, modulo `2^32` (R60, R61). -/
def address32 (a : Agent) : Mem32 → Dword
  | .reg base disp => a.x.get base + disp32Value disp
  | .abs d => d
  | .sib base index scale disp => a.x.get base + indexPart a index scale + disp32Value disp
  | .sibAbs index scale d => d + indexPart a index scale

/-- The low 16 bits of an integer register (10_state.md R15). -/
def lowWord (a : Agent) (r : IntReg) : Word16 := (a.x.get r).setWidth 16

/-- The register sum of a 16-bit operand, modulo `2^16` (R64). -/
def base16Value (a : Agent) : Base16 → Word16
  | .bxsi => lowWord a .ebx + lowWord a .esi
  | .bxdi => lowWord a .ebx + lowWord a .edi
  | .bpsi => lowWord a .ebp + lowWord a .esi
  | .bpdi => lowWord a .ebp + lowWord a .edi
  | .si => lowWord a .esi
  | .di => lowWord a .edi
  | .bp => lowWord a .ebp
  | .bx => lowWord a .ebx

/-- The offset of a 16-bit operand, modulo `2^16` (R64). -/
def address16 (a : Agent) : Mem16 → Word16
  | .based base disp => base16Value a base + disp16Value disp
  | .abs d => d

/-- The offset part of `EA(instr)` (R60 to R64). -/
def effectiveAddress (a : Agent) : MemRef → Dword
  | .m32 m => address32 a m
  | .m16 m => (address16 a m).setWidth 32

/-- The default segment: SS when the base is EBP or ESP, or the address uses BP, otherwise DS (R63, R65). -/
def defaultSeg : MemRef → Seg
  | .m32 (.reg base _) => if base = .ebp ∨ base = .esp then .ss else .ds
  | .m32 (.abs _) => .ds
  | .m32 (.sib base _ _ _) => if base = .ebp ∨ base = .esp then .ss else .ds
  | .m32 (.sibAbs _ _ _) => .ds
  | .m16 (.based base _) => if base = .bpsi ∨ base = .bpdi ∨ base = .bp then .ss else .ds
  | .m16 (.abs _) => .ds

/-- The segment part of `EA(instr)` (R63, R65, R67). -/
def operandSeg (p : Pfx) (m : MemRef) : Seg := (segOverride p).getD (defaultSeg m)

/-- The segment of MASKMOVQ's implicit operand (R66). -/
def maskmovSeg (p : Pfx) : Seg := (segOverride p).getD .ds

/-- The offset of MASKMOVQ's implicit operand: EDI, or DI with 16-bit addressing (R66). -/
def maskmovOffset (a : Agent) (p : Pfx) : Dword :=
  match pfxAddrSize (defaultAddrSize a) p with
  | .a32 => a.x.get .edi
  | .a16 => (lowWord a .edi).setWidth 32

/-- The 64-bit source `src`: `mm[s]` or `MemRead(seg, off, 8)` (00_scope.md R10). -/
def quadSource (s : State) (p : Pfx) : RM MmReg → Except Stop Quad
  | .reg r => .ok (s.mm r)
  | .mem m => do
    let bs ← memRead s (operandSeg p m) (effectiveAddress s.cpu m) 8
    .ok (quadOfBytes bs)

/-- PINSRW's source word: `x[s][15:0]` or `MemRead(seg, off, 2)` (42_packed_integer_a.md R102). -/
def wordSource (s : State) (p : Pfx) : RM IntReg → Except Stop Word16
  | .reg r => .ok ((s.x r).setWidth 16)
  | .mem m => do
    let bs ← memRead s (operandSeg p m) (effectiveAddress s.cpu m) 2
    .ok (wordOfBytes bs)

/-- The shape shared by the instructions that read a 64-bit source and write an MMX register:
`MMXChecks`, the source, then `mm[d] <- f(old mm[d], src)` and `pc <- pc + len` (R81, R97; all reads come
before the write, 00_scope.md R8). -/
def mmxCompute (f : Quad → Quad → Quad) (p : Pfx) (d : MmReg) (src : RM MmReg) (last : Nat) (s : State) :
    Host.Outcome State Fault Refusal :=
  conclude do
    mmxChecks s
    let v ← quadSource s p src
    .ok ((s.setMm d (f (s.mm d) v)).retireMmx (lengthOf p (rmLength src) last))

end Sys2Proof.Machine
end

