-- ==== Sys2Proof/Machine/Fence.lean ====
section
/-! DEFINITION. The store fence (45_sfence.md R121 to R123). -/

namespace Sys2Proof.Machine

/-- SFENCE (R121): a new epoch, no check (R122). -/
def execSfence (p : Pfx) (s : State) : Host.Outcome State Fault Refusal :=
  .next (s.bumpEpoch.advance (lengthOf p 0 0))

end Sys2Proof.Machine
end

