-- ==== Sys2Proof/Machine/PackedInt.lean ====
section
/-! DEFINITION. The packed integer instructions (42_packed_integer_a.md R99 to R108, 44_packed_integer_b.md
R118, R119). -/

namespace Sys2Proof.Machine

/-- PAVGB (R99). -/
def execPavgb (p : Pfx) (d : MmReg) (src : RM MmReg) (s : State) : Host.Outcome State Fault Refusal :=
  mmxCompute (mapBytes avgByte) p d src 0 s

/-- PAVGW (R100). -/
def execPavgw (p : Pfx) (d : MmReg) (src : RM MmReg) (s : State) : Host.Outcome State Fault Refusal :=
  mmxCompute (mapWords avgWord) p d src 0 s

/-- PEXTRW (R101): zero-extended, the whole integer register written. -/
def execPextrw (p : Pfx) (d : IntReg) (r : MmReg) (imm : Byte) (s : State) :
    Host.Outcome State Fault Refusal :=
  conclude do
    mmxChecks s
    .ok ((s.setX d ((wordLane (s.mm r) (wordIndex imm)).setWidth 32)).retireMmx (lengthOf p 0 1))

/-- PINSRW (R102): one word of `mm[d]` replaced. -/
def execPinsrw (p : Pfx) (d : MmReg) (src : RM IntReg) (imm : Byte) (s : State) :
    Host.Outcome State Fault Refusal :=
  conclude do
    mmxChecks s
    let w ← wordSource s p src
    .ok ((s.setMm d (insertWord (s.mm d) (wordIndex imm) w)).retireMmx (lengthOf p (rmLength src) 1))

/-- PMAXSW (R103). -/
def execPmaxsw (p : Pfx) (d : MmReg) (src : RM MmReg) (s : State) : Host.Outcome State Fault Refusal :=
  mmxCompute (mapWords maxSignedWord) p d src 0 s

/-- PMAXUB (R104). -/
def execPmaxub (p : Pfx) (d : MmReg) (src : RM MmReg) (s : State) : Host.Outcome State Fault Refusal :=
  mmxCompute (mapBytes maxUnsignedByte) p d src 0 s

/-- PMINSW (R105). -/
def execPminsw (p : Pfx) (d : MmReg) (src : RM MmReg) (s : State) : Host.Outcome State Fault Refusal :=
  mmxCompute (mapWords minSignedWord) p d src 0 s

/-- PMINUB (R106). -/
def execPminub (p : Pfx) (d : MmReg) (src : RM MmReg) (s : State) : Host.Outcome State Fault Refusal :=
  mmxCompute (mapBytes minUnsignedByte) p d src 0 s

/-- PMOVMSKB (R107): zero-extended, the whole integer register written. -/
def execPmovmskb (p : Pfx) (d : IntReg) (r : MmReg) (s : State) : Host.Outcome State Fault Refusal :=
  conclude do
    mmxChecks s
    .ok ((s.setX d ((byteMask (s.mm r)).setWidth 32)).retireMmx (lengthOf p 0 0))

/-- PMULHUW (R108). -/
def execPmulhuw (p : Pfx) (d : MmReg) (src : RM MmReg) (s : State) : Host.Outcome State Fault Refusal :=
  mmxCompute (mapWords mulHighWord) p d src 0 s

/-- PSADBW (R118). -/
def execPsadbw (p : Pfx) (d : MmReg) (src : RM MmReg) (s : State) : Host.Outcome State Fault Refusal :=
  mmxCompute sadBytes p d src 0 s

/-- PSHUFW (R119). -/
def execPshufw (p : Pfx) (d : MmReg) (src : RM MmReg) (imm : Byte) (s : State) :
    Host.Outcome State Fault Refusal :=
  mmxCompute (fun _ v => shuffleWords v imm) p d src 1 s

end Sys2Proof.Machine
end

