-- ==== Sys2Proof/Machine/Prefetch.lean ====
section
/-! DEFINITION. The prefetch hints (43_prefetch.md R111 to R117). -/

namespace Sys2Proof.Machine

/-- The line of `cache_line_size` bytes that holds a byte: its first address (R43, R112). Description only:
no meaning reads it. -/
def cacheLineStart (p : Nat) : Nat := p / Config.cacheLineSize * Config.cacheLineSize

/-- What every prefetch does (R113): no check, no access, `pc <- pc + len`. -/
def prefetchHint (p : Pfx) (m : MemRef) (s : State) : Host.Outcome State Fault Refusal :=
  .next (s.advance (lengthOf p (memLength m) 0))

/-- PREFETCHNTA (R113). -/
def execPrefetchnta (p : Pfx) (m : MemRef) (s : State) : Host.Outcome State Fault Refusal :=
  prefetchHint p m s

/-- PREFETCHT0 (R113). -/
def execPrefetcht0 (p : Pfx) (m : MemRef) (s : State) : Host.Outcome State Fault Refusal :=
  prefetchHint p m s

/-- PREFETCHT1 (R113). -/
def execPrefetcht1 (p : Pfx) (m : MemRef) (s : State) : Host.Outcome State Fault Refusal :=
  prefetchHint p m s

/-- PREFETCHT2 (R113). -/
def execPrefetcht2 (p : Pfx) (m : MemRef) (s : State) : Host.Outcome State Fault Refusal :=
  prefetchHint p m s

end Sys2Proof.Machine
end

