-- ==== Sys2Proof/Machine/Stores.lean ====
section
/-! DEFINITION. The two stores (41_streaming_stores.md R92 to R94). -/

namespace Sys2Proof.Machine

/-- MASKMOVQ (R92, R93): data `mm[d]`, mask `mm[m]`, 8 bytes at DS:EDI or its override. -/
def execMaskmovq (p : Pfx) (d m : MmReg) (s : State) : Host.Outcome State Fault Refusal :=
  conclude do
    mmxChecks s
    let t ← memWriteMasked s (maskmovSeg p) (maskmovOffset s.cpu p) (s.mm d) (s.mm m)
    .ok (t.retireMmx (lengthOf p 0 0))

/-- MOVNTQ (R94). -/
def execMovntq (p : Pfx) (dst : MemRef) (r : MmReg) (s : State) : Host.Outcome State Fault Refusal :=
  conclude do
    mmxChecks s
    let t ← memWrite s (operandSeg p dst) (effectiveAddress s.cpu dst) (s.mm r)
    .ok (t.retireMmx (lengthOf p (memLength dst) 0))

end Sys2Proof.Machine
end

