-- ==== Sys2Proof/Machine/Float.lean ====
section
/-! DEFINITION. Single precision (40_3dnow_ext.md R79), the add and subtract of R80, and the two lane
conversions (R82, R86). Values are exact integers; every narrowing is written out. -/

namespace Sys2Proof.Machine

/-! ## The format (R79) -/

/-- Bit 31, the sign `S`. -/
def f32Sign (v : Dword) : Bool := v.getLsbD 31

/-- Bits 30:23, the biased exponent `E`. -/
def f32Exp (v : Dword) : Nat := (v.extractLsb' 23 8).toNat

/-- Bits 22:0, the fraction `F`. -/
def f32Frac (v : Dword) : Nat := (v.extractLsb' 0 23).toNat

/-- The classes of R79. -/
inductive F32Class where
  | zero
  | denormal
  | normal
  | infinity
  | nan
  deriving DecidableEq, Repr

/-- The class of a pattern (R79). -/
def f32Class (v : Dword) : F32Class :=
  if f32Exp v = 0 then (if f32Frac v = 0 then .zero else .denormal)
  else if f32Exp v = 255 then (if f32Frac v = 0 then .infinity else .nan)
  else .normal

/-- `f32(v)` of R79 in units of `2^-149`, exact for every finite pattern: `F` for a denormal,
`(2^23 + F) * 2^(E-1)` for a normal number, with the sign. -/
def f32Scaled (v : Dword) : Int :=
  let m : Nat := if f32Exp v = 0 then f32Frac v else (2 ^ 23 + f32Frac v) * 2 ^ (f32Exp v - 1)
  if f32Sign v then -(m : Int) else m

/-- The real number 1 in units of `2^-149`. -/
def f32Unit : Int := 2 ^ 149

/-- The normal pattern that encodes `n * 2^-149` exactly, where there is one (R79): the top bit of `|n|` is
the implicit 1, and nothing lies below the 24 bits from it down. -/
def f32EncodeExact (n : Int) : Option Dword :=
  let m := n.natAbs
  let t := Nat.log2 m
  if 23 ≤ t ∧ t ≤ 276 ∧ m % 2 ^ (t - 23) = 0 then
    some (BitVec.ofBool (decide (n < 0)) ++ BitVec.ofNat 8 (t - 22) ++
      BitVec.ofNat 23 (m / 2 ^ (t - 23) - 2 ^ 23))
  else none

/-! ## Add and subtract (R80) -/

/-- Zero or normal: the operands of P-EXACT (R80). -/
def f32ZeroOrNormal (v : Dword) : Bool := f32Class v == .zero || f32Class v == .normal

/-- The result of an operation whose exact value is `n * 2^-149`: what P-EXACT of R80 fixes, and elsewhere
the free value. -/
def f32Result (a b : Dword) (n : Int) (zeroIsNegative : Bool) (free : Dword) : Dword :=
  if f32ZeroOrNormal a && f32ZeroOrNormal b then
    if n = 0 then (if zeroIsNegative then 0x80000000 else 0x00000000)
    else
      match f32EncodeExact n with
      | some r => r
      | none => free
  else free

/-- `fadd32` of R80 (log 8). -/
def fadd32 (a b : Dword) : Dword :=
  f32Result a b (f32Scaled a + f32Scaled b) (Config.faddZeroIsNegative a b) (Config.faddFree a b)

/-- `fsub32` of R80 (log 8). -/
def fsub32 (a b : Dword) : Dword :=
  f32Result a b (f32Scaled a - f32Scaled b) (Config.fsubZeroIsNegative a b) (Config.fsubFree a b)

/-- The result of PFNACC (R84). -/
def negAccumulate (old src : Quad) : Quad :=
  ofDwordLanes (fsub32 (dwordLane src 0) (dwordLane src 1)) (fsub32 (dwordLane old 0) (dwordLane old 1))

/-- The result of PFPNACC (R85). -/
def mixedAccumulate (old src : Quad) : Quad :=
  ofDwordLanes (fadd32 (dwordLane src 0) (dwordLane src 1)) (fsub32 (dwordLane old 0) (dwordLane old 1))

/-! ## Conversions -/

/-- `f2iw_special` of R82: a function of the lane on an infinity, draw number `n` on a NaN (log 9). -/
def f2iwSpecial (n : Nat) (v : Dword) : Dword :=
  if f32Class v = .nan then Config.f2iwNaN n else Config.f2iwInfinity v

/-- `F2IW` of R82; `n` numbers the draw that a NaN makes. -/
def f2iw (n : Nat) (v : Dword) : Dword :=
  if f32Exp v = 255 then f2iwSpecial n v
  else if f32Scaled v ≥ 2 ^ 15 * f32Unit then 0x00007FFF
  else if f32Scaled v ≤ -(2 ^ 15 * f32Unit) then 0xFFFF8000
  else (BitVec.ofInt 16 ((f32Scaled v).tdiv f32Unit)).signExtend 32

/-- The result of PF2IW (R83); its lanes make draws `n` and `n + 1`. -/
def floatsToInts (n : Nat) (src : Quad) : Quad :=
  ofDwordLanes (f2iw (n + 1) (dwordLane src 1)) (f2iw n (dwordLane src 0))

/-- `I2FW` of R86. -/
def i2fw (w : Word16) : Dword :=
  if w.toInt = 0 then 0
  else
    let m := w.toInt.natAbs
    let e := Nat.log2 m
    BitVec.ofBool (decide (w.toInt < 0)) ++ BitVec.ofNat 8 (127 + e) ++
      BitVec.ofNat 23 ((m - 2 ^ e) * 2 ^ (23 - e))

/-- The result of PI2FW (R87): words 2 and 0 of the source. -/
def intsToFloats (src : Quad) : Quad := ofDwordLanes (i2fw (wordLane src 2)) (i2fw (wordLane src 0))

end Sys2Proof.Machine
end

