-- ==== Sys2Proof/Machine/ThreeDNow.lean ====
section
/-! DEFINITION. The 3DNow! extension instructions (40_3dnow_ext.md R83 to R88). -/

namespace Sys2Proof.Machine

/-- PF2IW (R83). Its two lanes make two draws, used where a lane is a NaN (R82; log 9). -/
def execPf2iw (p : Pfx) (d : MmReg) (src : RM MmReg) (s : State) : Host.Outcome State Fault Refusal :=
  conclude do
    mmxChecks s
    let v ← quadSource s p src
    .ok (((s.setMm d (floatsToInts s.draws v)).draw 2).retireMmx (lengthOf p (rmLength src) 1))

/-- PFNACC (R84). -/
def execPfnacc (p : Pfx) (d : MmReg) (src : RM MmReg) (s : State) : Host.Outcome State Fault Refusal :=
  mmxCompute negAccumulate p d src 1 s

/-- PFPNACC (R85). -/
def execPfpnacc (p : Pfx) (d : MmReg) (src : RM MmReg) (s : State) : Host.Outcome State Fault Refusal :=
  mmxCompute mixedAccumulate p d src 1 s

/-- PI2FW (R87). -/
def execPi2fw (p : Pfx) (d : MmReg) (src : RM MmReg) (s : State) : Host.Outcome State Fault Refusal :=
  mmxCompute (fun _ v => intsToFloats v) p d src 1 s

/-- PSWAPD (R88). -/
def execPswapd (p : Pfx) (d : MmReg) (src : RM MmReg) (s : State) : Host.Outcome State Fault Refusal :=
  mmxCompute (fun _ v => swapDwords v) p d src 1 s

end Sys2Proof.Machine
end

