-- ==== Sys2Proof/Machine/Dispatch.lean ====
section
/-! DEFINITION. The meaning of each instruction, one arm a constructor. -/

namespace Sys2Proof.Machine

def exec (i : Instr) (s : State) : Host.Outcome State Fault Refusal :=
  match i with
  | .pf2iw p d src => Sys2Proof.Machine.execPf2iw p d src s
  | .pfnacc p d src => Sys2Proof.Machine.execPfnacc p d src s
  | .pfpnacc p d src => Sys2Proof.Machine.execPfpnacc p d src s
  | .pi2fw p d src => Sys2Proof.Machine.execPi2fw p d src s
  | .pswapd p d src => Sys2Proof.Machine.execPswapd p d src s
  | .maskmovq p d m => Sys2Proof.Machine.execMaskmovq p d m s
  | .movntq p dst r => Sys2Proof.Machine.execMovntq p dst r s
  | .pavgb p d src => Sys2Proof.Machine.execPavgb p d src s
  | .pavgw p d src => Sys2Proof.Machine.execPavgw p d src s
  | .pextrw p d r imm => Sys2Proof.Machine.execPextrw p d r imm s
  | .pinsrw p d src imm => Sys2Proof.Machine.execPinsrw p d src imm s
  | .pmaxsw p d src => Sys2Proof.Machine.execPmaxsw p d src s
  | .pmaxub p d src => Sys2Proof.Machine.execPmaxub p d src s
  | .pminsw p d src => Sys2Proof.Machine.execPminsw p d src s
  | .pminub p d src => Sys2Proof.Machine.execPminub p d src s
  | .pmovmskb p d r => Sys2Proof.Machine.execPmovmskb p d r s
  | .pmulhuw p d src => Sys2Proof.Machine.execPmulhuw p d src s
  | .prefetchnta p m => Sys2Proof.Machine.execPrefetchnta p m s
  | .prefetcht0 p m => Sys2Proof.Machine.execPrefetcht0 p m s
  | .prefetcht1 p m => Sys2Proof.Machine.execPrefetcht1 p m s
  | .prefetcht2 p m => Sys2Proof.Machine.execPrefetcht2 p m s
  | .psadbw p d src => Sys2Proof.Machine.execPsadbw p d src s
  | .pshufw p d src imm => Sys2Proof.Machine.execPshufw p d src imm s
  | .sfence p => Sys2Proof.Machine.execSfence p s

end Sys2Proof.Machine
end

