-- ==== Sys2Proof/Machine/Fetch.lean ====
section
/-! DEFINITION. Fetching the bytes of an instruction (10_state.md R17, R18; 20_memory.md R32, R50), and
placing bytes where the fetch finds them. -/

namespace Sys2Proof.Machine

/-- The last offset of the code segment's offset range: 16 or 32 bits (10_state.md R17, R18). -/
def lastCodeOffset (a : Agent) : Nat :=
  match defaultAddrSize a with
  | .a16 => 0xFFFF
  | .a32 => 0xFFFFFFFF

/-- The base an instruction fetch adds: the one that CS holds, in every mode (70_reset_and_hazards.md R149: after
reset FFFF0000h with selector F000h). PRESUMED, log 12. -/
def Agent.codeBase (a : Agent) : Dword := a.segs.cs.base

/-- The physical address of the instruction byte `k` places after `pc` (R17, R18, R32). -/
def State.codeAddress (s : State) (k : Nat) : Except Refusal Nat :=
  let off := s.cpu.pc.toNat + k
  if off > lastCodeOffset s.cpu ∨ off > s.cpu.segs.cs.limit.toNat then .error .codeLimit
  else
    match s.cpu.physical .read (s.cpu.codeBase + BitVec.ofNat 32 off) with
    | none => .error .codeNotMapped
    | some p => .ok p

/-- The instruction byte `k` places after `pc`; it belongs to the program text (20_memory.md R50; log 5). DESIGN
CHOICE: the fetch does not look at `devices`, so a byte that the launch state marks both as program text and as a
device is fetched (R44 speaks of the accesses that instructions make; log 5). -/
def State.fetchByte (s : State) (k : Nat) : Except Refusal Byte :=
  match s.codeAddress k with
  | .error r => .error r
  | .ok p => if s.inText p then .ok (s.mem.read p) else .error .outsideProgram

/-- Up to `n` instruction bytes from place `k` on, and why there are no more, where that is so. -/
def State.fetchFrom (s : State) : Nat → Nat → List Byte × Option Refusal
  | 0, _ => ([], none)
  | n + 1, k =>
    match s.fetchByte k with
    | .error r => ([], some r)
    | .ok b => (b :: (s.fetchFrom n (k + 1)).1, (s.fetchFrom n (k + 1)).2)

/-- The bytes at `pc`, as many as the longest instruction has (30_encoding.md R55). -/
def State.fetch (s : State) : List Byte × Option Refusal := s.fetchFrom maxLength 0

/-- One byte placed `k` places after `pc`, as program text. -/
def State.placeByte (s : State) (k : Nat) (b : Byte) : State :=
  match s.codeAddress k with
  | .error _ => s
  | .ok p => { s with mem := s.mem.write p b, text := { lo := p, len := 1 } :: s.text }

/-- Bytes placed from `k` places after `pc` on, as program text (log 5). -/
def State.placeBytes (s : State) : Nat → List Byte → State
  | _, [] => s
  | k, b :: bs => (s.placeByte k b).placeBytes (k + 1) bs

end Sys2Proof.Machine
end

