-- ==== Sys2Proof/Machine/Run.lean ====
section
/-! DEFINITION. One instruction of the running agent, one turn of the machine, and the end of a run
(00_scope.md R9, 20_memory.md R46, 70_reset_and_hazards.md R158). -/

namespace Sys2Proof.Machine

/-- Fetch, decode, check the placement, execute (00_scope.md R9; 10_state.md R18; 30_encoding.md R74). -/
def State.runInstruction (s : State) : Host.Outcome State Fault Refusal :=
  match decode (defaultAddrSize s.cpu) s.fetch.1 with
  | .ok (i, _) =>
    if s.cpu.pc.toNat + instrLength i > lastCodeOffset s.cpu then .refused .pcOverflow else exec i s
  | .error .truncated =>
    match s.fetch.2 with
    | some r => .refused r
    | none => .refused (.undefinedEncoding .truncated)
  | .error e => .refused (.undefinedEncoding e)

/-! ## The end of an agent's run and of the machine's (R158) -/

/-- `pc` is the address designated as the end of the program (R158 (a)). -/
def State.atEnd (s : State) : Bool := s.cpu.endAt == some s.cpu.pc

/-- The program text ends at `pc`, which is the end of the program where none is designated (log 5). -/
def State.textEnds (s : State) : Bool := s.cpu.endAt.isNone && s.fetch == ([], some .outsideProgram)

/-- How an agent's run ends with this outcome of its instruction, if it does. -/
def Ending.ofOutcome : Host.Outcome State Fault Refusal → Option Ending
  | .next _ => none
  | .fault f => some (.raised f)
  | .refused r => some (.refused r)

/-- How the running agent's run ends now, if it does: at the end of the program, before anything is fetched there,
or with its next instruction (R158). -/
def State.nextEnding (s : State) : Option Ending :=
  if s.atEnd || s.textEnds then some .programEnd else Ending.ofOutcome s.runInstruction

/-- An ending as the outcome of a step. -/
def Ending.outcome : Ending → Host.Outcome State Fault Refusal
  | .programEnd => .refused .programEnd
  | .raised f => .fault f
  | .refused r => .refused r

/-- Every pending set is empty. -/
def State.drained (s : State) : Bool := s.agents.all fun a => a.pending.isEmpty

/-- Only the running agent is left: every other one has ended and every pending set is empty. -/
def State.lastOne (s : State) : Bool := s.others.all (fun a => a.ended.isSome) && s.drained

/-- The running agent's run has ended; nothing else of the state changes (60_exceptions.md R133). -/
def State.endRun (s : State) (e : Ending) : State := { s with cpu := { s.cpu with ended := some e } }

/-- The running agent's run ends: the step shows the ending where this completes the run of the machine, and
otherwise records it, and the machine goes on (log 35). -/
def State.stop (s : State) (e : Ending) : Host.Outcome State Fault Refusal :=
  if s.lastOne then e.outcome else .next (s.endRun e)

/-- The running agent executes an instruction, unless its run has ended. -/
def State.runAgent (s : State) : Host.Outcome State Fault Refusal :=
  match s.cpu.ended with
  | some _ => .next s
  | none =>
    match s.nextEnding with
    | none => s.runInstruction
    | some e => s.stop e

/-! ## One turn -/

/-- What happens when nothing is scheduled and the running agent has ended: the oldest pending record of an agent
drains, and when none is pending an agent that has not ended becomes the running one. So no record stays pending
for ever (20_memory.md R46; log 35). -/
def State.restEvent (s : State) : Event :=
  match s.agents.findIdx? fun a => !a.pending.isEmpty with
  | some who => .drain who 0
  | none =>
    match s.others.findIdx? fun a => a.ended.isNone with
    | some k => .resume k
    | none => .run

/-- The next event: the schedule's, and with none left the running agent's instruction or, where it has ended,
what is left to happen (logs 3 and 35). -/
def State.turnEvent (s : State) : Event :=
  match s.schedule with
  | e :: _ => e
  | [] => if s.cpu.ended.isSome then s.restEvent else .run

/-- The machine's ending: the running agent's, once the run is complete (R158). -/
def State.completeEnding (s : State) : Option Ending := if s.lastOne then s.cpu.ended else none

/-- One turn: a complete run shows its ending, otherwise the next event happens. -/
def State.turn (s : State) : Host.Outcome State Fault Refusal :=
  match s.completeEnding with
  | some e => e.outcome
  | none =>
    match s.turnEvent with
    | .run => State.runAgent { s with schedule := s.schedule.tail }
    | e => .next (State.happen { s with schedule := s.schedule.tail } e)

end Sys2Proof.Machine
end

