-- ==== Sys2Proof/Machine/Step.lean ====
section
/-! DEFINITION. One step of the machine, and where the host places an instruction. -/

namespace Sys2Proof.Machine

/-- One step (00_scope.md R9): a next state, a fault or a refusal. -/
def step (s : State) : Host.Outcome State Fault Refusal := s.turn

/-- `s` with the opcode table's word `w` at `pc` as program text, nothing scheduled before it, and the running
agent's run neither ended nor designated to end, so that the next step runs it (logs 5 and 7). -/
def State.withFetchWord (s : State) (nbits w : Nat) : State :=
  { s.placeBytes 0 (tableBytes nbits w) with schedule := [], cpu := { s.cpu with endAt := none, ended := none } }

end Sys2Proof.Machine
end

