-- ==== Sys2Proof/Machine/Launch.lean ====
section
/-! DEFINITION. The flat profile of 20_memory.md R41 and 70_reset_and_hazards.md R150: the launch state the
spec suggests for tests. The machine does not start from it by itself. -/

namespace Sys2Proof.Machine

/-- A flat segment: base 0, limit `2^32 - 1`, readable and writable (R41). The selector is a DESIGN CHOICE
(any selector that is not null). -/
def flatSegment : SegReg :=
  { selector := 0x23, base := 0, limit := 0xFFFFFFFF, readable := true, writable := true, big := true }

/-- One agent of the flat profile: protected mode, 32-bit addressing, CPL 3, EM = TS = AM = 0, nothing pending
(R150). DESIGN CHOICE: `pc` is 0, PE of CR0 is 1, and the MMX, integer and x87 registers, which the spec leaves to
the launch, are those after reset, EDX = 612h and x87 tags 5555h among them (log 34). -/
def flatAgent : Agent :=
  { resetAgent with
    pc := 0
    cr0 := 0x00000001
    cpl := 3
    mode := .protectedMode
    segs :=
      { es := flatSegment, cs := flatSegment, ss := flatSegment, ds := flatSegment, fs := flatSegment,
        gs := flatSegment } }

/-- The flat profile with a memory and the regions of the program text (R150). -/
def State.flat (mem : Memory) (text : List Region) : State :=
  { State.reset with cpu := flatAgent, mem := mem, text := text }

end Sys2Proof.Machine
end

