-- ==== Sys2Proof/WellFormed.lean ====
section
/-! DEFINITION. Which terms of `Instr` stand for an encoding, given the default address size of the code
segment (30_encoding.md R67). Every check is a Bool. -/

namespace Sys2Proof

/-- A plain 32-bit base is not ESP, which `rm = 100b` cannot name; EBP takes a displacement, because
`mod = 00b`, `rm = 101b` is the form without a base (R60). A SIB base of EBP takes a displacement for the
same reason (R61). -/
def Mem32.wf : Mem32 → Bool
  | .reg base disp => base != .esp && !(base == .ebp && disp == .none)
  | .abs _ => true
  | .sib base _ _ disp => !(base == .ebp && disp == .none)
  | .sibAbs _ _ _ => true

/-- BP alone takes a displacement, because `mod = 00b`, `rm = 110b` is the form without a base (R64). -/
def Mem16.wf : Mem16 → Bool
  | .based base disp => !(base == .bp && disp == .none)
  | .abs _ => true

/-- The operand has the address size of the instruction, and stands for an encoding of that size. -/
def MemRef.wf (size : AddrSize) : MemRef → Bool
  | .m32 m => size == .a32 && m.wf
  | .m16 m => size == .a16 && m.wf

/-- A register operand is always encodable. -/
def RM.wf {ρ : Type} (size : AddrSize) : RM ρ → Bool
  | .reg _ => true
  | .mem m => m.wf size

/-- The instruction is one that some byte sequence encodes, in a code segment with this default address
size. -/
def Instr.wf (dflt : AddrSize) : Instr → Bool
  | .pf2iw p _ src => src.wf (pfxAddrSize dflt p)
  | .pfnacc p _ src => src.wf (pfxAddrSize dflt p)
  | .pfpnacc p _ src => src.wf (pfxAddrSize dflt p)
  | .pi2fw p _ src => src.wf (pfxAddrSize dflt p)
  | .pswapd p _ src => src.wf (pfxAddrSize dflt p)
  | .maskmovq _ _ _ => true
  | .movntq p dst _ => dst.wf (pfxAddrSize dflt p)
  | .pavgb p _ src => src.wf (pfxAddrSize dflt p)
  | .pavgw p _ src => src.wf (pfxAddrSize dflt p)
  | .pextrw _ _ _ _ => true
  | .pinsrw p _ src _ => src.wf (pfxAddrSize dflt p)
  | .pmaxsw p _ src => src.wf (pfxAddrSize dflt p)
  | .pmaxub p _ src => src.wf (pfxAddrSize dflt p)
  | .pminsw p _ src => src.wf (pfxAddrSize dflt p)
  | .pminub p _ src => src.wf (pfxAddrSize dflt p)
  | .pmovmskb _ _ _ => true
  | .pmulhuw p _ src => src.wf (pfxAddrSize dflt p)
  | .prefetchnta p m => m.wf (pfxAddrSize dflt p)
  | .prefetcht0 p m => m.wf (pfxAddrSize dflt p)
  | .prefetcht1 p m => m.wf (pfxAddrSize dflt p)
  | .prefetcht2 p m => m.wf (pfxAddrSize dflt p)
  | .psadbw p _ src => src.wf (pfxAddrSize dflt p)
  | .pshufw p _ src _ => src.wf (pfxAddrSize dflt p)
  | .sfence _ => true

end Sys2Proof
end

