-- ==== Sys2Proof/Safety.lean ====
section
/-! DEFINITION. What the statements are said in: when an instruction may run, what it is meant to write, the
invariant of the machine, and the end of a run. -/

namespace Sys2Proof.Machine

/-! ## Running -/

/-- The premises under which an instruction other than PREFETCH and SFENCE executes
(70_reset_and_hazards.md R150). -/
abbrev MmxReady (s : State) : Prop :=
  s.cpu.em = false ∧ s.cpu.ts = false ∧ s.cpu.fpPending = false

/-- The four PREFETCH forms and SFENCE: the instructions that run no check (60_exceptions.md R131). -/
def runsNoCheck : Instr → Bool
  | .prefetchnta _ _ | .prefetcht0 _ _ | .prefetcht1 _ _ | .prefetcht2 _ _ | .sfence _ => true
  | _ => false

/-- The operand of an access: segment, offset, bytes, kind. -/
structure Operand where
  seg : Seg
  off : Dword
  size : Nat
  kind : Access
  deriving DecidableEq, Repr

/-- The operand of a source in `ModRM.rm`, where it is in memory. -/
def sourceOperand {ρ : Type} (s : State) (p : Pfx) (n : Nat) : RM ρ → Option Operand
  | .reg _ => none
  | .mem m => some { seg := operandSeg p m, off := effectiveAddress s.cpu m, size := n, kind := .read }

/-- The memory operand that an instruction accesses (20_memory.md R33). -/
def memoryOperand (s : State) : Instr → Option Operand
  | .pf2iw p _ src | .pfnacc p _ src | .pfpnacc p _ src | .pi2fw p _ src | .pswapd p _ src => sourceOperand s p 8 src
  | .pavgb p _ src | .pavgw p _ src | .pmaxsw p _ src | .pmaxub p _ src => sourceOperand s p 8 src
  | .pminsw p _ src | .pminub p _ src | .pmulhuw p _ src | .psadbw p _ src => sourceOperand s p 8 src
  | .pshufw p _ src _ => sourceOperand s p 8 src
  | .pinsrw p _ src _ => sourceOperand s p 2 src
  | .movntq p dst _ =>
    some { seg := operandSeg p dst, off := effectiveAddress s.cpu dst, size := 8, kind := .write }
  | .maskmovq p _ _ => some { seg := maskmovSeg p, off := maskmovOffset s.cpu p, size := 8, kind := .write }
  | .pextrw _ _ _ _ | .pmovmskb _ _ _ => none
  | .prefetchnta _ _ | .prefetcht0 _ _ | .prefetcht1 _ _ | .prefetcht2 _ _ | .sfence _ => none

/-- Whether a failed check of the operand counts, or its overlap with the program text: always, but for MASKMOVQ with
an all-zero mask, where `maskmov_zero_mask_faults` says (41_streaming_stores.md R93, log 24). -/
def checkCounts (s : State) : Instr → Bool
  | .maskmovq _ _ m => byteMask (s.mm m) != 0 || Config.maskmovZeroMaskFaults
  | _ => true

/-! ## What an instruction is meant to write -/

/-- The MMX register an instruction writes (10_state.md R16). -/
def destMm : Instr → Option MmReg
  | .pf2iw _ d _ | .pfnacc _ d _ | .pfpnacc _ d _ | .pi2fw _ d _ | .pswapd _ d _ => some d
  | .pavgb _ d _ | .pavgw _ d _ | .pmaxsw _ d _ | .pmaxub _ d _ | .pminsw _ d _ | .pminub _ d _ => some d
  | .pmulhuw _ d _ | .psadbw _ d _ | .pshufw _ d _ _ | .pinsrw _ d _ _ => some d
  | .maskmovq _ _ _ | .movntq _ _ _ | .pextrw _ _ _ _ | .pmovmskb _ _ _ => none
  | .prefetchnta _ _ | .prefetcht0 _ _ | .prefetcht1 _ _ | .prefetcht2 _ _ | .sfence _ => none

/-- The integer register an instruction writes (10_state.md R16). -/
def destInt : Instr → Option IntReg
  | .pextrw _ d _ _ | .pmovmskb _ d _ => some d
  | _ => none

/-- The physical addresses an instruction stores to: the eight bytes of MOVNTQ's operand, the selected bytes
of MASKMOVQ's (20_memory.md R33), computed by the function the meanings use for the address. -/
def storedAddresses (s : State) : Instr → List Nat
  | .movntq p dst r =>
    match accessCheck s.cpu (operandSeg p dst) (effectiveAddress s.cpu dst) 8 .write with
    | .ok ps => (quadCells ps (s.mm r)).map Prod.fst
    | .error _ => []
  | .maskmovq p d m =>
    match accessCheck s.cpu (maskmovSeg p) (maskmovOffset s.cpu p) 8 .write with
    | .ok ps => (selectedCells (s.mm m) 0 (quadCells ps (s.mm d))).map Prod.fst
    | .error _ => []
  | _ => []

/-! ## Property P-EXACT (40_3dnow_ext.md R80) -/

/-- P-EXACT for an operation whose exact value is `value a b * 2^-149`. -/
abbrev PExact (op : Dword → Dword → Dword) (value : Dword → Dword → Int) : Prop :=
  ∀ a b : Dword, f32ZeroOrNormal a = true → f32ZeroOrNormal b = true →
    (∀ r : Dword, f32Class r = .normal → f32Scaled r = value a b → op a b = r) ∧
    (value a b = 0 → op a b = 0x00000000 ∨ op a b = 0x80000000)

/-! ## The invariant -/

/-- CPL is 0 in real-address mode, 3 in virtual-8086 mode, and in protected mode the low two bits of the CS selector
(10_state.md R22). DEDUCED: the mode fixes CPL in the other two, where a selector is a plain number (log 27). -/
def Agent.cplLegal (a : Agent) : Prop :=
  (a.mode = .realAddress → a.cpl = 0) ∧ (a.mode = .virtual8086 → a.cpl = 3) ∧
  (a.mode = .protectedMode → a.cpl = a.segs.cs.selector.extractLsb' 0 2)

/-- The records stand in program order: their epochs never fall, and none is newer than the agent's epoch
(20_memory.md R46). -/
def Agent.pendingOrdered (a : Agent) : Prop :=
  a.pending.Pairwise (fun r q => r.epoch ≤ q.epoch) ∧ ∀ r ∈ a.pending, r.epoch ≤ a.epoch

/-- No pending byte belongs to the program text or to a device (20_memory.md R44, R50). -/
def State.pendingOrdinary (s : State) (a : Agent) : Prop :=
  ∀ r ∈ a.pending, s.inText r.addr = false ∧ s.inDevice r.addr = false

/-- What every step keeps. -/
structure State.Inv (s : State) : Prop where
  memory : s.mem.wf = true
  cpl : ∀ a ∈ s.agents, a.cplLegal
  ordered : ∀ a ∈ s.agents, a.pendingOrdered
  ordinary : ∀ a ∈ s.agents, s.pendingOrdinary a

/-! ## Reading displacements as numbers (30_encoding.md R62) -/

/-- A displacement as the number that is added, `addr_size = 32`. -/
def disp32Number : Disp32 → Int
  | .none => 0
  | .d8 d => d.toInt
  | .d32 d => d.toNat

/-- A displacement as the number that is added, `addr_size = 16`. -/
def disp16Number : Disp16 → Int
  | .none => 0
  | .d8 d => d.toInt
  | .d16 d => d.toNat

/-! ## Privilege (60_exceptions.md R142) -/

/-- The agent at another privilege level, which in protected mode the low two bits of its CS selector hold too
(10_state.md R22). -/
def Agent.atCpl (a : Agent) (c : BitVec 2) : Agent :=
  let selector := a.segs.cs.selector.extractLsb' 2 14 ++ c
  match a.mode with
  | .protectedMode => { a with cpl := c, segs := { a.segs with cs := { a.segs.cs with selector := selector } } }
  | _ => { a with cpl := c }

/-- The same state with the running agent at another privilege level. -/
def State.atCpl (s : State) (c : BitVec 2) : State := { s with cpu := s.cpu.atCpl c }

/-- An outcome with its next state, if it has one, at another privilege level. -/
def outcomeAtCpl (o : Host.Outcome State Fault Refusal) (c : BitVec 2) : Host.Outcome State Fault Refusal :=
  match o with
  | .next t => .next (t.atCpl c)
  | .fault f => .fault f
  | .refused r => .refused r

/-! ## Counting pending writes of one epoch (20_memory.md R46) -/

/-- How many bytes of epoch `e` an agent has pending. -/
def pendingOfEpoch (a : Agent) (e : Nat) : Nat := (a.pending.filter fun r => r.epoch == e).length

/-- The agent that a step leaves at another place: agent `k` of the others and the running one exchange places
when the turn is `resume k`, and every other agent stays where it is. -/
def State.placeAfter (s : State) (who : Nat) : Nat :=
  match s.turnEvent with
  | .resume k => if k < s.others.length then (if who = 0 then k + 1 else if who = k + 1 then 0 else who) else who
  | _ => who

/-- The drain steps of a list, each on record `i` of agent `who`, one after the other. -/
def drainAll (s : State) (ds : List (Nat × Nat)) : State := ds.foldl (fun u d => u.drain d.1 d.2) s

/-! ## Where a linear address lies (20_memory.md R34, R42) -/

/-- The page's right for the access at this privilege level, read off its four fields. -/
abbrev PageEntry.Grants (e : PageEntry) (kind : Access) (cpl : BitVec 2) : Prop :=
  (kind = .read ∧ (if cpl = 3 then e.userRead else e.supervisorRead) = true) ∨
    (kind = .write ∧ (if cpl = 3 then e.userWrite else e.supervisorWrite) = true)

/-- `p` is the place of linear address `lin`: `lin` itself in real-address mode and with paging off, otherwise the
same offset in the physical page of a listed page that admits the access. -/
def Agent.MapsTo (a : Agent) (kind : Access) (lin p : Nat) : Prop :=
  ((a.mode = .realAddress ∨ a.paging = none) → p = lin) ∧
  ∀ entries, a.mode ≠ .realAddress → a.paging = some entries →
    ∃ e ∈ entries, e.page.toNat = lin / 4096 ∧ e.Grants kind a.cpl ∧ p = e.frame * 4096 + lin % 4096

/-- Linear address `lin` has a place: paging does not apply, or the page list has exactly one entry for its page, and
that entry admits the access. -/
def Agent.Admits (a : Agent) (kind : Access) (lin : Nat) : Prop :=
  a.mode = .realAddress ∨ a.paging = none ∨
    ∃ entries, a.paging = some entries ∧ ∃ e ∈ entries, e.page.toNat = lin / 4096 ∧ e.Grants kind a.cpl ∧
      ∀ e' ∈ entries, e'.page = e.page → e' = e

/-! ## The end of a run (70_reset_and_hazards.md R158) -/

/-- Every agent but the running one has ended, and nothing is pending. -/
abbrev State.OnlyRunningLeft (s : State) : Prop :=
  (∀ a ∈ s.others, a.ended ≠ none) ∧ ∀ a ∈ s.agents, a.pending = []

/-- The step ends the run of the running agent: with the outcome `o` where that completes the run of the machine,
and otherwise by recording `e`, with nothing else changed but the turn taken off the schedule (log 35). -/
def StepEnds (s : State) (e : Ending) (o : Host.Outcome State Fault Refusal) : Prop :=
  (s.OnlyRunningLeft → step s = o) ∧
  (¬ s.OnlyRunningLeft →
    step s = .next { s with schedule := s.schedule.tail, cpu := { s.cpu with ended := some e } })

/-- The state after `n` steps, where every one of them answers a next state. -/
def State.after : Nat → State → Option State
  | 0, s => some s
  | n + 1, s =>
    match step s with
    | .next t => t.after n
    | _ => none

/-- What a complete run shows of an agent: its registers, `pc` and outcome. -/
structure AgentView where
  mm : MmFile 64
  x : IntFile
  pc : Dword
  outcome : Option Ending
  deriving DecidableEq, Repr

/-- What a complete run shows of an agent with this outcome. -/
def Agent.view (a : Agent) (outcome : Option Ending) : AgentView :=
  { mm := a.mm, x := a.x, pc := a.pc, outcome := outcome }

/-- How the running agent's run has ended, or ends with its next instruction. -/
def State.outcome (s : State) : Option Ending :=
  match s.cpu.ended with
  | some e => some e
  | none => s.nextEnding

/-- What a complete run shows, at the state whose step answers no next state: each agent's registers, `pc` and
outcome, and the final memory. -/
def State.observables (s : State) : List AgentView × Memory :=
  (s.cpu.view s.outcome :: s.others.map fun a => a.view a.ended, s.mem)

end Sys2Proof.Machine
end

