-- ==== Sys2Proof/Certificates/Slice0/Obligations.lean ====
section
/-! DEFINITION. The statements for the provers. Each docstring names the rules of spec/ it formalises. -/

open Sys2Proof Sys2Proof.Machine

/-! ## Encoding (30_encoding.md) -/

/-- Decoding an encoded well-formed instruction gives it back, and leaves the bytes after it (R53 to R73). -/
def Obligations.DecodeOfEncodeIsTheInstruction : Prop :=
  ∀ (dflt : AddrSize) (i : Instr) (rest : List Byte),
    i.wf dflt = true → decode dflt (encode i ++ rest) = .ok (i, rest)

/-- What the decoder accepts is well-formed, and encodes to the bytes it was read from (R53 to R73). -/
def Obligations.EncodeOfDecodeIsTheBytes : Prop :=
  ∀ (dflt : AddrSize) (bs rest : List Byte) (i : Instr),
    decode dflt bs = .ok (i, rest) → i.wf dflt = true ∧ encode i ++ rest = bs

/-- A decoded instruction takes the bytes that the length formula counts, 3 to 11 of them (R55). -/
def Obligations.DecodedLengthIsThreeToEleven : Prop :=
  ∀ (dflt : AddrSize) (bs rest : List Byte) (i : Instr),
    decode dflt bs = .ok (i, rest) →
      bs.length = instrLength i + rest.length ∧ 3 ≤ instrLength i ∧ instrLength i ≤ 11

/-- 66h, F0h, F2h or F3h before `0Fh`, a second segment override, or a second 67h is refused, after any
admitted prefix bytes (R68, the spec's decision D7). Which reason the refusal names is the model's choice (log 20). -/
def Obligations.RefusedPrefixesAreRefused : Prop :=
  ∀ (dflt : AddrSize) (p : Pfx) (b : Byte) (rest : List Byte),
    (b ∈ [0x66, 0xF0, 0xF2, 0xF3] → decode dflt (pfxBytes p ++ b :: rest) = .error (.refusedPfx b)) ∧
    ((segOverride p).isSome = true → b ∈ [0x26, 0x2E, 0x36, 0x3E, 0x64, 0x65] →
      decode dflt (pfxBytes p ++ b :: rest) = .error (.repeatedPfx b)) ∧
    ((0x67 : Byte) ∈ pfxBytes p →
      decode dflt (pfxBytes p ++ 0x67 :: rest) = .error (.repeatedPfx 0x67))

/-- R71 to R73: PEXTRW, PMOVMSKB and MASKMOVQ take `mod = 11b` only, MOVNTQ and the prefetches any other
`mod` only; `0F 18` has four members and `0F AE` one. Which reason the refusal names, where several hold or bytes are
missing, is the model's choice (log 20). -/
def Obligations.ForbiddenModAndGroupMembersAreRefused : Prop :=
  ∀ (dflt : AddrSize) (p : Pfx) (modrm : Byte) (rest : List Byte),
    (∀ op2 ∈ ([0xC5, 0xD7, 0xF7] : List Byte), fieldTop modrm ≠ 3 →
      decode dflt (pfxBytes p ++ 0x0F :: op2 :: modrm :: rest) = .error (.needsRegister op2)) ∧
    (fieldTop modrm = 3 →
      decode dflt (pfxBytes p ++ 0x0F :: 0xE7 :: modrm :: rest) = .error (.needsMemory 0xE7)) ∧
    (fieldTop modrm = 3 → (fieldMid modrm).toNat < 4 →
      decode dflt (pfxBytes p ++ 0x0F :: 0x18 :: modrm :: rest) = .error (.needsMemory 0x18)) ∧
    (4 ≤ (fieldMid modrm).toNat →
      decode dflt (pfxBytes p ++ 0x0F :: 0x18 :: modrm :: rest) =
        .error (.undefinedGroupMember 0x18 modrm)) ∧
    (modrm ≠ 0xF8 →
      decode dflt (pfxBytes p ++ 0x0F :: 0xAE :: modrm :: rest) =
        .error (.undefinedGroupMember 0xAE modrm))

/-- Words written out from R56 and R60 to R70 decode to the instructions they stand for, one of each
format. -/
def Obligations.SampleEncodingsDecode : Prop :=
  decode .a32 [0x0F, 0x0F, 0x8C, 0x88, 0x00, 0x01, 0x00, 0x00, 0x1C] =
      .ok (.pf2iw .plain .mm1 (.mem (.m32 (.sib .eax .ecx 2 (.d32 0x100)))), []) ∧
    decode .a32 [0x67, 0x26, 0x0F, 0xE7, 0x04] =
      .ok (.movntq (.addrSeg .es) (.m16 (.based .si .none)) .mm0, []) ∧
    decode .a32 [0x0F, 0xC4, 0x5D, 0xFE, 0x01] =
      .ok (.pinsrw .plain .mm3 (.mem (.m32 (.reg .ebp (.d8 0xFE)))) 1, []) ∧
    decode .a16 [0x0F, 0xE0, 0x06, 0x34, 0x12] =
      .ok (.pavgb .plain .mm0 (.mem (.m16 (.abs 0x1234))), []) ∧
    decode .a32 [0x0F, 0x18, 0x4C, 0x8B, 0x10] =
      .ok (.prefetcht0 .plain (.m32 (.sib .ebx .ecx 2 (.d8 0x10))), []) ∧
    decode .a32 [0x0F, 0xAE, 0xF8] = .ok (.sfence .plain, [])

/-! ## The step -/

/-- When the bytes at `pc` decode to an instruction and its place holds it whole, a step of an agent that has not
ended and is not at its designated end, with nothing scheduled before it or with its own turn scheduled, is `exec` of
it, the turn being taken off the schedule (00_scope.md R9). A fault or a refusal ends the agent's run: it is the
step's outcome where this completes the run of the machine, and is recorded otherwise (R158). The schedule and the
recorded ending are the model's own (logs 3 and 35). -/
def Obligations.StepRunsTheDecodedInstruction : Prop :=
  ∀ (s : State) (i : Instr) (rest : List Byte), s.cpu.ended = none →
    (s.schedule = [] ∨ ∃ later, s.schedule = .run :: later) → s.cpu.endAt ≠ some s.cpu.pc →
    decode (defaultAddrSize s.cpu) s.fetch.1 = .ok (i, rest) →
    s.cpu.pc.toNat + instrLength i ≤ lastCodeOffset s.cpu →
      let o := exec i { s with schedule := s.schedule.tail }
      (∀ t, o = .next t → step s = .next t) ∧
      (∀ f, o = .fault f → StepEnds s (.raised f) (.fault f)) ∧
      (∀ r, o = .refused r → StepEnds s (.refused r) (.refused r))

/-- A step of an agent that has not ended, with nothing scheduled before it or with its own turn scheduled (log 3). At
the address designated as the end of the program its run ends there, whatever lies at `pc` (R158 (a)). Elsewhere bytes
that are none of the 24 instructions end its run with the decoder's reason, bytes that end early end it with the
fetch's reason, `codeLimit` where the first byte that is missing lies beyond the CS limit or the last offset, and an
instruction that ends past the last offset ends it too (30_encoding.md R74, 10_state.md R18). The model's choices are
that a reason which the decoder finds in the bytes there are comes before the reason why others are missing, and that
`pcOverflow` is for bytes that decode only (log 20); that the fetch stops outside the program text and at an unmapped
page (logs 5 and 6); that with no end designated the program ends where its text does (log 5); and how an ending is
recorded and shown (log 35). -/
def Obligations.StepRefusesWhatItCannotRun : Prop :=
  ∀ s : State, s.cpu.ended = none → (s.schedule = [] ∨ ∃ later, s.schedule = .run :: later) →
    (s.cpu.endAt = some s.cpu.pc → StepEnds s .programEnd (.refused .programEnd)) ∧
    (s.cpu.endAt ≠ some s.cpu.pc →
      (∀ e, decode (defaultAddrSize s.cpu) s.fetch.1 = .error e → e ≠ .truncated →
        StepEnds s (.refused (.undefinedEncoding e)) (.refused (.undefinedEncoding e))) ∧
      (decode (defaultAddrSize s.cpu) s.fetch.1 = .error .truncated → ∃ r, s.fetch.2 = some r ∧
        (if s.cpu.endAt = none ∧ r = .outsideProgram ∧ s.fetch.1 = [] then
          StepEnds s .programEnd (.refused .programEnd)
        else StepEnds s (.refused r) (.refused r)) ∧
        (r = .codeLimit ↔ lastCodeOffset s.cpu < s.cpu.pc.toNat + s.fetch.1.length ∨
          s.cpu.segs.cs.limit.toNat < s.cpu.pc.toNat + s.fetch.1.length)) ∧
      (∀ i rest, decode (defaultAddrSize s.cpu) s.fetch.1 = .ok (i, rest) →
        lastCodeOffset s.cpu < s.cpu.pc.toNat + instrLength i →
          StepEnds s (.refused .pcOverflow) (.refused .pcOverflow)))

/-- The fetch reads at most 11 bytes. Byte `k` is the program text's byte at the place of the linear address
`(base + pc + k) mod 2^32`, its offset within the CS limit and the last offset, FFFFh or FFFFFFFFh as CS is a 16-bit or
a 32-bit segment (R17, R18, 20_memory.md R32, R50). It ends before 11 bytes exactly at the first byte that is not so:
`codeLimit` beyond the limit or the last offset; otherwise the page is not mapped, or the byte is not program text.
The base that CS holds, and the last two reasons, are the model's choice (logs 12, 6 and 5). -/
def Obligations.FetchReadsTheCodeSegment : Prop :=
  ∀ s : State,
    let off := fun k : Nat => s.cpu.pc.toNat + k
    let lin := fun k : Nat => (s.cpu.segs.cs.base.toNat + off k) % 2 ^ 32
    let inSegment := fun k : Nat => off k ≤ lastCodeOffset s.cpu ∧ off k ≤ s.cpu.segs.cs.limit.toNat
    let len := s.fetch.1.length
    lastCodeOffset s.cpu =
      (if s.cpu.mode = .protectedMode ∧ s.cpu.segs.cs.big = true then 0xFFFFFFFF else 0xFFFF) ∧
    len ≤ 11 ∧ (s.fetch.2 = none ↔ len = 11) ∧
    (∀ k b, s.fetch.1[k]? = some b → inSegment k ∧
      ∃ p, s.cpu.MapsTo .read (lin k) p ∧ s.inText p = true ∧ b = s.mem.read p) ∧
    (len < 11 →
      (s.fetch.2 = some .codeLimit ↔ ¬ inSegment len) ∧
      (s.fetch.2 = some .codeNotMapped → ¬ s.cpu.Admits .read (lin len)) ∧
      (s.fetch.2 = some .outsideProgram → ∃ p, s.cpu.MapsTo .read (lin len) p ∧ s.inText p = false) ∧
      s.fetch.2 ∈ [some .codeLimit, some .codeNotMapped, some .outsideProgram])

/-- Between instructions the schedule decides (log 3): a scheduled event that is no turn of the running agent happens,
and a turn of an agent that has ended does nothing. With nothing scheduled and the running agent ended, the oldest
record of an agent drains, or, with none pending, an agent that has not ended becomes the running one (log 35). Once
every agent has ended and nothing is pending the step answers the running agent's ending (R158). What happens: an
outside agent's write leaves its byte in memory and changes nothing else (20_memory.md R45), that it goes to memory
directly, one byte an event, being the model's choice (log 26), and nothing at all where the byte is program text (R50;
that the event is then without effect is log 3's choice); another agent's turn exchanges it with the running one, each
with all it holds, and does nothing where there is no such agent (log 3). -/
def Obligations.TurnsFollowTheSchedule : Prop :=
  ∀ s : State,
    (∀ e, s.cpu.ended = some e → s.OnlyRunningLeft →
      (e = .programEnd → step s = .refused .programEnd) ∧
      (∀ f, e = .raised f → step s = .fault f) ∧ (∀ r, e = .refused r → step s = .refused r)) ∧
    (s.cpu.ended = none ∨ ¬ s.OnlyRunningLeft →
      (∀ e rest, e ≠ .run → s.schedule = e :: rest →
        step s = .next (State.happen { s with schedule := rest } e)) ∧
      (∀ rest, s.cpu.ended ≠ none → s.schedule = .run :: rest → step s = .next { s with schedule := rest }) ∧
      (s.cpu.ended ≠ none → s.schedule = [] →
        (∃ who a, s.agent who = some a ∧ a.pending ≠ [] ∧ step s = .next (s.drain who 0)) ∨
        (∀ a ∈ s.agents, a.pending = []) ∧
          ∃ k a, s.others[k]? = some a ∧ a.ended = none ∧ step s = .next (s.resume k))) ∧
    (∀ p b,
      (s.inText p = false → s.mem.wf = true → ∃ m, State.happen s (.external p b) = { s with mem := m } ∧
        m.read p = b ∧ ∀ q, q ≠ p → m.read q = s.mem.read q) ∧
      (s.inText p = true → State.happen s (.external p b) = s)) ∧
    ∀ k, (∀ a, s.others[k]? = some a →
        State.happen s (.resume k) = { s with cpu := a, others := s.others.set k s.cpu }) ∧
      (s.others[k]? = none → State.happen s (.resume k) = s)

/-! ## Operands -/

/-- The offset of a 32-bit operand is the sum of base, scaled index and displacement modulo `2^32`; an index of
ESP is none (R60 to R62). -/
def Obligations.Address32IsTheSum : Prop :=
  ∀ a : Agent,
    (∀ base disp, ((effectiveAddress a (.m32 (.reg base disp))).toNat : Int) =
      ((a.x.get base).toNat + disp32Number disp) % 2 ^ 32) ∧
    (∀ d, effectiveAddress a (.m32 (.abs d)) = d) ∧
    (∀ base index scale disp, ((effectiveAddress a (.m32 (.sib base index scale disp))).toNat : Int) =
      ((a.x.get base).toNat + (if index = .esp then 0 else (a.x.get index).toNat * 2 ^ scale.toNat) +
        disp32Number disp) % 2 ^ 32) ∧
    (∀ index scale (d : Dword), ((effectiveAddress a (.m32 (.sibAbs index scale d))).toNat : Int) =
      (d.toNat + (if index = .esp then 0 else (a.x.get index).toNat * 2 ^ scale.toNat)) % 2 ^ 32)

/-- The offset of a 16-bit operand is the sum of the low words of its registers and the displacement modulo
`2^16` (R64). -/
def Obligations.Address16IsTheSum : Prop :=
  ∀ (a : Agent) (disp : Disp16),
    let w := fun r : IntReg => ((a.x.get r).toNat % 2 ^ 16 : Nat)
    let ea := fun b : Base16 => ((effectiveAddress a (.m16 (.based b disp))).toNat : Int)
    ea .bxsi = (w .ebx + w .esi + disp16Number disp) % 2 ^ 16 ∧
    ea .bxdi = (w .ebx + w .edi + disp16Number disp) % 2 ^ 16 ∧
    ea .bpsi = (w .ebp + w .esi + disp16Number disp) % 2 ^ 16 ∧
    ea .bpdi = (w .ebp + w .edi + disp16Number disp) % 2 ^ 16 ∧
    ea .si = (w .esi + disp16Number disp) % 2 ^ 16 ∧
    ea .di = (w .edi + disp16Number disp) % 2 ^ 16 ∧
    ea .bp = (w .ebp + disp16Number disp) % 2 ^ 16 ∧
    ea .bx = (w .ebx + disp16Number disp) % 2 ^ 16 ∧
    ∀ d : Word16, (effectiveAddress a (.m16 (.abs d))).toNat = d.toNat

/-- An operand is in the segment that an override names; without one it is in SS when its base is EBP or ESP or its
address uses BP, and otherwise in DS (R63, R65, R67). MASKMOVQ's is at DS, or the override, with the offset EDI, or DI
when the address size is 16 (R66), which 67h exchanges with the size of the code segment (R67). -/
def Obligations.OperandsAreInTheirSegments : Prop :=
  (∀ (g : Seg), ∀ p ∈ [Pfx.seg g, .segAddr g, .addrSeg g], maskmovSeg p = g ∧ ∀ m, operandSeg p m = g) ∧
  (∀ p ∈ [Pfx.plain, .addr], maskmovSeg p = .ds ∧
    (∀ base disp, operandSeg p (.m32 (.reg base disp)) = if base = .ebp ∨ base = .esp then .ss else .ds) ∧
    (∀ d, operandSeg p (.m32 (.abs d)) = .ds) ∧
    (∀ base index scale disp,
      operandSeg p (.m32 (.sib base index scale disp)) = if base = .ebp ∨ base = .esp then .ss else .ds) ∧
    (∀ index scale d, operandSeg p (.m32 (.sibAbs index scale d)) = .ds) ∧
    (∀ base disp,
      operandSeg p (.m16 (.based base disp)) = if base ∈ [.bpsi, .bpdi, .bp] then .ss else .ds) ∧
    ∀ d, operandSeg p (.m16 (.abs d)) = .ds) ∧
  ∀ (a : Agent) (p : Pfx),
    let big : Bool := a.mode = .protectedMode ∧ a.segs.cs.big = true
    let override : Bool := (0x67 : Byte) ∈ pfxBytes p
    (maskmovOffset a p).toNat =
      if big != override then (a.x.get .edi).toNat else (a.x.get .edi).toNat % 2 ^ 16

/-- A source in a register is that register, for the 64-bit sources (00_scope.md R10). A source in memory can be read
when its checks hold and no byte of it belongs to a device; the byte at the lowest address is the least significant,
and each byte is one the agent sees now (20_memory.md R31, R39, R47) or one in its list of bytes read earlier in this
instruction (R40, R48), a list that is the model's own (log 10): an `early` event puts the byte the agent sees at an
address then at its head, and changes nothing else. -/
def Obligations.MemorySourcesAreLittleEndian : Prop :=
  ∀ (s : State) (p : Pfx),
    (∀ k q, State.happen s (.early k q) = { s with cpu := { s.cpu with
      early := { index := k, addr := q, byte := s.sees q } :: s.cpu.early } }) ∧
    (∀ r, quadSource s p (.reg r) = .ok (s.mm r)) ∧
    ∀ (m : MemRef) (ps : List Nat), (∀ q ∈ ps, s.inDevice q = false) →
      let shows := fun (k q : Nat) (b : Byte) =>
        b = s.sees q ∨ ∃ e ∈ s.cpu.early, e.index = k ∧ e.addr = q ∧ b = e.byte
      (accessCheck s.cpu (operandSeg p m) (effectiveAddress s.cpu m) 8 .read = .ok ps →
        ∃ v, quadSource s p (.mem m) = .ok v ∧
          ∀ k < 8, ∃ q, ps[k]? = some q ∧ shows k q (byteLane v k) ∧
            (s.cpu.early = [] → byteLane v k = s.sees q)) ∧
      (accessCheck s.cpu (operandSeg p m) (effectiveAddress s.cpu m) 2 .read = .ok ps →
        ∃ w, wordSource s p (.mem m) = .ok w ∧
          ∀ k < 2, ∃ q, ps[k]? = some q ∧ shows k q (w.extractLsb' (8 * k) 8) ∧
            (s.cpu.early = [] → w.extractLsb' (8 * k) 8 = s.sees q))

/-- R40, R46: where `atomic64` holds, an 8-byte read at a multiple of 8 takes every byte as the agent sees it now, and
the eight records of an aligned MOVNTQ store drain in one step, whichever of them the step names; where it does not
hold, a byte may have been read earlier, and a drain step takes one record. The list of bytes read earlier and the
places in a record are the model's own (log 10). -/
def Obligations.AtomicAlignedAccesses : Prop :=
  (∀ (s : State) (p : Pfx) (m : MemRef) (ps : List Nat), (∀ q ∈ ps, s.inDevice q = false) →
    accessCheck s.cpu (operandSeg p m) (effectiveAddress s.cpu m) 8 .read = .ok ps →
    (s.cpu.linear (operandSeg p m) (effectiveAddress s.cpu m) 0).toNat % 8 = 0 →
      ∃ v, quadSource s p (.mem m) = .ok v ∧ ∀ k < 8, ∃ q, ps[k]? = some q ∧
        if Config.atomic64 then byteLane v k = s.sees q
        else byteLane v k = s.sees q ∨ ∃ e ∈ s.cpu.early, e.index = k ∧ e.addr = q ∧ byteLane v k = e.byte) ∧
  ∀ (s : State) (who : Nat) (a : Agent) (before quad later : List Record) (e : Nat), s.mem.wf = true →
    s.agent who = some a → a.pending = before ++ quad ++ later →
    (∀ r ∈ quad, r.epoch = e) → quad.map (·.quad) = (List.finRange 8).map some → (quad.map (·.addr)).Nodup →
    (∀ r ∈ a.pending, e ≤ r.epoch) → (∀ r ∈ before, ∀ q ∈ quad, r.addr ≠ q.addr) →
      ∀ j r, quad[j]? = some r →
        let t := s.drain who (before.length + j)
        if Config.atomic64 then
          t.agent who = some { a with pending := before ++ later } ∧ (∀ q ∈ quad, t.mem.read q.addr = q.byte) ∧
            ∀ p, (∀ q ∈ quad, q.addr ≠ p) → t.mem.read p = s.mem.read p
        else
          t.agent who = some { a with pending := before ++ quad.eraseIdx j ++ later } ∧
            t.mem.read r.addr = r.byte ∧ ∀ p, p ≠ r.addr → t.mem.read p = s.mem.read p

/-! ## Packed integer instructions (42_packed_integer_a.md, 44_packed_integer_b.md) -/

/-- PAVGB and PAVGW complete and leave in each lane of the destination the average of the two source lanes,
rounded up (R98 to R100). -/
def Obligations.PackedAveragesRoundUp : Prop :=
  ∀ (p : Pfx) (d : MmReg) (src : RM MmReg) (s : State) (v : Quad),
    MmxReady s → quadSource s p src = .ok v →
      (∃ t, exec (.pavgb p d src) s = .next t ∧
        ∀ k < 8, (byteLane (t.mm d) k).toNat =
          ((byteLane (s.mm d) k).toNat + (byteLane v k).toNat + 1) / 2) ∧
      (∃ t, exec (.pavgw p d src) s = .next t ∧
        ∀ k < 4, (wordLane (t.mm d) k).toNat =
          ((wordLane (s.mm d) k).toNat + (wordLane v k).toNat + 1) / 2)

/-- PMAXUB and PMINUB complete with the unsigned maximum and minimum of each byte lane, PMAXSW and PMINSW with
the signed ones of each word lane (R103 to R106). -/
def Obligations.PackedMaximaAndMinima : Prop :=
  ∀ (p : Pfx) (d : MmReg) (src : RM MmReg) (s : State) (v : Quad),
    MmxReady s → quadSource s p src = .ok v →
      (∃ t, exec (.pmaxub p d src) s = .next t ∧
        ∀ k < 8, (byteLane (t.mm d) k).toNat = max (byteLane (s.mm d) k).toNat (byteLane v k).toNat) ∧
      (∃ t, exec (.pminub p d src) s = .next t ∧
        ∀ k < 8, (byteLane (t.mm d) k).toNat = min (byteLane (s.mm d) k).toNat (byteLane v k).toNat) ∧
      (∃ t, exec (.pmaxsw p d src) s = .next t ∧
        ∀ k < 4, (wordLane (t.mm d) k).toInt = max (wordLane (s.mm d) k).toInt (wordLane v k).toInt) ∧
      (∃ t, exec (.pminsw p d src) s = .next t ∧
        ∀ k < 4, (wordLane (t.mm d) k).toInt = min (wordLane (s.mm d) k).toInt (wordLane v k).toInt)

/-- PMULHUW completes with the upper 16 bits of each exact unsigned product (R108). -/
def Obligations.PmulhuwKeepsTheHighHalf : Prop :=
  ∀ (p : Pfx) (d : MmReg) (src : RM MmReg) (s : State) (v : Quad),
    MmxReady s → quadSource s p src = .ok v →
      ∃ t, exec (.pmulhuw p d src) s = .next t ∧
        ∀ k < 4, (wordLane (t.mm d) k).toNat =
          (wordLane (s.mm d) k).toNat * (wordLane v k).toNat / 2 ^ 16

/-- PSADBW completes with the sum of the absolute differences of the unsigned bytes, the rest of the
destination zero (R118; that the bytes are unsigned is the spec's decision D19). -/
def Obligations.PsadbwSumsAbsoluteDifferences : Prop :=
  ∀ (p : Pfx) (d : MmReg) (src : RM MmReg) (s : State) (v : Quad),
    MmxReady s → quadSource s p src = .ok v →
      ∃ t, exec (.psadbw p d src) s = .next t ∧
        (t.mm d).toNat = ((List.range 8).map fun k =>
          (((byteLane (s.mm d) k).toNat : Int) - (byteLane v k).toNat).natAbs).sum ∧
        (t.mm d).toNat ≤ 2040

/-- PSHUFW completes; word `k` of the destination is the word of the source that bits `2k+1:2k` of the
immediate name, also when the source is the destination (R119). -/
def Obligations.PshufwSelectsWords : Prop :=
  ∀ (p : Pfx) (d : MmReg) (src : RM MmReg) (imm : Byte) (s : State) (v : Quad),
    MmxReady s → quadSource s p src = .ok v →
      ∃ t, exec (.pshufw p d src imm) s = .next t ∧
        ∀ k < 4, wordLane (t.mm d) k = wordLane v (imm.toNat / 4 ^ k % 4)

/-- PEXTRW completes with the word that `imm8[1:0]` names, zero-extended; PMOVMSKB with the top bits of the
eight bytes, zero-extended (R101, R107). -/
def Obligations.ExtractsZeroExtend : Prop :=
  ∀ (p : Pfx) (d : IntReg) (r : MmReg) (imm : Byte) (s : State), MmxReady s →
    (∃ t, exec (.pextrw p d r imm) s = .next t ∧
      (t.x d).toNat = (s.mm r).toNat / 2 ^ (16 * (imm.toNat % 4)) % 2 ^ 16) ∧
    (∃ t, exec (.pmovmskb p d r) s = .next t ∧
      ∀ k < 32, (t.x d).getLsbD k = (decide (k < 8) && (s.mm r).getLsbD (8 * k + 7)))

/-- PINSRW completes with one word of the destination replaced, from the low word of an integer register or from
two bytes of memory, and the other three kept (R102). -/
def Obligations.PinsrwReplacesOneWord : Prop :=
  ∀ (p : Pfx) (d : MmReg) (src : RM IntReg) (imm : Byte) (s : State) (w : Word16),
    MmxReady s → wordSource s p src = .ok w →
      (∃ t, exec (.pinsrw p d src imm) s = .next t ∧
        ∀ k < 4, wordLane (t.mm d) k = if k = imm.toNat % 4 then w else wordLane (s.mm d) k) ∧
      (∀ r, src = .reg r → w.toNat = (s.x r).toNat % 2 ^ 16)

/-! ## 3DNow! extensions (40_3dnow_ext.md) -/

/-- PSWAPD completes with the doublewords of the source exchanged, also when the source is the destination
(R88, R90). -/
def Obligations.PswapdExchangesDoublewords : Prop :=
  ∀ (p : Pfx) (d : MmReg) (src : RM MmReg) (s : State) (v : Quad),
    MmxReady s → quadSource s p src = .ok v →
      ∃ t, exec (.pswapd p d src) s = .next t ∧
        dwordLane (t.mm d) 1 = dwordLane v 0 ∧ dwordLane (t.mm d) 0 = dwordLane v 1

/-- PI2FW completes with the single-precision numbers that the signed words 0 and 2 of the source are, exactly,
and `+0` for 0 (R86, R87). -/
def Obligations.Pi2fwConvertsExactly : Prop :=
  ∀ (p : Pfx) (d : MmReg) (src : RM MmReg) (s : State) (v : Quad),
    MmxReady s → quadSource s p src = .ok v →
      ∃ t, exec (.pi2fw p d src) s = .next t ∧
        ∀ k < 2, f32Exp (dwordLane (t.mm d) k) ≠ 255 ∧
          f32Scaled (dwordLane (t.mm d) k) = (wordLane v (2 * k)).toInt * f32Unit ∧
          ((wordLane v (2 * k)).toInt = 0 → dwordLane (t.mm d) k = 0)

/-- PF2IW completes; a lane that is a number gives its integer part, held to -32768..32767 and sign-extended
(R82, R83). On an infinity the result is the implementation's function of the lane and on a NaN a fresh draw:
the model's free values (log 9). -/
def Obligations.Pf2iwTruncatesAndSaturates : Prop :=
  ∀ (p : Pfx) (d : MmReg) (src : RM MmReg) (s : State) (v : Quad),
    MmxReady s → quadSource s p src = .ok v →
      ∃ t, exec (.pf2iw p d src) s = .next t ∧ t.draws = s.draws + 2 ∧
        ∀ k < 2,
          (f32Exp (dwordLane v k) ≠ 255 → (dwordLane (t.mm d) k).toInt =
            max (-32768) (min 32767 ((f32Scaled (dwordLane v k)).tdiv f32Unit))) ∧
          (f32Class (dwordLane v k) = .infinity →
            dwordLane (t.mm d) k = Config.f2iwInfinity (dwordLane v k)) ∧
          (f32Class (dwordLane v k) = .nan → dwordLane (t.mm d) k = Config.f2iwNaN (s.draws + k))

/-- PFNACC and PFPNACC complete: the low doubleword is the difference of the old destination's doublewords, the
high one the difference, or the sum, of the source's (R84, R85, R90). -/
def Obligations.AccumulatesWithinEachOperand : Prop :=
  ∀ (p : Pfx) (d : MmReg) (src : RM MmReg) (s : State) (v : Quad),
    MmxReady s → quadSource s p src = .ok v →
      (∃ t, exec (.pfnacc p d src) s = .next t ∧
        dwordLane (t.mm d) 0 = fsub32 (dwordLane (s.mm d) 0) (dwordLane (s.mm d) 1) ∧
        dwordLane (t.mm d) 1 = fsub32 (dwordLane v 0) (dwordLane v 1)) ∧
      (∃ t, exec (.pfpnacc p d src) s = .next t ∧
        dwordLane (t.mm d) 0 = fsub32 (dwordLane (s.mm d) 0) (dwordLane (s.mm d) 1) ∧
        dwordLane (t.mm d) 1 = fadd32 (dwordLane v 0) (dwordLane v 1))

/-- `fadd32` and `fsub32` have property P-EXACT (R80). -/
def Obligations.AddAndSubtractAreExactWherePossible : Prop :=
  PExact fadd32 (fun a b => f32Scaled a + f32Scaled b) ∧
    PExact fsub32 (fun a b => f32Scaled a - f32Scaled b)

/-- PI2FW's lane conversion is undone by PF2IW's: `F2IW(I2FW(w)) = sext_32(w)` (R87). -/
def Obligations.IntegerToFloatAndBackSignExtends : Prop :=
  ∀ (n : Nat) (w : Word16), f2iw n (i2fw w) = w.signExtend 32

/-! ## Stores (41_streaming_stores.md) -/

/-- MOVNTQ completes when its checks hold and no byte of its operand belongs to a device or to the program text.
Its eight bytes enter `pending` with the agent's epoch, in ascending order, those of an operand at a multiple of 8
marked as one access with their places 0 to 7 (R40, R46; the mark is the model's own, log 10); the agent sees them at
once, memory itself is as before, and every other address shows the agent what it did (R94; 20_memory.md R31, R46,
R47). -/
def Obligations.MovntqStoresEightBytes : Prop :=
  ∀ (p : Pfx) (dst : MemRef) (r : MmReg) (s : State) (ps : List Nat), MmxReady s →
    accessCheck s.cpu (operandSeg p dst) (effectiveAddress s.cpu dst) 8 .write = .ok ps →
    (∀ q ∈ ps, s.inDevice q = false ∧ s.inText q = false) →
      ∃ t rs, exec (.movntq p dst r) s = .next t ∧ t.mem = s.mem ∧
        t.cpu.pending = s.cpu.pending ++ rs ∧ (∀ x ∈ rs, x.epoch = s.cpu.epoch) ∧
        rs.map (fun x => (x.addr, x.byte)) = ps.zip ((List.range 8).map (byteLane (s.mm r))) ∧
        rs.map (·.quad) = (if (s.cpu.linear (operandSeg p dst) (effectiveAddress s.cpu dst) 0).toNat % 8 = 0
          then (List.finRange 8).map some else List.replicate 8 none) ∧
        (∀ k < 8, ∃ q, ps[k]? = some q ∧ t.sees q = byteLane (s.mm r) k) ∧
        (∀ q, q ∉ ps → t.sees q = s.sees q)

/-- MASKMOVQ completes when its checks hold, no byte of its destination belongs to the program text and no selected one
to a device. It appends one record for each byte whose mask byte has its top bit 1, in ascending order, with the
agent's epoch, and never as one access; every other address shows the agent what it did (R92; 20_memory.md R38, R40,
R46). That a byte of a device that is not selected does not stop it is the model's choice (log 24). -/
def Obligations.MaskmovqStoresSelectedBytes : Prop :=
  ∀ (p : Pfx) (d m : MmReg) (s : State) (ps : List Nat), MmxReady s →
    accessCheck s.cpu (maskmovSeg p) (maskmovOffset s.cpu p) 8 .write = .ok ps →
    (∀ q ∈ ps, s.inText q = false) →
    (∀ k < 8, ∀ q, ps[k]? = some q → (s.mm m).getLsbD (8 * k + 7) = true → s.inDevice q = false) →
      ∃ t rs, exec (.maskmovq p d m) s = .next t ∧ t.mem = s.mem ∧
        t.cpu.pending = s.cpu.pending ++ rs ∧ (∀ x ∈ rs, x.epoch = s.cpu.epoch ∧ x.quad = none) ∧
        rs.map (fun x => (x.addr, x.byte)) = ((List.range 8).filter fun k => (s.mm m).getLsbD (8 * k + 7)).map
          (fun k => (ps.getD k 0, byteLane (s.mm d) k)) ∧
        (∀ k < 8, ∃ q, ps[k]? = some q ∧
          t.sees q = if (s.mm m).getLsbD (8 * k + 7) then byteLane (s.mm d) k else s.sees q) ∧
        (∀ q, q ∉ ps → t.sees q = s.sees q)

/-- MASKMOVQ with an all-zero mask stores nothing. Where the checks of its window hold, no byte of it being program
text, it completes; where one fails it raises that exception if `maskmov_zero_mask_faults` is true, and completes if it
is false (R93). Where the checks hold and the window overlaps the program text it is refused if the parameter is true
(70_reset_and_hazards.md R156), and completes if it is false. That R93 goes before R156 when the parameter is false,
and that a device in the window does not stop an all-zero mask, is the model's choice (log 24). -/
def Obligations.MaskmovqWithZeroMask : Prop :=
  ∀ (p : Pfx) (d m : MmReg) (s : State), MmxReady s →
    (∀ k < 8, (s.mm m).getLsbD (8 * k + 7) = false) →
      let unchanged := fun t : State => t.mem = s.mem ∧ t.cpu.pending = s.cpu.pending
      (∀ ps, accessCheck s.cpu (maskmovSeg p) (maskmovOffset s.cpu p) 8 .write = .ok ps →
        if Config.maskmovZeroMaskFaults = true ∧ ∃ q ∈ ps, s.inText q = true then
          ∃ q ∈ ps, s.inText q = true ∧ exec (.maskmovq p d m) s = .refused (.storeToText q)
        else ∃ t, exec (.maskmovq p d m) s = .next t ∧ unchanged t) ∧
      (∀ x, accessCheck s.cpu (maskmovSeg p) (maskmovOffset s.cpu p) 8 .write = .error x →
        if Config.maskmovZeroMaskFaults then exec (.maskmovq p d m) s = .fault (faultOf x s.cpu.pc)
        else ∃ t, exec (.maskmovq p d m) s = .next t ∧ unchanged t)

/-- A readable or writable operand with a byte in a device is refused (20_memory.md R44): MOVNTQ by any of its bytes,
MASKMOVQ by a selected one; that MASKMOVQ's other bytes do not count for a device is the model's choice (log 24). A
store whose destination of eight bytes overlaps the program text is refused (R50, 70_reset_and_hazards.md R156), by
MASKMOVQ's unselected bytes too, but for an all-zero mask where `maskmov_zero_mask_faults` is false (R93; the model's
choice, log 24). That a store that touches both is refused for the device is the model's choice (log 16). -/
def Obligations.DevicesAndProgramTextAreRefused : Prop :=
  ∀ (i : Instr) (s : State) (o : Operand) (ps : List Nat), MmxReady s →
    memoryOperand s i = some o → accessCheck s.cpu o.seg o.off o.size o.kind = .ok ps →
      let touched := if o.kind = .read then ps else storedAddresses s i
      ((∃ q ∈ touched, s.inDevice q = true) →
        ∃ q ∈ touched, s.inDevice q = true ∧ exec i s = .refused (.deviceAccess q)) ∧
      (o.kind = .write → checkCounts s i = true → (∀ q ∈ touched, s.inDevice q = false) →
        (∃ q ∈ ps, s.inText q = true) → ∃ q ∈ ps, s.inText q = true ∧ exec i s = .refused (.storeToText q))

/-! ## Prefetch and fence (43_prefetch.md, 45_sfence.md) -/

/-- R113, R115: the four prefetches complete in every state, whatever CR0, `fp_pending` and the address are, and
change nothing but `pc` (and the model's own operand bytes read early, which belong to one instruction, log 10). -/
def Obligations.PrefetchesOnlyAdvance : Prop :=
  ∀ (p : Pfx) (m : MemRef) (s : State),
    ∀ i ∈ [Instr.prefetchnta p m, .prefetcht0 p m, .prefetcht1 p m, .prefetcht2 p m],
      exec i s = .next { s with cpu := { s.cpu with
        pc := s.cpu.pc + BitVec.ofNat 32 (encode i).length, early := [] } }

/-- R122: SFENCE raises nothing in any mode, at any CPL and for any CR0, and is never refused; it starts a new
epoch and advances `pc` (R121), and changes nothing else but the model's own list of operand bytes read early, which
belong to one instruction (log 10). That `pc` passes its prefix bytes too, where it has some, is log 19; R121 writes
`pc + 3`. -/
def Obligations.SfenceAlwaysCompletes : Prop :=
  ∀ (p : Pfx) (s : State),
    exec (.sfence p) s = .next { s with cpu := { s.cpu with
      epoch := s.cpu.epoch + 1, pc := s.cpu.pc + BitVec.ofNat 32 (encode (.sfence p)).length, early := [] } }

/-! ## Memory ordering (20_memory.md R46, R47) -/

/-- A step that takes a byte of epoch `e` out of an agent's pending bytes leaves no byte of an older epoch there, and
the bytes that a step adds have the epoch the agent had, which never falls: what was stored before an SFENCE is
globally visible before what was stored after it (R46 condition (i), 45_sfence.md R121). -/
def Obligations.FenceOrdersDrains : Prop :=
  ∀ (s t : State) (who : Nat) (a : Agent), s.Inv → step s = .next t → s.agent who = some a →
    ∃ a', t.agent (s.placeAfter who) = some a' ∧ a.epoch ≤ a'.epoch ∧
      (∀ e, pendingOfEpoch a' e < pendingOfEpoch a e → ∀ r ∈ a'.pending, e ≤ r.epoch) ∧
      ∃ kept added, a'.pending = kept ++ added ∧ kept.Sublist a.pending ∧ ∀ r ∈ added, r.epoch = a.epoch

/-- Drain steps alone, in any number and order: if a byte of epoch `e` of an agent has drained then no byte of an
older epoch of that agent is left (R46 condition (i)). -/
def Obligations.DrainListsRespectEpochs : Prop :=
  ∀ (s : State) (ds : List (Nat × Nat)) (who : Nat) (a a' : Agent) (e : Nat),
    s.agent who = some a → (drainAll s ds).agent who = some a' →
    pendingOfEpoch a' e < pendingOfEpoch a e → ∀ r ∈ a'.pending, e ≤ r.epoch

/-- R46: the drain step of a record that has no record of an older epoch beside it, and none for the same address
before it, writes its byte to memory and takes it out of `pending`, and changes nothing else of memory or of the
agents. R46 lets no other record be chosen; that a drain step which names one all the same changes nothing is the
model's choice (log 3). Of the records of an aligned store with `atomic64`, AtomicAlignedAccesses speaks. -/
def Obligations.EnabledDrainWritesItsByte : Prop :=
  ∀ (s : State) (who i : Nat) (a : Agent) (r : Record), s.mem.wf = true →
    s.agent who = some a → a.pending[i]? = some r → (r.quad = none ∨ Config.atomic64 = false) →
      let enabled := (∀ q ∈ a.pending, r.epoch ≤ q.epoch) ∧
        ∀ j < i, ∀ q, a.pending[j]? = some q → q.addr ≠ r.addr
      let t := s.drain who i
      (enabled → t.mem.read r.addr = r.byte ∧ (∀ p, p ≠ r.addr → t.mem.read p = s.mem.read p) ∧
        t.agent who = some { a with pending := a.pending.eraseIdx i } ∧
        ∀ v, v ≠ who → t.agent v = s.agent v) ∧
      (¬ enabled → t = s)

/-- A drain step changes nothing that the draining agent itself sees (R46 condition (ii), R47). -/
def Obligations.DrainsAreInvisibleToTheirAgent : Prop :=
  ∀ (s : State) (who i : Nat) (a a' : Agent), s.mem.wf = true →
    s.agent who = some a → (s.drain who i).agent who = some a' →
      ∀ p, a'.sees (s.drain who i).mem p = a.sees s.mem p

/-! ## Exceptions (60_exceptions.md) -/

/-- R127: InvalidOpcode is raised by exactly the instructions other than the prefetches and SFENCE, exactly when
CR0.EM is 1, in all modes, before any other check. -/
def Obligations.InvalidOpcodeExactlyWhenEmIsSet : Prop :=
  ∀ (i : Instr) (s : State) (q : Dword),
    exec i s = .fault (.invalidOpcode q) ↔
      runsNoCheck i = false ∧ s.cpu.em = true ∧ q = s.cpu.pc

/-- R128: DeviceNotAvailable is raised by the same instructions, exactly when CR0.EM is 0 and CR0.TS is 1, in all
modes. -/
def Obligations.DeviceNotAvailableExactlyWhenTsIsSet : Prop :=
  ∀ (i : Instr) (s : State) (q : Dword),
    exec i s = .fault (.deviceNotAvailable q) ↔
      runsNoCheck i = false ∧ s.cpu.em = false ∧ s.cpu.ts = true ∧ q = s.cpu.pc

/-- R129: FpPending is raised by the same instructions, exactly when CR0.EM and CR0.TS are 0 and `fp_pending` is 1,
in all modes; no step makes `fp_pending` of an agent 1, so from agents without it, whose runs have not ended with it
(log 35), a step never raises it. -/
def Obligations.FpPendingExactlyWhenPending : Prop :=
  (∀ (i : Instr) (s : State) (q : Dword),
    exec i s = .fault (.fpPending q) ↔
      runsNoCheck i = false ∧ s.cpu.em = false ∧ s.cpu.ts = false ∧ s.cpu.fpPending = true ∧
        q = s.cpu.pc) ∧
  (∀ s : State,
    let without := fun a : Agent => a.fpPending = false ∧ ∀ q, a.ended ≠ some (.raised (.fpPending q))
    (∀ a ∈ s.agents, without a) →
      (∀ q, step s ≠ .fault (.fpPending q)) ∧ ∀ t, step s = .next t → ∀ a ∈ t.agents, without a)

/-- A failed check of the operand is raised, with `pc` at the instruction, by every instruction that accesses
memory; MASKMOVQ's as R93 says (R130, R133; 20_memory.md R39). -/
def Obligations.FailedAccessCheckIsRaised : Prop :=
  ∀ (i : Instr) (s : State) (o : Operand) (x : Exn), MmxReady s → memoryOperand s i = some o →
    checkCounts s i = true → accessCheck s.cpu o.seg o.off o.size o.kind = .error x →
      exec i s = .fault (faultOf x s.cpu.pc)

/-- In real-address and virtual-8086 mode the checks answer SegmentOverrun exactly when a byte of the operand lies
at an offset above 0FFFFh (20_memory.md R35). -/
def Obligations.SegmentOverrunExactlyOutsideTheRange : Prop :=
  ∀ (a : Agent) (seg : Seg) (off : Dword) (n : Nat) (kind : Access), a.mode ≠ .protectedMode → 0 < n →
    (accessCheck a seg off n kind = .error .segmentOverrun ↔ 0xFFFF < off.toNat + n - 1)

/-- In protected mode the checks answer StackException exactly for an operand through SS that passes its limit, and
GeneralProtection exactly for one through another segment that passes its limit, or whose selector is null, or whose
rights forbid the access: a read of one that is not readable, a write of one that is not writable (20_memory.md R36).
That a selector below 4 is the null one, and that the rights are these two bits, is the model's choice (log 13). -/
def Obligations.ProtectedModeSegmentChecks : Prop :=
  ∀ (a : Agent) (seg : Seg) (off : Dword) (n : Nat) (kind : Access), a.mode = .protectedMode → 0 < n →
    (accessCheck a seg off n kind = .error .stackException ↔
      seg = .ss ∧ a.segs.ss.limit.toNat < off.toNat + n - 1) ∧
    (accessCheck a seg off n kind = .error .generalProtection ↔
      seg ≠ .ss ∧ ((a.segs.get seg).limit.toNat < off.toNat + n - 1 ∨
        (a.segs.get seg).selector.toNat < 4 ∨ (kind = .read ∧ (a.segs.get seg).readable = false) ∨
        (kind = .write ∧ (a.segs.get seg).writable = false)))

/-- The base of an operand's segment is the descriptor's in protected mode and 16 times the selector in the other two,
of CS too. Where the segment and page checks hold there is one physical address a byte: the linear address
`(base + off + k) mod 2^32` itself in real-address mode and with paging off, and otherwise the place of the same offset
in the physical page of a listed page that admits the access. The checks hold where the segment check does and each
byte's page is listed once with rights that admit the access (20_memory.md R34, R41, R42; the page list is the model's
choice, log 14). -/
def Obligations.TranslationIsPageByPage : Prop :=
  ∀ (a : Agent) (seg : Seg) (off : Dword) (n : Nat) (kind : Access),
    let lin := fun k : Nat => ((a.segBase seg).toNat + off.toNat + k) % 2 ^ 32
    (a.mode = .protectedMode → a.segBase seg = (a.segs.get seg).base) ∧
    (a.mode ≠ .protectedMode → (a.segBase seg).toNat = 16 * (a.segs.get seg).selector.toNat) ∧
    (∀ ps, Sys2Proof.Machine.translate a seg off n kind = .ok ps →
      ps.length = n ∧ ∀ k < n, ∃ q, ps[k]? = some q ∧ a.MapsTo kind (lin k) q) ∧
    (segCheck a seg off n kind = .ok () → (∀ k < n, a.Admits kind (lin k)) →
      ∃ ps, Sys2Proof.Machine.translate a seg off n kind = .ok ps)

/-- Once the segment check holds, PageFault is answered exactly when some byte of the operand has no physical address,
with the linear address of the first such byte (20_memory.md R39, R42; that the first one is reported is the model's
choice, log 14). -/
def Obligations.PageFaultExactlyAtTheFirstUnmappedByte : Prop :=
  ∀ (a : Agent) (seg : Seg) (off : Dword) (n : Nat) (kind : Access) (lin : Dword),
    segCheck a seg off n kind = .ok () →
      (accessCheck a seg off n kind = .error (.pageFault lin) ↔
        ∃ k < n, lin = a.linear seg off k ∧ a.physical kind lin = none ∧
          ∀ j < k, a.physical kind (a.linear seg off j) ≠ none)

/-- An agent of the flat profile: protected mode, paging off, every segment with base 0 and limit `2^32 - 1`, readable
and writable. An operand translates to its offsets where it ends below `2^32`, and otherwise the answer is
StackException through SS and GeneralProtection through another segment (20_memory.md R41). The premise that no selector
is null, 4 or above, is the model's choice (logs 13 and 34). -/
def Obligations.FlatProfileTranslatesToOffsets : Prop :=
  ∀ (a : Agent) (seg : Seg) (off : Dword) (n : Nat) (kind : Access), 0 < n →
    a.mode = .protectedMode → a.paging = none →
    (∀ g, let r := a.segs.get g
      r.base = 0 ∧ r.limit = 0xFFFFFFFF ∧ r.readable = true ∧ r.writable = true ∧ 4 ≤ r.selector.toNat) →
    Sys2Proof.Machine.translate a seg off n kind =
      if off.toNat + n - 1 < 2 ^ 32 then .ok ((List.range n).map (off.toNat + ·))
      else .error (if seg = .ss then .stackException else .generalProtection)

/-- Once segment and page checks hold, AlignmentCheck is answered exactly in protected or virtual-8086 mode, with
CR0.AM = 1, CPL = 3 and AC = 1, for a linear address that is no multiple of the operand's size (20_memory.md R37). -/
def Obligations.AlignmentCheckExactlyWhenEnabled : Prop :=
  ∀ (a : Agent) (seg : Seg) (off : Dword) (n : Nat) (kind : Access) (ps : List Nat),
    Sys2Proof.Machine.translate a seg off n kind = .ok ps →
      (accessCheck a seg off n kind = .error .alignmentCheck ↔
        a.mode ≠ .realAddress ∧ a.cr0.getLsbD 18 = true ∧ a.cpl = 3 ∧ a.eflagsAc = true ∧
          ¬ n ∣ (a.linear seg off 0).toNat) ∧
      (accessCheck a seg off n kind ≠ .error .alignmentCheck → accessCheck a seg off n kind = .ok ps)

/-- Which exceptions a mode knows: every fault is one of its mode's, with `pc` at the instruction (R126, R133). -/
def Obligations.FaultsOfEachMode : Prop :=
  ∀ (i : Instr) (s : State) (f : Fault), exec i s = .fault f →
    let pc := s.cpu.pc
    (s.cpu.mode = .realAddress →
      f ∈ [.invalidOpcode pc, .deviceNotAvailable pc, .segmentOverrun pc, .fpPending pc]) ∧
    (s.cpu.mode = .virtual8086 →
      f ∈ [.invalidOpcode pc, .deviceNotAvailable pc, .segmentOverrun pc, .fpPending pc, .alignmentCheck pc] ∨
        ∃ lin, f = .pageFault lin pc) ∧
    (s.cpu.mode = .protectedMode →
      f ∈ [.invalidOpcode pc, .deviceNotAvailable pc, .stackException pc, .generalProtection pc, .fpPending pc,
        .alignmentCheck pc] ∨ ∃ lin, f = .pageFault lin pc)

/-- An instruction with no memory operand raises nothing but the three exceptions of MMXChecks and is never refused
(R110, R130, R132). -/
def Obligations.RegisterFormsRaiseNoMemoryException : Prop :=
  ∀ (i : Instr) (s : State), memoryOperand s i = none →
    (∀ f, exec i s = .fault f →
      f ∈ [.invalidOpcode s.cpu.pc, .deviceNotAvailable s.cpu.pc, .fpPending s.cpu.pc]) ∧
    ∀ r, exec i s ≠ .refused r

/-- Each instruction executes identically at every CPL, where its memory operand, if it has one, is one of which
neither the alignment check nor the page check depends on it: the alignment check is off, or the operand is aligned;
paging is off, or its pages give CPL 3 the same rights as the other levels (R142). That only these two checks read CPL
is the model's choice (logs 13 and 14). In protected mode the CS selector changes with CPL (10_state.md R22, log 27). -/
def Obligations.ExecutesAlikeAtEveryCpl : Prop :=
  ∀ (i : Instr) (s : State) (c : BitVec 2),
    (∀ o, memoryOperand s i = some o →
      (s.cpu.eflagsAc = false ∨ s.cpu.cr0.getLsbD 18 = false ∨ s.cpu.mode = .realAddress ∨
        o.size ∣ (s.cpu.linear o.seg o.off 0).toNat) ∧
      (s.cpu.mode = .realAddress ∨ ∀ entries, s.cpu.paging = some entries → ∀ e ∈ entries,
        e.userRead = e.supervisorRead ∧ e.userWrite = e.supervisorWrite)) →
      exec i (s.atCpl c) = outcomeAtCpl (exec i s) c

/-! ## Frames (10_state.md R16, R18, R19, R21) -/

/-- An instruction that completes changes no MMX register but its destination, no integer register but PEXTRW's and
PMOVMSKB's, and moves `pc` past itself (R16, R18). -/
def Obligations.FrameOfRegisters : Prop :=
  ∀ (i : Instr) (s t : State), exec i s = .next t →
    (∀ r, destMm i ≠ some r → t.mm r = s.mm r) ∧
    (∀ r, destInt i ≠ some r → t.x r = s.x r) ∧
    t.cpu.pc = s.cpu.pc + BitVec.ofNat 32 (encode i).length

/-- An instruction that completes changes no control state, no other agent, nothing of the launch state, does not end
the agent's run, and of the model's own counter changes only what PF2IW draws (R19, R21 to R26). It empties the list
of operand bytes read early, the model's own (log 10), so that the next instruction takes none of them (20_memory.md
R48). -/
def Obligations.FrameOfControlState : Prop :=
  ∀ (i : Instr) (s t : State), exec i s = .next t →
    t.cpu.cr0 = s.cpu.cr0 ∧ t.cpu.cpl = s.cpu.cpl ∧ t.cpu.mode = s.cpu.mode ∧
    t.cpu.fpPending = s.cpu.fpPending ∧ t.cpu.eflagsAc = s.cpu.eflagsAc ∧ t.cpu.segs = s.cpu.segs ∧
    t.cpu.paging = s.cpu.paging ∧ t.cpu.endAt = s.cpu.endAt ∧ t.cpu.ended = s.cpu.ended ∧ t.cpu.early = [] ∧
    t.others = s.others ∧ t.text = s.text ∧ t.devices = s.devices ∧ t.schedule = s.schedule ∧
    ((∀ p d src, i ≠ .pf2iw p d src) → t.draws = s.draws)

/-- An instruction that completes leaves memory as it is, shows its agent every byte outside its stored addresses as
before, makes no pending byte unless it is a store, and starts an epoch only if it is SFENCE; an instruction that is
no store has no stored address (R16; 20_memory.md R46). -/
def Obligations.FrameOfMemory : Prop :=
  ∀ (i : Instr) (s t : State), exec i s = .next t →
    t.mem = s.mem ∧
    (∀ q, q ∉ storedAddresses s i → t.sees q = s.sees q) ∧
    (storedAddresses s i = [] → t.cpu.pending = s.cpu.pending) ∧
    ((∀ p, i ≠ .sfence p) → t.cpu.epoch = s.cpu.epoch) ∧
    ((∀ p dst r, i ≠ .movntq p dst r) → (∀ p d m, i ≠ .maskmovq p d m) → storedAddresses s i = [])

/-- The x87 state: the prefetches and SFENCE leave it, every other instruction that completes sets top-of-stack to 0
and all tags valid, and fills bits 79:64 over a written MMX register with ones, those of the others kept (R27, which
the spec takes from general knowledge and leaves out by its decision D20; holding it is the model's choice, log 18). -/
def Obligations.FrameOfX87State : Prop :=
  ∀ (i : Instr) (s t : State), exec i s = .next t →
    (runsNoCheck i = true → t.cpu.x87 = s.cpu.x87) ∧
    (runsNoCheck i = false →
      t.cpu.x87.top = 0 ∧ t.cpu.x87.tags = 0 ∧
      ∀ r, t.cpu.x87.high.get r =
        if destMm i = some r then BitVec.allOnes 16 else s.cpu.x87.high.get r)

/-! ## Invariants -/

/-- The invariant holds after reset, whose values are the model's choice, since the source states none
(70_reset_and_hazards.md R148; logs 1 to 5). -/
def Obligations.InvariantHoldsAtReset : Prop := State.reset.Inv

/-- Every step, of an instruction, of the memory system or of another agent, keeps the invariant: memory stays
canonical, CPL stays legal for the mode and in protected mode the low two bits of the CS selector (10_state.md R22;
that the selector holds it in that mode only is the model's reading, log 27), pending bytes stay in program order and
none belongs to a device or to the program text (20_memory.md R44, R46, R50). -/
def Obligations.StepKeepsInvariant : Prop :=
  ∀ s t : State, s.Inv → step s = .next t → t.Inv

/-- No step changes a byte of the program text, or which bytes those are (20_memory.md R50, 70_reset_and_hazards.md
R156). -/
def Obligations.ProgramTextNeverChanges : Prop :=
  ∀ s t : State, s.Inv → step s = .next t →
    t.text = s.text ∧ ∀ q, s.inText q = true → t.mem.read q = s.mem.read q

/-- Every run ends, and ends complete: from a state that meets the invariant some number of steps leads to one whose
step answers no next state, and such a state has nothing pending and no other agent that has not ended, so every byte
stored has reached memory (R158; 20_memory.md R46: every run is weakly fair to the drain step). An agent's run is finite
because each instruction moves `pc` up to the last offset at most (10_state.md R18). The model's choices are that a
schedule is finite (log 3), that with nothing scheduled and the running agent ended the oldest records drain and then
the agents that have not ended take their turn, and that a step shows an ending only when it completes the run of the
machine (log 35). -/
def Obligations.EveryRunEndsComplete : Prop :=
  (∀ s : State, (∀ t, step s ≠ .next t) → s.OnlyRunningLeft) ∧
  ∀ s : State, s.Inv → ∃ n t, s.after n = some t ∧ ∀ u, step t ≠ .next u

/-- After reset every register, `pc`, the mode, CPL, translation and the shared state hold one named value. The source
states none of them (70_reset_and_hazards.md R148), so all are the model's choice: those of an agent are the family's,
as 10_state.md R30 and R149 print them from general knowledge (log 2), which do not print the number in EDX, the x87
top and tags, the segment rights and the D bit; no read is in progress (log 10), no end is designated and the run
has not ended (logs 5 and 35); memory reads 00h everywhere (log 1), nothing is scheduled (log 3), there is one agent
(log 4), and no program text and no device (log 5); the counter `draws` is left out (log 9). The first byte is fetched at physical FFFFFFF0h. -/
def Obligations.ResetHasTheFamilysValues : Prop :=
  let a := State.reset.cpu
  (∀ r, State.reset.mm r = 0) ∧ (∀ r, r ≠ .edx → State.reset.x r = 0) ∧
    State.reset.x .edx = 0x00000612 ∧ a.pc = 0x0000FFF0 ∧ a.cr0 = 0x60000010 ∧ a.em = false ∧ a.ts = false ∧ a.am = false ∧ a.cpl = 0 ∧
    a.mode = .realAddress ∧ a.fpPending = false ∧ a.eflagsAc = false ∧ a.segs.cs.base = 0xFFFF0000 ∧
    a.segs.cs.selector = 0xF000 ∧
    (∀ g, (a.segs.get g).limit = 0xFFFF ∧ (g ≠ .cs → (a.segs.get g).base = 0 ∧ (a.segs.get g).selector = 0)) ∧
    (∀ g, (a.segs.get g).readable = true ∧ (a.segs.get g).writable = true ∧ (a.segs.get g).big = false) ∧
    a.paging = none ∧ a.x87.top = 0 ∧ a.x87.tags = 0x5555 ∧ (∀ r, a.x87.high.get r = 0) ∧
    a.pending = [] ∧ a.epoch = 0 ∧ a.early = [] ∧ a.endAt = none ∧ a.ended = none ∧
    State.reset.others = [] ∧ (∀ p, State.reset.mem.read p = 0) ∧ State.reset.text = [] ∧
    State.reset.devices = [] ∧ State.reset.schedule = [] ∧
    State.reset.codeAddress 0 = .ok 0xFFFFFFF0
end

