-- ==== Sys2Proof/Laws/Decode.lean ====
section
/-! SUPPORT. Fields and bytes: what is put together is taken apart again; how many bytes the decoder reads. -/

namespace Sys2Proof

@[simp] theorem mmRegOfBits_mmRegBits (r : MmReg) : mmRegOfBits (mmRegBits r) = r := by cases r <;> rfl
@[simp] theorem intRegOfBits_intRegBits (r : IntReg) : intRegOfBits (intRegBits r) = r := by cases r <;> rfl
@[simp] theorem base16OfBits_base16Bits (b : Base16) : base16OfBits (base16Bits b) = b := by cases b <;> rfl

@[simp] theorem mmRegBits_mmRegOfBits (b : BitVec 3) : mmRegBits (mmRegOfBits b) = b := by
  revert b; decide
@[simp] theorem intRegBits_intRegOfBits (b : BitVec 3) : intRegBits (intRegOfBits b) = b := by
  revert b; decide
@[simp] theorem base16Bits_base16OfBits (b : BitVec 3) : base16Bits (base16OfBits b) = b := by
  revert b; decide

@[simp] theorem fieldTop_threeFields (t : BitVec 2) (m l : BitVec 3) : fieldTop (threeFields t m l) = t := by
  revert t m l; decide
@[simp] theorem fieldMid_threeFields (t : BitVec 2) (m l : BitVec 3) : fieldMid (threeFields t m l) = m := by
  revert t m l; decide
@[simp] theorem fieldLow_threeFields (t : BitVec 2) (m l : BitVec 3) : fieldLow (threeFields t m l) = l := by
  revert t m l; decide
@[simp] theorem threeFields_fields (b : Byte) : threeFields (fieldTop b) (fieldMid b) (fieldLow b) = b := by
  revert b; decide

@[simp] theorem take1_cons (b : Byte) (r : List Byte) : take1 (b :: r) = .ok (b, r) := rfl

theorem take2_bytes2 (v : Word16) (r : List Byte) : take2 (bytes2 v ++ r) = .ok (v, r) := by
  simp only [bytes2, List.cons_append, List.nil_append, take2]
  congr 2
  ext i hi
  simp
  grind

theorem take4_bytes4 (v : Dword) (r : List Byte) : take4 (bytes4 v ++ r) = .ok (v, r) := by
  simp only [bytes4, List.cons_append, List.nil_append, take4]
  congr 2
  ext i hi
  simp
  grind

/-! ## How many bytes the decoder reads (30_encoding.md R55) -/

/-- A parse of `len` bytes reads at most `n` of them, and runs out of bytes only where there are fewer than `n`. -/
def Reads {α : Type} (n len : Nat) : Except DecodeError (α × List Byte) → Prop
  | .ok (_, r) => len ≤ r.length + n
  | .error e => e = .truncated → len < n

/-- One parse after another. -/
theorem Reads.bind {α β : Type} {m n len : Nat} {x : Except DecodeError (α × List Byte)}
    {f : α × List Byte → Except DecodeError (β × List Byte)} (h : Reads m len x)
    (hf : ∀ v r, Reads n r.length (f (v, r))) : Reads (m + n) len (x >>= f) := by
  match x, h with
  | .ok (v, r), h =>
    have := hf v r
    show Reads (m + n) len (f (v, r))
    simp only [Reads] at h
    cases hx : f (v, r) with
    | ok p => rw [hx] at this; simp only [Reads] at this ⊢; omega
    | error e => rw [hx] at this; simp only [Reads] at this ⊢; intro he; have := this he; omega
  | .error e, h => exact fun he => Nat.lt_of_lt_of_le (h he) (Nat.le_add_right _ _)

/-- A larger bound. -/
theorem Reads.mono {α : Type} {m n len : Nat} {x : Except DecodeError (α × List Byte)} (h : Reads m len x)
    (hmn : m ≤ n) : Reads n len x := by
  match x, h with
  | .ok (v, r), h => simp only [Reads] at h ⊢; omega
  | .error e, h => exact fun he => Nat.lt_of_lt_of_le (h he) hmn

theorem Reads.ok {α : Type} (n : Nat) (v : α) (r : List Byte) : Reads n r.length (.ok (v, r)) :=
  Nat.le_add_right _ _

theorem Reads.other {α : Type} (n len : Nat) (e : DecodeError) (h : e ≠ .truncated) :
    Reads (α := α) n len (.error e) := fun c => absurd c h

theorem reads_take1 (bs : List Byte) : Reads 1 bs.length (take1 bs) := by
  cases bs <;> simp [take1, Reads]

theorem reads_take2 (bs : List Byte) : Reads 2 bs.length (take2 bs) := by
  match bs with
  | [] | [_] => simp [take2, Reads]
  | _ :: _ :: _ => simp [take2, Reads]

theorem reads_take4 (bs : List Byte) : Reads 4 bs.length (take4 bs) := by
  match bs with
  | [] | [_] | [_, _] | [_, _, _] => simp [take4, Reads]
  | _ :: _ :: _ :: _ :: _ => simp [take4, Reads]

theorem reads_parseDisp32 (mod : BitVec 2) (bs : List Byte) : Reads 4 bs.length (parseDisp32 mod bs) := by
  unfold parseDisp32
  split
  · exact .ok ..
  · exact Reads.mono (m := 1 + 0) ((reads_take1 bs).bind (n := 0) fun d r => .ok ..) (by omega)
  · exact (reads_take4 bs).bind (n := 0) fun d r => .ok ..

theorem reads_parseDisp16 (mod : BitVec 2) (bs : List Byte) : Reads 2 bs.length (parseDisp16 mod bs) := by
  unfold parseDisp16
  split
  · exact .ok ..
  · exact Reads.mono (m := 1 + 0) ((reads_take1 bs).bind (n := 0) fun d r => .ok ..) (by omega)
  · exact (reads_take2 bs).bind (n := 0) fun d r => .ok ..

theorem reads_parseMem (size : AddrSize) (mod : BitVec 2) (rm : BitVec 3) (bs : List Byte) :
    Reads 5 bs.length (parseMem size mod rm bs) := by
  unfold parseMem
  split
  · refine Reads.bind (n := 0) ?_ fun m r => .ok ..
    unfold parseMem32
    split
    · refine (reads_take1 bs).bind (n := 4) fun sib r => ?_
      simp only
      split
      · exact (reads_take4 r).bind (n := 0) fun d r => .ok ..
      · exact (reads_parseDisp32 mod r).bind (n := 0) fun d r => .ok ..
    · split
      · exact Reads.mono (m := 4 + 0) ((reads_take4 bs).bind (n := 0) fun d r => .ok ..) (by omega)
      · exact Reads.mono (m := 4 + 0) ((reads_parseDisp32 mod bs).bind (n := 0) fun d r => .ok ..) (by omega)
  · refine Reads.mono (m := 2 + 0) (Reads.bind ?_ fun m r => .ok ..) (by omega)
    unfold parseMem16
    split
    · exact (reads_take2 bs).bind (n := 0) fun d r => .ok ..
    · exact (reads_parseDisp16 mod bs).bind (n := 0) fun d r => .ok ..

theorem reads_parseRM {ρ : Type} (reg : BitVec 3 → ρ) (size : AddrSize) (modrm : Byte) (bs : List Byte) :
    Reads 5 bs.length (parseRM reg size modrm bs) := by
  unfold parseRM
  split
  · exact .ok ..
  · exact (reads_parseMem ..).bind (n := 0) fun m r => .ok ..

theorem reads_parseMemOnly (size : AddrSize) (op2 modrm : Byte) (bs : List Byte) :
    Reads 5 bs.length (parseMemOnly size op2 modrm bs) := by
  unfold parseMemOnly
  split
  · exact .other _ _ _ (by simp)
  · exact reads_parseMem ..

theorem parseRegOnly_ne (op2 modrm : Byte) : parseRegOnly op2 modrm ≠ .error .truncated := by
  unfold parseRegOnly; split <;> simp

theorem reads_decodeOpcode (size : AddrSize) (p : Pfx) (op2 modrm : Byte) (bs : List Byte) :
    Reads 6 bs.length (decodeOpcode size p op2 modrm bs) := by
  have reg : ∀ (f : MmReg → Except DecodeError (Instr × List Byte)), (∀ s, Reads 6 bs.length (f s)) →
      Reads 6 bs.length (parseRegOnly op2 modrm >>= f) := by
    intro f hf
    cases h : parseRegOnly op2 modrm with
    | ok s => exact hf s
    | error e => exact .other _ _ _ (by rintro rfl; exact parseRegOnly_ne _ _ h)
  unfold decodeOpcode
  simp only
  split
  · refine (reads_parseRM ..).bind (n := 1) fun src r => (reads_take1 r).bind (n := 0) fun op3 r => ?_
    simp only
    split
    · exact .ok ..
    · exact .other _ _ _ (by simp)
  · split
    · exact Reads.mono (m := 5 + 0) ((reads_parseMemOnly ..).bind (n := 0) fun m r => .ok ..) (by omega)
    · exact .other _ _ _ (by simp)
  · split
    · exact .ok ..
    · exact .other _ _ _ (by simp)
  · exact (reads_parseRM ..).bind (n := 1) fun src r => (reads_take1 r).bind (n := 0) fun imm r => .ok ..
  · exact (reads_parseRM ..).bind (n := 1) fun src r => (reads_take1 r).bind (n := 0) fun imm r => .ok ..
  · exact reg _ fun s => Reads.mono (m := 1 + 0) ((reads_take1 bs).bind (n := 0) fun imm r => .ok ..) (by omega)
  · exact reg _ fun s => .ok ..
  · exact Reads.mono (m := 5 + 0) ((reads_parseMemOnly ..).bind (n := 0) fun m r => .ok ..) (by omega)
  · exact reg _ fun s => .ok ..
  · split
    · exact Reads.mono (m := 5 + 0) ((reads_parseRM ..).bind (n := 0) fun src r => .ok ..) (by omega)
    · exact .other _ _ _ (by simp)

theorem reads_decodeFrom (dflt : AddrSize) (p : Pfx) (bs : List Byte) :
    Reads (11 - (pfxBytes p).length) bs.length (decodeFrom dflt p bs) := by
  induction bs generalizing p with
  | nil => cases p <;> simp [decodeFrom, Reads, pfxBytes]
  | cons b bs ih =>
    unfold decodeFrom
    have hp : (pfxBytes p).length ≤ 2 := by cases p <;> simp [pfxBytes]
    split
    · split
      · match bs with
        | [] | [_] => simp only [decodeAfterEscape, Reads, List.length_cons, List.length_nil]; omega
        | op2 :: modrm :: r =>
          have h := reads_decodeOpcode (pfxAddrSize dflt p) p op2 modrm r
          simp only [decodeAfterEscape, List.length_cons]
          cases hx : decodeOpcode (pfxAddrSize dflt p) p op2 modrm r with
          | ok x => rw [hx] at h; simp only [Reads] at h ⊢; omega
          | error e => rw [hx] at h; simp only [Reads] at h ⊢; intro he; have := h he; omega
      · exact .other _ _ _ (by simp)
    · split
      · rename_i k _ p' hk
        have hl : (pfxBytes p').length = (pfxBytes p).length + 1 := by
          unfold addPfx at hk
          split at hk <;> cases hk <;> rfl
        have hp' : (pfxBytes p').length ≤ 2 := by cases p' <;> simp [pfxBytes]
        have h := ih p'
        rw [hl] at h
        cases hx : decodeFrom dflt p' bs with
        | ok x => rw [hx] at h; simp only [Reads, List.length_cons] at h ⊢; omega
        | error e => rw [hx] at h; simp only [Reads, List.length_cons] at h ⊢; intro he; have := h he; omega
      · rename_i e hk
        refine .other _ _ _ ?_
        rintro rfl
        unfold addPfx at hk
        split at hk <;> cases hk

/-- The decoder runs out of bytes only where there are fewer than the longest instruction has (R55). -/
theorem decode_truncated (dflt : AddrSize) (bs : List Byte) (h : decode dflt bs = .error .truncated) :
    bs.length < 11 := by
  have := reads_decodeFrom dflt .plain bs
  unfold decode at h
  rw [h] at this
  exact this rfl

end Sys2Proof
end

