-- ==== Sys2Proof/Laws/State.lean ====
section
/-! SUPPORT. One lemma per field per update of the state, so that no proof unfolds a record update. -/

namespace Sys2Proof.Machine

/-! ## setMm -/

@[simp] theorem State.setMm_mm (s : State) (r : MmReg) (v : Quad) : (s.setMm r v).cpu.mm = s.cpu.mm.set r v := rfl
@[simp] theorem State.setMm_x (s : State) (r : MmReg) (v : Quad) : (s.setMm r v).cpu.x = s.cpu.x := rfl
@[simp] theorem State.setMm_pc (s : State) (r : MmReg) (v : Quad) : (s.setMm r v).cpu.pc = s.cpu.pc := rfl
@[simp] theorem State.setMm_cr0 (s : State) (r : MmReg) (v : Quad) : (s.setMm r v).cpu.cr0 = s.cpu.cr0 := rfl
@[simp] theorem State.setMm_cpl (s : State) (r : MmReg) (v : Quad) : (s.setMm r v).cpu.cpl = s.cpu.cpl := rfl
@[simp] theorem State.setMm_mode (s : State) (r : MmReg) (v : Quad) : (s.setMm r v).cpu.mode = s.cpu.mode := rfl
@[simp] theorem State.setMm_fpPending (s : State) (r : MmReg) (v : Quad) : (s.setMm r v).cpu.fpPending = s.cpu.fpPending := rfl
@[simp] theorem State.setMm_eflagsAc (s : State) (r : MmReg) (v : Quad) : (s.setMm r v).cpu.eflagsAc = s.cpu.eflagsAc := rfl
@[simp] theorem State.setMm_segs (s : State) (r : MmReg) (v : Quad) : (s.setMm r v).cpu.segs = s.cpu.segs := rfl
@[simp] theorem State.setMm_paging (s : State) (r : MmReg) (v : Quad) : (s.setMm r v).cpu.paging = s.cpu.paging := rfl
@[simp] theorem State.setMm_pending (s : State) (r : MmReg) (v : Quad) : (s.setMm r v).cpu.pending = s.cpu.pending := rfl
@[simp] theorem State.setMm_epoch (s : State) (r : MmReg) (v : Quad) : (s.setMm r v).cpu.epoch = s.cpu.epoch := rfl
@[simp] theorem State.setMm_early (s : State) (r : MmReg) (v : Quad) : (s.setMm r v).cpu.early = s.cpu.early := rfl
@[simp] theorem State.setMm_ended (s : State) (r : MmReg) (v : Quad) : (s.setMm r v).cpu.ended = s.cpu.ended := rfl
@[simp] theorem State.setMm_endAt (s : State) (r : MmReg) (v : Quad) : (s.setMm r v).cpu.endAt = s.cpu.endAt := rfl
@[simp] theorem State.setMm_others (s : State) (r : MmReg) (v : Quad) : (s.setMm r v).others = s.others := rfl
@[simp] theorem State.setMm_mem (s : State) (r : MmReg) (v : Quad) : (s.setMm r v).mem = s.mem := rfl
@[simp] theorem State.setMm_text (s : State) (r : MmReg) (v : Quad) : (s.setMm r v).text = s.text := rfl
@[simp] theorem State.setMm_devices (s : State) (r : MmReg) (v : Quad) : (s.setMm r v).devices = s.devices := rfl
@[simp] theorem State.setMm_schedule (s : State) (r : MmReg) (v : Quad) : (s.setMm r v).schedule = s.schedule := rfl
@[simp] theorem State.setMm_draws (s : State) (r : MmReg) (v : Quad) : (s.setMm r v).draws = s.draws := rfl

/-! ## setX -/

@[simp] theorem State.setX_mm (s : State) (r : IntReg) (v : Dword) : (s.setX r v).cpu.mm = s.cpu.mm := rfl
@[simp] theorem State.setX_x (s : State) (r : IntReg) (v : Dword) : (s.setX r v).cpu.x = s.cpu.x.set r v := rfl
@[simp] theorem State.setX_pc (s : State) (r : IntReg) (v : Dword) : (s.setX r v).cpu.pc = s.cpu.pc := rfl
@[simp] theorem State.setX_cr0 (s : State) (r : IntReg) (v : Dword) : (s.setX r v).cpu.cr0 = s.cpu.cr0 := rfl
@[simp] theorem State.setX_cpl (s : State) (r : IntReg) (v : Dword) : (s.setX r v).cpu.cpl = s.cpu.cpl := rfl
@[simp] theorem State.setX_mode (s : State) (r : IntReg) (v : Dword) : (s.setX r v).cpu.mode = s.cpu.mode := rfl
@[simp] theorem State.setX_fpPending (s : State) (r : IntReg) (v : Dword) : (s.setX r v).cpu.fpPending = s.cpu.fpPending := rfl
@[simp] theorem State.setX_eflagsAc (s : State) (r : IntReg) (v : Dword) : (s.setX r v).cpu.eflagsAc = s.cpu.eflagsAc := rfl
@[simp] theorem State.setX_segs (s : State) (r : IntReg) (v : Dword) : (s.setX r v).cpu.segs = s.cpu.segs := rfl
@[simp] theorem State.setX_paging (s : State) (r : IntReg) (v : Dword) : (s.setX r v).cpu.paging = s.cpu.paging := rfl
@[simp] theorem State.setX_x87 (s : State) (r : IntReg) (v : Dword) : (s.setX r v).cpu.x87 = s.cpu.x87 := rfl
@[simp] theorem State.setX_pending (s : State) (r : IntReg) (v : Dword) : (s.setX r v).cpu.pending = s.cpu.pending := rfl
@[simp] theorem State.setX_epoch (s : State) (r : IntReg) (v : Dword) : (s.setX r v).cpu.epoch = s.cpu.epoch := rfl
@[simp] theorem State.setX_early (s : State) (r : IntReg) (v : Dword) : (s.setX r v).cpu.early = s.cpu.early := rfl
@[simp] theorem State.setX_ended (s : State) (r : IntReg) (v : Dword) : (s.setX r v).cpu.ended = s.cpu.ended := rfl
@[simp] theorem State.setX_endAt (s : State) (r : IntReg) (v : Dword) : (s.setX r v).cpu.endAt = s.cpu.endAt := rfl
@[simp] theorem State.setX_others (s : State) (r : IntReg) (v : Dword) : (s.setX r v).others = s.others := rfl
@[simp] theorem State.setX_mem (s : State) (r : IntReg) (v : Dword) : (s.setX r v).mem = s.mem := rfl
@[simp] theorem State.setX_text (s : State) (r : IntReg) (v : Dword) : (s.setX r v).text = s.text := rfl
@[simp] theorem State.setX_devices (s : State) (r : IntReg) (v : Dword) : (s.setX r v).devices = s.devices := rfl
@[simp] theorem State.setX_schedule (s : State) (r : IntReg) (v : Dword) : (s.setX r v).schedule = s.schedule := rfl
@[simp] theorem State.setX_draws (s : State) (r : IntReg) (v : Dword) : (s.setX r v).draws = s.draws := rfl

/-! ## advance -/

@[simp] theorem State.advance_mm (s : State) (n : Nat) : (s.advance n).cpu.mm = s.cpu.mm := rfl
@[simp] theorem State.advance_x (s : State) (n : Nat) : (s.advance n).cpu.x = s.cpu.x := rfl
@[simp] theorem State.advance_pc (s : State) (n : Nat) : (s.advance n).cpu.pc = s.cpu.pc + BitVec.ofNat 32 n := rfl
@[simp] theorem State.advance_cr0 (s : State) (n : Nat) : (s.advance n).cpu.cr0 = s.cpu.cr0 := rfl
@[simp] theorem State.advance_cpl (s : State) (n : Nat) : (s.advance n).cpu.cpl = s.cpu.cpl := rfl
@[simp] theorem State.advance_mode (s : State) (n : Nat) : (s.advance n).cpu.mode = s.cpu.mode := rfl
@[simp] theorem State.advance_fpPending (s : State) (n : Nat) : (s.advance n).cpu.fpPending = s.cpu.fpPending := rfl
@[simp] theorem State.advance_eflagsAc (s : State) (n : Nat) : (s.advance n).cpu.eflagsAc = s.cpu.eflagsAc := rfl
@[simp] theorem State.advance_segs (s : State) (n : Nat) : (s.advance n).cpu.segs = s.cpu.segs := rfl
@[simp] theorem State.advance_paging (s : State) (n : Nat) : (s.advance n).cpu.paging = s.cpu.paging := rfl
@[simp] theorem State.advance_x87 (s : State) (n : Nat) : (s.advance n).cpu.x87 = s.cpu.x87 := rfl
@[simp] theorem State.advance_pending (s : State) (n : Nat) : (s.advance n).cpu.pending = s.cpu.pending := rfl
@[simp] theorem State.advance_epoch (s : State) (n : Nat) : (s.advance n).cpu.epoch = s.cpu.epoch := rfl
@[simp] theorem State.advance_early (s : State) (n : Nat) : (s.advance n).cpu.early = [] := rfl
@[simp] theorem State.advance_ended (s : State) (n : Nat) : (s.advance n).cpu.ended = s.cpu.ended := rfl
@[simp] theorem State.advance_endAt (s : State) (n : Nat) : (s.advance n).cpu.endAt = s.cpu.endAt := rfl
@[simp] theorem State.advance_others (s : State) (n : Nat) : (s.advance n).others = s.others := rfl
@[simp] theorem State.advance_mem (s : State) (n : Nat) : (s.advance n).mem = s.mem := rfl
@[simp] theorem State.advance_text (s : State) (n : Nat) : (s.advance n).text = s.text := rfl
@[simp] theorem State.advance_devices (s : State) (n : Nat) : (s.advance n).devices = s.devices := rfl
@[simp] theorem State.advance_schedule (s : State) (n : Nat) : (s.advance n).schedule = s.schedule := rfl
@[simp] theorem State.advance_draws (s : State) (n : Nat) : (s.advance n).draws = s.draws := rfl

/-! ## touchX87 -/

@[simp] theorem State.touchX87_mm (s : State) : s.touchX87.cpu.mm = s.cpu.mm := rfl
@[simp] theorem State.touchX87_x (s : State) : s.touchX87.cpu.x = s.cpu.x := rfl
@[simp] theorem State.touchX87_pc (s : State) : s.touchX87.cpu.pc = s.cpu.pc := rfl
@[simp] theorem State.touchX87_cr0 (s : State) : s.touchX87.cpu.cr0 = s.cpu.cr0 := rfl
@[simp] theorem State.touchX87_cpl (s : State) : s.touchX87.cpu.cpl = s.cpu.cpl := rfl
@[simp] theorem State.touchX87_mode (s : State) : s.touchX87.cpu.mode = s.cpu.mode := rfl
@[simp] theorem State.touchX87_fpPending (s : State) : s.touchX87.cpu.fpPending = s.cpu.fpPending := rfl
@[simp] theorem State.touchX87_eflagsAc (s : State) : s.touchX87.cpu.eflagsAc = s.cpu.eflagsAc := rfl
@[simp] theorem State.touchX87_segs (s : State) : s.touchX87.cpu.segs = s.cpu.segs := rfl
@[simp] theorem State.touchX87_paging (s : State) : s.touchX87.cpu.paging = s.cpu.paging := rfl
@[simp] theorem State.touchX87_pending (s : State) : s.touchX87.cpu.pending = s.cpu.pending := rfl
@[simp] theorem State.touchX87_epoch (s : State) : s.touchX87.cpu.epoch = s.cpu.epoch := rfl
@[simp] theorem State.touchX87_early (s : State) : s.touchX87.cpu.early = s.cpu.early := rfl
@[simp] theorem State.touchX87_ended (s : State) : s.touchX87.cpu.ended = s.cpu.ended := rfl
@[simp] theorem State.touchX87_endAt (s : State) : s.touchX87.cpu.endAt = s.cpu.endAt := rfl
@[simp] theorem State.touchX87_others (s : State) : s.touchX87.others = s.others := rfl
@[simp] theorem State.touchX87_mem (s : State) : s.touchX87.mem = s.mem := rfl
@[simp] theorem State.touchX87_text (s : State) : s.touchX87.text = s.text := rfl
@[simp] theorem State.touchX87_devices (s : State) : s.touchX87.devices = s.devices := rfl
@[simp] theorem State.touchX87_schedule (s : State) : s.touchX87.schedule = s.schedule := rfl
@[simp] theorem State.touchX87_draws (s : State) : s.touchX87.draws = s.draws := rfl

/-! ## retireMmx -/

@[simp] theorem State.retireMmx_mm (s : State) (n : Nat) : (s.retireMmx n).cpu.mm = s.cpu.mm := rfl
@[simp] theorem State.retireMmx_x (s : State) (n : Nat) : (s.retireMmx n).cpu.x = s.cpu.x := rfl
@[simp] theorem State.retireMmx_pc (s : State) (n : Nat) : (s.retireMmx n).cpu.pc = s.cpu.pc + BitVec.ofNat 32 n := rfl
@[simp] theorem State.retireMmx_cr0 (s : State) (n : Nat) : (s.retireMmx n).cpu.cr0 = s.cpu.cr0 := rfl
@[simp] theorem State.retireMmx_cpl (s : State) (n : Nat) : (s.retireMmx n).cpu.cpl = s.cpu.cpl := rfl
@[simp] theorem State.retireMmx_mode (s : State) (n : Nat) : (s.retireMmx n).cpu.mode = s.cpu.mode := rfl
@[simp] theorem State.retireMmx_fpPending (s : State) (n : Nat) : (s.retireMmx n).cpu.fpPending = s.cpu.fpPending := rfl
@[simp] theorem State.retireMmx_eflagsAc (s : State) (n : Nat) : (s.retireMmx n).cpu.eflagsAc = s.cpu.eflagsAc := rfl
@[simp] theorem State.retireMmx_segs (s : State) (n : Nat) : (s.retireMmx n).cpu.segs = s.cpu.segs := rfl
@[simp] theorem State.retireMmx_paging (s : State) (n : Nat) : (s.retireMmx n).cpu.paging = s.cpu.paging := rfl
@[simp] theorem State.retireMmx_pending (s : State) (n : Nat) : (s.retireMmx n).cpu.pending = s.cpu.pending := rfl
@[simp] theorem State.retireMmx_epoch (s : State) (n : Nat) : (s.retireMmx n).cpu.epoch = s.cpu.epoch := rfl
@[simp] theorem State.retireMmx_early (s : State) (n : Nat) : (s.retireMmx n).cpu.early = [] := rfl
@[simp] theorem State.retireMmx_ended (s : State) (n : Nat) : (s.retireMmx n).cpu.ended = s.cpu.ended := rfl
@[simp] theorem State.retireMmx_endAt (s : State) (n : Nat) : (s.retireMmx n).cpu.endAt = s.cpu.endAt := rfl
@[simp] theorem State.retireMmx_others (s : State) (n : Nat) : (s.retireMmx n).others = s.others := rfl
@[simp] theorem State.retireMmx_mem (s : State) (n : Nat) : (s.retireMmx n).mem = s.mem := rfl
@[simp] theorem State.retireMmx_text (s : State) (n : Nat) : (s.retireMmx n).text = s.text := rfl
@[simp] theorem State.retireMmx_devices (s : State) (n : Nat) : (s.retireMmx n).devices = s.devices := rfl
@[simp] theorem State.retireMmx_schedule (s : State) (n : Nat) : (s.retireMmx n).schedule = s.schedule := rfl
@[simp] theorem State.retireMmx_draws (s : State) (n : Nat) : (s.retireMmx n).draws = s.draws := rfl

/-! ## addPending -/

@[simp] theorem State.addPending_mm (s : State) (rs : List Record) : (s.addPending rs).cpu.mm = s.cpu.mm := rfl
@[simp] theorem State.addPending_x (s : State) (rs : List Record) : (s.addPending rs).cpu.x = s.cpu.x := rfl
@[simp] theorem State.addPending_pc (s : State) (rs : List Record) : (s.addPending rs).cpu.pc = s.cpu.pc := rfl
@[simp] theorem State.addPending_cr0 (s : State) (rs : List Record) : (s.addPending rs).cpu.cr0 = s.cpu.cr0 := rfl
@[simp] theorem State.addPending_cpl (s : State) (rs : List Record) : (s.addPending rs).cpu.cpl = s.cpu.cpl := rfl
@[simp] theorem State.addPending_mode (s : State) (rs : List Record) : (s.addPending rs).cpu.mode = s.cpu.mode := rfl
@[simp] theorem State.addPending_fpPending (s : State) (rs : List Record) : (s.addPending rs).cpu.fpPending = s.cpu.fpPending := rfl
@[simp] theorem State.addPending_eflagsAc (s : State) (rs : List Record) : (s.addPending rs).cpu.eflagsAc = s.cpu.eflagsAc := rfl
@[simp] theorem State.addPending_segs (s : State) (rs : List Record) : (s.addPending rs).cpu.segs = s.cpu.segs := rfl
@[simp] theorem State.addPending_paging (s : State) (rs : List Record) : (s.addPending rs).cpu.paging = s.cpu.paging := rfl
@[simp] theorem State.addPending_x87 (s : State) (rs : List Record) : (s.addPending rs).cpu.x87 = s.cpu.x87 := rfl
@[simp] theorem State.addPending_pending (s : State) (rs : List Record) : (s.addPending rs).cpu.pending = s.cpu.pending ++ rs := rfl
@[simp] theorem State.addPending_epoch (s : State) (rs : List Record) : (s.addPending rs).cpu.epoch = s.cpu.epoch := rfl
@[simp] theorem State.addPending_early (s : State) (rs : List Record) : (s.addPending rs).cpu.early = s.cpu.early := rfl
@[simp] theorem State.addPending_ended (s : State) (rs : List Record) : (s.addPending rs).cpu.ended = s.cpu.ended := rfl
@[simp] theorem State.addPending_endAt (s : State) (rs : List Record) : (s.addPending rs).cpu.endAt = s.cpu.endAt := rfl
@[simp] theorem State.addPending_others (s : State) (rs : List Record) : (s.addPending rs).others = s.others := rfl
@[simp] theorem State.addPending_mem (s : State) (rs : List Record) : (s.addPending rs).mem = s.mem := rfl
@[simp] theorem State.addPending_text (s : State) (rs : List Record) : (s.addPending rs).text = s.text := rfl
@[simp] theorem State.addPending_devices (s : State) (rs : List Record) : (s.addPending rs).devices = s.devices := rfl
@[simp] theorem State.addPending_schedule (s : State) (rs : List Record) : (s.addPending rs).schedule = s.schedule := rfl
@[simp] theorem State.addPending_draws (s : State) (rs : List Record) : (s.addPending rs).draws = s.draws := rfl

/-! ## bumpEpoch -/

@[simp] theorem State.bumpEpoch_mm (s : State) : s.bumpEpoch.cpu.mm = s.cpu.mm := rfl
@[simp] theorem State.bumpEpoch_x (s : State) : s.bumpEpoch.cpu.x = s.cpu.x := rfl
@[simp] theorem State.bumpEpoch_pc (s : State) : s.bumpEpoch.cpu.pc = s.cpu.pc := rfl
@[simp] theorem State.bumpEpoch_cr0 (s : State) : s.bumpEpoch.cpu.cr0 = s.cpu.cr0 := rfl
@[simp] theorem State.bumpEpoch_cpl (s : State) : s.bumpEpoch.cpu.cpl = s.cpu.cpl := rfl
@[simp] theorem State.bumpEpoch_mode (s : State) : s.bumpEpoch.cpu.mode = s.cpu.mode := rfl
@[simp] theorem State.bumpEpoch_fpPending (s : State) : s.bumpEpoch.cpu.fpPending = s.cpu.fpPending := rfl
@[simp] theorem State.bumpEpoch_eflagsAc (s : State) : s.bumpEpoch.cpu.eflagsAc = s.cpu.eflagsAc := rfl
@[simp] theorem State.bumpEpoch_segs (s : State) : s.bumpEpoch.cpu.segs = s.cpu.segs := rfl
@[simp] theorem State.bumpEpoch_paging (s : State) : s.bumpEpoch.cpu.paging = s.cpu.paging := rfl
@[simp] theorem State.bumpEpoch_x87 (s : State) : s.bumpEpoch.cpu.x87 = s.cpu.x87 := rfl
@[simp] theorem State.bumpEpoch_pending (s : State) : s.bumpEpoch.cpu.pending = s.cpu.pending := rfl
@[simp] theorem State.bumpEpoch_epoch (s : State) : s.bumpEpoch.cpu.epoch = s.cpu.epoch + 1 := rfl
@[simp] theorem State.bumpEpoch_early (s : State) : s.bumpEpoch.cpu.early = s.cpu.early := rfl
@[simp] theorem State.bumpEpoch_ended (s : State) : s.bumpEpoch.cpu.ended = s.cpu.ended := rfl
@[simp] theorem State.bumpEpoch_endAt (s : State) : s.bumpEpoch.cpu.endAt = s.cpu.endAt := rfl
@[simp] theorem State.bumpEpoch_others (s : State) : s.bumpEpoch.others = s.others := rfl
@[simp] theorem State.bumpEpoch_mem (s : State) : s.bumpEpoch.mem = s.mem := rfl
@[simp] theorem State.bumpEpoch_text (s : State) : s.bumpEpoch.text = s.text := rfl
@[simp] theorem State.bumpEpoch_devices (s : State) : s.bumpEpoch.devices = s.devices := rfl
@[simp] theorem State.bumpEpoch_schedule (s : State) : s.bumpEpoch.schedule = s.schedule := rfl
@[simp] theorem State.bumpEpoch_draws (s : State) : s.bumpEpoch.draws = s.draws := rfl

/-! ## draw -/

@[simp] theorem State.draw_mm (s : State) (n : Nat) : (s.draw n).cpu.mm = s.cpu.mm := rfl
@[simp] theorem State.draw_x (s : State) (n : Nat) : (s.draw n).cpu.x = s.cpu.x := rfl
@[simp] theorem State.draw_pc (s : State) (n : Nat) : (s.draw n).cpu.pc = s.cpu.pc := rfl
@[simp] theorem State.draw_cr0 (s : State) (n : Nat) : (s.draw n).cpu.cr0 = s.cpu.cr0 := rfl
@[simp] theorem State.draw_cpl (s : State) (n : Nat) : (s.draw n).cpu.cpl = s.cpu.cpl := rfl
@[simp] theorem State.draw_mode (s : State) (n : Nat) : (s.draw n).cpu.mode = s.cpu.mode := rfl
@[simp] theorem State.draw_fpPending (s : State) (n : Nat) : (s.draw n).cpu.fpPending = s.cpu.fpPending := rfl
@[simp] theorem State.draw_eflagsAc (s : State) (n : Nat) : (s.draw n).cpu.eflagsAc = s.cpu.eflagsAc := rfl
@[simp] theorem State.draw_segs (s : State) (n : Nat) : (s.draw n).cpu.segs = s.cpu.segs := rfl
@[simp] theorem State.draw_paging (s : State) (n : Nat) : (s.draw n).cpu.paging = s.cpu.paging := rfl
@[simp] theorem State.draw_x87 (s : State) (n : Nat) : (s.draw n).cpu.x87 = s.cpu.x87 := rfl
@[simp] theorem State.draw_pending (s : State) (n : Nat) : (s.draw n).cpu.pending = s.cpu.pending := rfl
@[simp] theorem State.draw_epoch (s : State) (n : Nat) : (s.draw n).cpu.epoch = s.cpu.epoch := rfl
@[simp] theorem State.draw_early (s : State) (n : Nat) : (s.draw n).cpu.early = s.cpu.early := rfl
@[simp] theorem State.draw_ended (s : State) (n : Nat) : (s.draw n).cpu.ended = s.cpu.ended := rfl
@[simp] theorem State.draw_endAt (s : State) (n : Nat) : (s.draw n).cpu.endAt = s.cpu.endAt := rfl
@[simp] theorem State.draw_others (s : State) (n : Nat) : (s.draw n).others = s.others := rfl
@[simp] theorem State.draw_mem (s : State) (n : Nat) : (s.draw n).mem = s.mem := rfl
@[simp] theorem State.draw_text (s : State) (n : Nat) : (s.draw n).text = s.text := rfl
@[simp] theorem State.draw_devices (s : State) (n : Nat) : (s.draw n).devices = s.devices := rfl
@[simp] theorem State.draw_schedule (s : State) (n : Nat) : (s.draw n).schedule = s.schedule := rfl
@[simp] theorem State.draw_draws (s : State) (n : Nat) : (s.draw n).draws = s.draws + n := rfl

/-! ## x87 fields -/

@[simp] theorem State.setMm_x87_top (s : State) (r : MmReg) (v : Quad) : (s.setMm r v).cpu.x87.top = s.cpu.x87.top := rfl
@[simp] theorem State.setMm_x87_tags (s : State) (r : MmReg) (v : Quad) : (s.setMm r v).cpu.x87.tags = s.cpu.x87.tags := rfl
@[simp] theorem State.setMm_x87_high (s : State) (r : MmReg) (v : Quad) :
    (s.setMm r v).cpu.x87.high = s.cpu.x87.high.set r (BitVec.allOnes 16) := rfl
@[simp] theorem State.touchX87_x87_top (s : State) : s.touchX87.cpu.x87.top = 0 := rfl
@[simp] theorem State.touchX87_x87_tags (s : State) : s.touchX87.cpu.x87.tags = 0 := rfl
@[simp] theorem State.touchX87_x87_high (s : State) : s.touchX87.cpu.x87.high = s.cpu.x87.high := rfl
@[simp] theorem State.retireMmx_x87_top (s : State) (n : Nat) : (s.retireMmx n).cpu.x87.top = 0 := rfl
@[simp] theorem State.retireMmx_x87_tags (s : State) (n : Nat) : (s.retireMmx n).cpu.x87.tags = 0 := rfl
@[simp] theorem State.retireMmx_x87_high (s : State) (n : Nat) : (s.retireMmx n).cpu.x87.high = s.cpu.x87.high := rfl

/-! ## Registers -/

@[simp] theorem MmFile.get_set {w : Nat} (f : MmFile w) (r q : MmReg) (v : BitVec w) :
    (f.set r v).get q = if q = r then v else f.get q := by
  cases r <;> cases q <;> rfl

@[simp] theorem IntFile.get_set (f : IntFile) (r q : IntReg) (v : Dword) :
    (f.set r v).get q = if q = r then v else f.get q := by
  cases r <;> cases q <;> rfl

@[simp] theorem State.setMm_mm_get (s : State) (r q : MmReg) (v : Quad) :
    (s.setMm r v).mm q = if q = r then v else s.mm q := by simp [State.mm]
@[simp] theorem State.setMm_x_get (s : State) (r : MmReg) (v : Quad) (q : IntReg) : (s.setMm r v).x q = s.x q := rfl
@[simp] theorem State.setMm_sees (s : State) (r : MmReg) (v : Quad) (p : Nat) : (s.setMm r v).sees p = s.sees p := rfl
@[simp] theorem State.setMm_inText (s : State) (r : MmReg) (v : Quad) (p : Nat) : (s.setMm r v).inText p = s.inText p := rfl
@[simp] theorem State.setMm_inDevice (s : State) (r : MmReg) (v : Quad) (p : Nat) : (s.setMm r v).inDevice p = s.inDevice p := rfl
@[simp] theorem State.setX_mm_get (s : State) (r : IntReg) (v : Dword) (q : MmReg) : (s.setX r v).mm q = s.mm q := rfl
@[simp] theorem State.setX_x_get (s : State) (r q : IntReg) (v : Dword) :
    (s.setX r v).x q = if q = r then v else s.x q := by simp [State.x]
@[simp] theorem State.setX_sees (s : State) (r : IntReg) (v : Dword) (p : Nat) : (s.setX r v).sees p = s.sees p := rfl
@[simp] theorem State.setX_inText (s : State) (r : IntReg) (v : Dword) (p : Nat) : (s.setX r v).inText p = s.inText p := rfl
@[simp] theorem State.setX_inDevice (s : State) (r : IntReg) (v : Dword) (p : Nat) : (s.setX r v).inDevice p = s.inDevice p := rfl
@[simp] theorem State.advance_mm_get (s : State) (n : Nat) (q : MmReg) : (s.advance n).mm q = s.mm q := rfl
@[simp] theorem State.advance_x_get (s : State) (n : Nat) (q : IntReg) : (s.advance n).x q = s.x q := rfl
@[simp] theorem State.advance_sees (s : State) (n : Nat) (p : Nat) : (s.advance n).sees p = s.sees p := rfl
@[simp] theorem State.advance_inText (s : State) (n : Nat) (p : Nat) : (s.advance n).inText p = s.inText p := rfl
@[simp] theorem State.advance_inDevice (s : State) (n : Nat) (p : Nat) : (s.advance n).inDevice p = s.inDevice p := rfl
@[simp] theorem State.touchX87_mm_get (s : State) (q : MmReg) : s.touchX87.mm q = s.mm q := rfl
@[simp] theorem State.touchX87_x_get (s : State) (q : IntReg) : s.touchX87.x q = s.x q := rfl
@[simp] theorem State.touchX87_sees (s : State) (p : Nat) : s.touchX87.sees p = s.sees p := rfl
@[simp] theorem State.touchX87_inText (s : State) (p : Nat) : s.touchX87.inText p = s.inText p := rfl
@[simp] theorem State.touchX87_inDevice (s : State) (p : Nat) : s.touchX87.inDevice p = s.inDevice p := rfl
@[simp] theorem State.retireMmx_mm_get (s : State) (n : Nat) (q : MmReg) : (s.retireMmx n).mm q = s.mm q := rfl
@[simp] theorem State.retireMmx_x_get (s : State) (n : Nat) (q : IntReg) : (s.retireMmx n).x q = s.x q := rfl
@[simp] theorem State.retireMmx_sees (s : State) (n : Nat) (p : Nat) : (s.retireMmx n).sees p = s.sees p := rfl
@[simp] theorem State.retireMmx_inText (s : State) (n : Nat) (p : Nat) : (s.retireMmx n).inText p = s.inText p := rfl
@[simp] theorem State.retireMmx_inDevice (s : State) (n : Nat) (p : Nat) : (s.retireMmx n).inDevice p = s.inDevice p := rfl
@[simp] theorem State.addPending_mm_get (s : State) (rs : List Record) (q : MmReg) : (s.addPending rs).mm q = s.mm q := rfl
@[simp] theorem State.addPending_x_get (s : State) (rs : List Record) (q : IntReg) : (s.addPending rs).x q = s.x q := rfl
@[simp] theorem State.addPending_inText (s : State) (rs : List Record) (p : Nat) : (s.addPending rs).inText p = s.inText p := rfl
@[simp] theorem State.addPending_inDevice (s : State) (rs : List Record) (p : Nat) : (s.addPending rs).inDevice p = s.inDevice p := rfl
@[simp] theorem State.bumpEpoch_mm_get (s : State) (q : MmReg) : s.bumpEpoch.mm q = s.mm q := rfl
@[simp] theorem State.bumpEpoch_x_get (s : State) (q : IntReg) : s.bumpEpoch.x q = s.x q := rfl
@[simp] theorem State.bumpEpoch_sees (s : State) (p : Nat) : s.bumpEpoch.sees p = s.sees p := rfl
@[simp] theorem State.bumpEpoch_inText (s : State) (p : Nat) : s.bumpEpoch.inText p = s.inText p := rfl
@[simp] theorem State.bumpEpoch_inDevice (s : State) (p : Nat) : s.bumpEpoch.inDevice p = s.inDevice p := rfl
@[simp] theorem State.draw_mm_get (s : State) (n : Nat) (q : MmReg) : (s.draw n).mm q = s.mm q := rfl
@[simp] theorem State.draw_x_get (s : State) (n : Nat) (q : IntReg) : (s.draw n).x q = s.x q := rfl
@[simp] theorem State.draw_sees (s : State) (n : Nat) (p : Nat) : (s.draw n).sees p = s.sees p := rfl
@[simp] theorem State.draw_inText (s : State) (n : Nat) (p : Nat) : (s.draw n).inText p = s.inText p := rfl
@[simp] theorem State.draw_inDevice (s : State) (n : Nat) (p : Nat) : (s.draw n).inDevice p = s.inDevice p := rfl

end Sys2Proof.Machine
end

