-- ==== Sys2Proof/Laws/Memory.lean ====
section
/-! SUPPORT. Reading after writing, the canonical form, and what pending writes show. -/

namespace Sys2Proof.Machine

/-! ## Reading after writing -/

@[simp] theorem Memory.read_nil (p : Nat) : Memory.read [] p = Memory.unlisted := rfl

theorem Memory.read_cons (a p : Nat) (b : Byte) (m : Memory) :
    Memory.read ((a, b) :: m) p = if a = p then b else Memory.read m p := rfl

/-- A write leaves every other address alone, whatever the form of the memory. -/
theorem Memory.read_write_other (m : Memory) {p q : Nat} (v : Byte) (h : q ≠ p) :
    (Memory.write m p v).read q = m.read q := by
  have h' : p ≠ q := fun e => h e.symm
  induction m with
  | nil => unfold Memory.write; split <;> simp [Memory.read_cons, h']
  | cons c m ih =>
    obtain ⟨a, b⟩ := c
    unfold Memory.write
    split
    · split <;> simp [Memory.read_cons, h']
    · split
      · rename_i h1; subst h1; split <;> simp [Memory.read_cons, h']
      · simp [Memory.read_cons, ih]

theorem Memory.wfFrom_cons (lo a : Nat) (b : Byte) (m : Memory) :
    Memory.wfFrom lo ((a, b) :: m) = true ↔
      lo ≤ a ∧ b ≠ Memory.unlisted ∧ Memory.wfFrom (a + 1) m = true := by
  simp [Memory.wfFrom, and_assoc]

theorem Memory.wfFrom_mono {lo lo' : Nat} (m : Memory) (h : Memory.wfFrom lo m = true) (hl : lo' ≤ lo) :
    Memory.wfFrom lo' m = true := by
  cases m with
  | nil => rfl
  | cons c m =>
    obtain ⟨a, b⟩ := c
    rw [Memory.wfFrom_cons] at h ⊢
    exact ⟨by omega, h.2⟩

/-- Below the first address of a canonical memory nothing is listed. -/
theorem Memory.read_below {lo p : Nat} (m : Memory) (h : Memory.wfFrom lo m = true) (hp : p < lo) :
    m.read p = Memory.unlisted := by
  induction m generalizing lo with
  | nil => rfl
  | cons c m ih =>
    obtain ⟨a, b⟩ := c
    rw [Memory.wfFrom_cons] at h
    rw [Memory.read_cons, if_neg (by omega)]
    exact ih h.2.2 (by omega)

/-- A read after a write to the same address gives the value written. -/
theorem Memory.read_write_same_from {lo : Nat} (m : Memory) (p : Nat) (v : Byte)
    (h : Memory.wfFrom lo m = true) : (Memory.write m p v).read p = v := by
  induction m generalizing lo with
  | nil => unfold Memory.write; split <;> simp_all [Memory.read_cons]
  | cons c m ih =>
    obtain ⟨a, b⟩ := c
    rw [Memory.wfFrom_cons] at h
    unfold Memory.write
    split
    · rename_i hlt
      split
      · rename_i hv
        rw [Memory.read_cons, if_neg (by omega), hv]
        exact Memory.read_below m h.2.2 (by omega)
      · simp [Memory.read_cons]
    · split
      · rename_i hpa
        split
        · rename_i hv; rw [hv]; exact Memory.read_below m h.2.2 (by omega)
        · simp [Memory.read_cons]
      · rename_i hne
        rw [Memory.read_cons, if_neg (fun e => hne e.symm)]
        exact ih h.2.2

theorem Memory.read_write_same (m : Memory) (p : Nat) (v : Byte) (h : m.wf = true) :
    (m.write p v).read p = v := Memory.read_write_same_from m p v h

/-! ## The canonical form is kept -/

theorem Memory.write_wfFrom {lo : Nat} (m : Memory) (p : Nat) (v : Byte)
    (h : Memory.wfFrom lo m = true) (hp : lo ≤ p) : Memory.wfFrom lo (m.write p v) = true := by
  induction m generalizing lo with
  | nil => unfold Memory.write; split <;> simp_all [Memory.wfFrom]
  | cons c m ih =>
    obtain ⟨a, b⟩ := c
    have hc := h
    rw [Memory.wfFrom_cons] at h
    unfold Memory.write
    split
    · split
      · exact hc
      · rename_i hv
        rw [Memory.wfFrom_cons, Memory.wfFrom_cons]
        exact ⟨hp, hv, by omega, h.2⟩
    · split
      · rename_i hpa
        split
        · exact Memory.wfFrom_mono m h.2.2 (by omega)
        · rename_i hv
          rw [Memory.wfFrom_cons]
          exact ⟨hp, hv, hpa ▸ h.2.2⟩
      · rw [Memory.wfFrom_cons]
        exact ⟨h.1, h.2.1, ih h.2.2 (by omega)⟩

/-- A write keeps the canonical form. -/
theorem Memory.write_wf (m : Memory) (p : Nat) (v : Byte) (h : m.wf = true) : (m.write p v).wf = true :=
  Memory.write_wfFrom m p v h (Nat.zero_le p)

/-- Draining records keeps the canonical form. -/
theorem drainInto_wf (m : Memory) (rs : List Record) (h : m.wf = true) : (drainInto m rs).wf = true := by
  unfold drainInto
  induction rs generalizing m with
  | nil => exact h
  | cons r rs ih => exact ih _ (Memory.write_wf m r.addr r.byte h)

/-- Draining records leaves every other address alone. -/
theorem drainInto_read_other (m : Memory) (rs : List Record) (p : Nat) (h : ∀ r ∈ rs, r.addr ≠ p) :
    (drainInto m rs).read p = m.read p := by
  unfold drainInto
  induction rs generalizing m with
  | nil => rfl
  | cons r rs ih =>
    rw [List.foldl_cons, ih _ fun q hq => h q (List.mem_cons_of_mem _ hq)]
    exact Memory.read_write_other m r.byte fun e => h r List.mem_cons_self e.symm

theorem resume_wf (s : State) (k : Nat) (h : s.mem.wf = true) : (s.resume k).mem.wf = true := by
  unfold State.resume
  split <;> exact h

theorem writeExternal_wf (s : State) (p : Nat) (b : Byte) (h : s.mem.wf = true) :
    (s.writeExternal p b).mem.wf = true := by
  unfold State.writeExternal
  split
  · exact h
  · exact Memory.write_wf _ _ _ h

theorem drain_wf (s : State) (who i : Nat) (h : s.mem.wf = true) : (s.drain who i).mem.wf = true := by
  unfold State.drain
  split
  · exact h
  · split
    · exact h
    · split
      · exact drainInto_wf _ _ h
      · exact h

/-- Every action of the memory system and of other agents keeps the canonical form. -/
theorem happen_wf (s : State) (e : Event) (h : s.mem.wf = true) : (s.happen e).mem.wf = true :=
  match e with
  | .run => h
  | .resume k => resume_wf s k h
  | .drain who i => drain_wf s who i h
  | .early _ _ => h
  | .external p b => writeExternal_wf s p b h

/-- The memory after reset has the canonical form. -/
theorem reset_mem_wf : State.reset.mem.wf = true := rfl

/-! ## Pending writes -/

@[simp] theorem newestPending_nil (p : Nat) : newestPending [] p = none := rfl

theorem newestPending_cons (r : Record) (rs : List Record) (p : Nat) :
    newestPending (r :: rs) p =
      (newestPending rs p).or (if r.addr = p then some r.byte else none) := by
  rw [newestPending]
  cases newestPending rs p <;> rfl

/-- The records appended later count first. -/
theorem newestPending_append (rs qs : List Record) (p : Nat) :
    newestPending (rs ++ qs) p = (newestPending qs p).or (newestPending rs p) := by
  induction rs with
  | nil => simp
  | cons r rs ih => simp [newestPending_cons, ih, Option.or_assoc]

theorem newestPending_none (rs : List Record) (p : Nat) (h : ∀ r ∈ rs, r.addr ≠ p) :
    newestPending rs p = none := by
  induction rs with
  | nil => rfl
  | cons r rs ih =>
    rw [newestPending_cons, ih fun q hq => h q (List.mem_cons_of_mem _ hq), if_neg (h r List.mem_cons_self)]
    rfl

/-- What the records of a store hold: the epoch given, and the cells in order. -/
theorem storeRecords_map (e : Nat) (quad : Bool) (k : Nat) (cs : List (Nat × Byte)) :
    (storeRecords e quad k cs).map (fun r => (r.addr, r.byte)) = cs := by
  induction cs generalizing k with
  | nil => rfl
  | cons c cs ih => obtain ⟨p, b⟩ := c; simp [storeRecords, ih]

theorem storeRecords_epoch (e : Nat) (quad : Bool) (k : Nat) (cs : List (Nat × Byte)) :
    ∀ r ∈ storeRecords e quad k cs, r.epoch = e := by
  induction cs generalizing k with
  | nil => simp [storeRecords]
  | cons c cs ih =>
    obtain ⟨p, b⟩ := c
    intro r hr
    rcases List.mem_cons.mp hr with rfl | hr
    · rfl
    · exact ih _ r hr

theorem storeRecords_addr (e : Nat) (quad : Bool) (k : Nat) (cs : List (Nat × Byte)) :
    ∀ r ∈ storeRecords e quad k cs, r.addr ∈ cs.map Prod.fst := by
  intro r hr
  have h := List.mem_map_of_mem (f := fun r : Record => (r.addr, r.byte)) hr
  rw [storeRecords_map] at h
  exact List.mem_map.mpr ⟨_, h, rfl⟩

/-- A store shows only at the addresses it stores to. -/
theorem sees_addPending_other (s : State) (rs : List Record) (p : Nat) (h : ∀ r ∈ rs, r.addr ≠ p) :
    (s.addPending rs).sees p = s.sees p := by
  simp [State.sees, Agent.sees, newestPending_append, newestPending_none rs p h]

/-- An agent sees the newest of its pending bytes, and otherwise memory (20_memory.md R47). -/
theorem sees_addPending (s : State) (rs : List Record) (p : Nat) :
    (s.addPending rs).sees p = (newestPending rs p).getD (s.sees p) := by
  simp only [State.sees, Agent.sees, State.addPending_pending, State.addPending_mem, newestPending_append]
  cases newestPending rs p <;> simp

end Sys2Proof.Machine
end

