-- ==== Sys2Proof/Laws/Ops.lean ====
section
/-! SUPPORT. What each shared operation can answer, said once: the checks, the access, the reads and the
stores, and the shapes of the meanings. -/

namespace Sys2Proof.Machine

/-! ## Outcomes -/

@[simp] theorem conclude_ok (s : State) : conclude (.ok s) = .next s := rfl
@[simp] theorem conclude_fault (f : Fault) : conclude (.error (.fault f)) = .fault f := rfl
@[simp] theorem conclude_refused (r : Refusal) : conclude (.error (.refused r)) = .refused r := rfl
@[simp] theorem conclude_raise (x : Exn) (s : State) :
    conclude (.error (raise x s)) = .fault (faultOf x s.cpu.pc) := rfl

/-- An instruction completes exactly when its computation answers a state. -/
theorem conclude_eq_next (r : Except Stop State) (t : State) : conclude r = .next t ↔ r = .ok t := by
  cases r with
  | ok s => simp
  | error e => cases e <;> simp

theorem conclude_eq_fault (r : Except Stop State) (f : Fault) :
    conclude r = .fault f ↔ r = .error (.fault f) := by
  cases r with
  | ok s => simp
  | error e => cases e <;> simp

theorem conclude_eq_refused (r : Except Stop State) (x : Refusal) :
    conclude r = .refused x ↔ r = .error (.refused x) := by
  cases r with
  | ok s => simp
  | error e => cases e <;> simp

@[simp] theorem except_bind_ok {ε α β : Type} (a : α) (k : α → Except ε β) :
    (Except.ok a >>= k) = k a := rfl

@[simp] theorem except_bind_error {ε α β : Type} (e : ε) (k : α → Except ε β) :
    ((Except.error e : Except ε α) >>= k) = .error e := rfl

theorem bind_eq_ok {ε α β : Type} (x : Except ε α) (k : α → Except ε β) (b : β) :
    (x >>= k) = .ok b ↔ ∃ a, x = .ok a ∧ k a = .ok b := by
  cases x <;> simp

theorem bind_eq_error {ε α β : Type} (x : Except ε α) (k : α → Except ε β) (e : ε) :
    (x >>= k) = .error e ↔ x = .error e ∨ ∃ a, x = .ok a ∧ k a = .error e := by
  cases x <;> simp

/-! ## MMXChecks (60_exceptions.md R131) -/

theorem mmxChecks_ready {s : State} (h : MmxReady s) : mmxChecks s = .ok () := by
  simp [mmxChecks, h.1, h.2.1, h.2.2]

theorem mmxChecks_eq_ok (s : State) (u : Unit) : mmxChecks s = .ok u ↔ MmxReady s := by
  unfold mmxChecks MmxReady
  cases s.cpu.em <;> cases s.cpu.ts <;> cases s.cpu.fpPending <;> simp

/-- `MMXChecks` answers nothing but one of its three exceptions, or that all is well. -/
theorem mmxChecks_cases (s : State) :
    (s.cpu.em = true ∧ mmxChecks s = .error (raise .invalidOpcode s)) ∨
    (s.cpu.em = false ∧ s.cpu.ts = true ∧ mmxChecks s = .error (raise .deviceNotAvailable s)) ∨
    (s.cpu.em = false ∧ s.cpu.ts = false ∧ s.cpu.fpPending = true ∧
      mmxChecks s = .error (raise .fpPending s)) ∨
    (MmxReady s ∧ mmxChecks s = .ok ()) := by
  unfold mmxChecks MmxReady
  cases s.cpu.em <;> cases s.cpu.ts <;> cases s.cpu.fpPending <;> simp

/-! ## Access (20_memory.md R39, R44, R50) -/

theorem access_eq_ok (s : State) (seg : Seg) (off : Dword) (n : Nat) (kind : Access) (ps : List Nat) :
    s.access seg off n kind = .ok ps ↔ accessCheck s.cpu seg off n kind = .ok ps := by
  unfold State.access
  cases accessCheck s.cpu seg off n kind <;> simp

theorem access_eq_error (s : State) (seg : Seg) (off : Dword) (n : Nat) (kind : Access) (e : Stop) :
    s.access seg off n kind = .error e ↔
      ∃ x, accessCheck s.cpu seg off n kind = .error x ∧ e = raise x s := by
  unfold State.access
  cases accessCheck s.cpu seg off n kind <;> simp [eq_comm]

theorem refuseDevice_eq_ok (s : State) (ps : List Nat) (u : Unit) :
    s.refuseDevice ps = .ok u ↔ ∀ p ∈ ps, s.inDevice p = false := by
  unfold State.refuseDevice
  cases h : ps.find? s.inDevice with
  | none => simpa using h
  | some p =>
    have h1 := List.find?_some h
    have h2 := List.mem_of_find?_eq_some h
    simp only [reduceCtorEq, false_iff]
    intro hc
    simp [hc p h2] at h1

theorem refuseDevice_eq_error (s : State) (ps : List Nat) (e : Stop) (h : s.refuseDevice ps = .error e) :
    ∃ p ∈ ps, s.inDevice p = true ∧ e = .refused (.deviceAccess p) := by
  unfold State.refuseDevice at h
  split at h
  · rename_i p hp
    exact ⟨p, List.mem_of_find?_eq_some hp, List.find?_some hp, by simpa using h.symm⟩
  · cases h

theorem refuseText_eq_ok (s : State) (ps : List Nat) (u : Unit) :
    s.refuseText ps = .ok u ↔ ∀ p ∈ ps, s.inText p = false := by
  unfold State.refuseText
  cases h : ps.find? s.inText with
  | none => simpa using h
  | some p =>
    have h1 := List.find?_some h
    have h2 := List.mem_of_find?_eq_some h
    simp only [reduceCtorEq, false_iff]
    intro hc
    simp [hc p h2] at h1

theorem refuseText_eq_error (s : State) (ps : List Nat) (e : Stop) (h : s.refuseText ps = .error e) :
    ∃ p ∈ ps, s.inText p = true ∧ e = .refused (.storeToText p) := by
  unfold State.refuseText at h
  split at h
  · rename_i p hp
    exact ⟨p, List.mem_of_find?_eq_some hp, List.find?_some hp, by simpa using h.symm⟩
  · cases h

/-- A read answers its bytes exactly when its checks hold and no byte belongs to a device. -/
theorem memRead_eq_ok (s : State) (seg : Seg) (off : Dword) (n : Nat) (bs : List Byte) :
    memRead s seg off n = .ok bs ↔
      ∃ ps, accessCheck s.cpu seg off n .read = .ok ps ∧ (∀ p ∈ ps, s.inDevice p = false) ∧
        bs = s.operandBytes (alignedQuad (s.cpu.linear seg off 0) n) 0 ps := by
  unfold memRead
  simp only [bind_eq_ok, access_eq_ok, refuseDevice_eq_ok]
  constructor
  · rintro ⟨ps, h1, u, h2, h3⟩
    exact ⟨ps, h1, h2, by simpa using h3.symm⟩
  · rintro ⟨ps, h1, h2, rfl⟩
    exact ⟨ps, h1, (), h2, rfl⟩

/-- A store answers a state exactly when no byte of it belongs to a device and none of its destination to the
program text; then its records stand at the end of `pending`. -/
theorem store_eq_ok (s t : State) (quad : Bool) (dst : List Nat) (cells : List (Nat × Byte)) :
    s.store quad dst cells = .ok t ↔
      (∀ c ∈ cells, s.inDevice c.1 = false) ∧ (∀ p ∈ dst, s.inText p = false) ∧
        t = s.addPending (storeRecords s.cpu.epoch quad 0 cells) := by
  unfold State.store
  simp only [bind_eq_ok, refuseDevice_eq_ok, refuseText_eq_ok]
  constructor
  · rintro ⟨_, h1, _, h2, h3⟩
    exact ⟨fun c hc => h1 _ (List.mem_map_of_mem hc), h2, by simpa using h3.symm⟩
  · rintro ⟨h1, h2, rfl⟩
    refine ⟨(), fun p hp => ?_, (), h2, rfl⟩
    obtain ⟨c, hc, rfl⟩ := List.mem_map.mp hp
    exact h1 c hc

theorem memWrite_eq_ok (s t : State) (seg : Seg) (off : Dword) (v : Quad) :
    memWrite s seg off v = .ok t ↔
      ∃ ps, accessCheck s.cpu seg off 8 .write = .ok ps ∧
        s.store (alignedQuad (s.cpu.linear seg off 0) 8) ps (quadCells ps v) = .ok t := by
  unfold memWrite
  simp only [bind_eq_ok, access_eq_ok]

theorem storeSelected_eq_ok (s t : State) (seg : Seg) (off : Dword) (v mask : Quad) :
    s.storeSelected seg off v mask = .ok t ↔
      ∃ ps, accessCheck s.cpu seg off 8 .write = .ok ps ∧
        s.store false ps (selectedCells mask 0 (quadCells ps v)) = .ok t := by
  unfold State.storeSelected
  simp only [bind_eq_ok, access_eq_ok]

/-- What stops the store of the selected bytes counts, but for an all-zero mask, where `maskmov_zero_mask_faults`
says (41_streaming_stores.md R93). -/
theorem memWriteMasked_error {s : State} {seg : Seg} {off : Dword} {v mask : Quad} {e : Stop}
    (h : s.storeSelected seg off v mask = .error e) :
    memWriteMasked s seg off v mask =
      if byteMask mask != 0 || Config.maskmovZeroMaskFaults then .error e else .ok s := by
  unfold memWriteMasked
  rw [h]
  by_cases hm : byteMask mask = 0
  · cases Config.maskmovZeroMaskFaults <;> simp [hm]
  · have hm' : ¬byteMask mask = 0#8 := hm
    simp [hm']

theorem memWriteMasked_eq_ok (s t : State) (seg : Seg) (off : Dword) (v mask : Quad) :
    memWriteMasked s seg off v mask = .ok t ↔
      s.storeSelected seg off v mask = .ok t ∨
      ((∃ e, s.storeSelected seg off v mask = .error e) ∧ byteMask mask = 0 ∧
        Config.maskmovZeroMaskFaults = false ∧ t = s) := by
  cases h : s.storeSelected seg off v mask with
  | ok u => simp [memWriteMasked, h]
  | error e =>
    rw [memWriteMasked_error h]
    by_cases hm : byteMask mask = 0
    · cases Config.maskmovZeroMaskFaults
      · simp [hm]
        exact eq_comm
      · simp [hm]
    · have hm' : ¬byteMask mask = 0#8 := hm
      simp [hm']

/-! ## The meanings' shapes -/

/-- The shape of the two-operand instructions completes exactly when the instruction may run and its source
can be read; then the destination holds the function's value. -/
theorem mmxCompute_eq_next (f : Quad → Quad → Quad) (p : Pfx) (d : MmReg) (src : RM MmReg) (last : Nat)
    (s t : State) :
    mmxCompute f p d src last s = .next t ↔
      MmxReady s ∧ ∃ v, quadSource s p src = .ok v ∧
        t = (s.setMm d (f (s.mm d) v)).retireMmx (lengthOf p (rmLength src) last) := by
  unfold mmxCompute
  simp only [conclude_eq_next, bind_eq_ok, mmxChecks_eq_ok]
  constructor
  · rintro ⟨_, h, v, hv, ht⟩
    exact ⟨h, v, hv, by simpa using ht.symm⟩
  · rintro ⟨h, v, hv, rfl⟩
    exact ⟨(), h, v, hv, rfl⟩

theorem execPf2iw_eq_next (p : Pfx) (d : MmReg) (src : RM MmReg) (s t : State) :
    execPf2iw p d src s = .next t ↔
      MmxReady s ∧ ∃ v, quadSource s p src = .ok v ∧
        t = ((s.setMm d (floatsToInts s.draws v)).draw 2).retireMmx (lengthOf p (rmLength src) 1) := by
  unfold execPf2iw
  simp only [conclude_eq_next, bind_eq_ok, mmxChecks_eq_ok]
  constructor
  · rintro ⟨_, h, v, hv, ht⟩
    exact ⟨h, v, hv, by simpa using ht.symm⟩
  · rintro ⟨h, v, hv, rfl⟩
    exact ⟨(), h, v, hv, rfl⟩

theorem execPextrw_eq_next (p : Pfx) (d : IntReg) (r : MmReg) (imm : Byte) (s t : State) :
    execPextrw p d r imm s = .next t ↔
      MmxReady s ∧
        t = (s.setX d ((wordLane (s.mm r) (wordIndex imm)).setWidth 32)).retireMmx (lengthOf p 0 1) := by
  unfold execPextrw
  simp only [conclude_eq_next, bind_eq_ok, mmxChecks_eq_ok]
  simp [eq_comm]

theorem execPmovmskb_eq_next (p : Pfx) (d : IntReg) (r : MmReg) (s t : State) :
    execPmovmskb p d r s = .next t ↔
      MmxReady s ∧ t = (s.setX d ((byteMask (s.mm r)).setWidth 32)).retireMmx (lengthOf p 0 0) := by
  unfold execPmovmskb
  simp only [conclude_eq_next, bind_eq_ok, mmxChecks_eq_ok]
  simp [eq_comm]

theorem execPinsrw_eq_next (p : Pfx) (d : MmReg) (src : RM IntReg) (imm : Byte) (s t : State) :
    execPinsrw p d src imm s = .next t ↔
      MmxReady s ∧ ∃ w, wordSource s p src = .ok w ∧
        t = (s.setMm d (insertWord (s.mm d) (wordIndex imm) w)).retireMmx (lengthOf p (rmLength src) 1) := by
  unfold execPinsrw
  simp only [conclude_eq_next, bind_eq_ok, mmxChecks_eq_ok]
  constructor
  · rintro ⟨_, h, v, hv, ht⟩
    exact ⟨h, v, hv, by simpa using ht.symm⟩
  · rintro ⟨h, v, hv, rfl⟩
    exact ⟨(), h, v, hv, rfl⟩

theorem execMovntq_eq_next (p : Pfx) (dst : MemRef) (r : MmReg) (s t : State) :
    execMovntq p dst r s = .next t ↔
      MmxReady s ∧ ∃ u, memWrite s (operandSeg p dst) (effectiveAddress s.cpu dst) (s.mm r) = .ok u ∧
        t = u.retireMmx (lengthOf p (memLength dst) 0) := by
  unfold execMovntq
  simp only [conclude_eq_next, bind_eq_ok, mmxChecks_eq_ok]
  constructor
  · rintro ⟨_, h, v, hv, ht⟩
    exact ⟨h, v, hv, by simpa using ht.symm⟩
  · rintro ⟨h, v, hv, rfl⟩
    exact ⟨(), h, v, hv, rfl⟩

theorem execMaskmovq_eq_next (p : Pfx) (d m : MmReg) (s t : State) :
    execMaskmovq p d m s = .next t ↔
      MmxReady s ∧ ∃ u, memWriteMasked s (maskmovSeg p) (maskmovOffset s.cpu p) (s.mm d) (s.mm m) = .ok u ∧
        t = u.retireMmx (lengthOf p 0 0) := by
  unfold execMaskmovq
  simp only [conclude_eq_next, bind_eq_ok, mmxChecks_eq_ok]
  constructor
  · rintro ⟨_, h, v, hv, ht⟩
    exact ⟨h, v, hv, by simpa using ht.symm⟩
  · rintro ⟨h, v, hv, rfl⟩
    exact ⟨(), h, v, hv, rfl⟩

theorem prefetchHint_eq (p : Pfx) (m : MemRef) (s : State) :
    prefetchHint p m s = .next (s.advance (lengthOf p (memLength m) 0)) := rfl

theorem execSfence_eq (p : Pfx) (s : State) :
    execSfence p s = .next (s.bumpEpoch.advance (lengthOf p 0 0)) := rfl

end Sys2Proof.Machine
end

