-- ==== Sys2Proof/Laws/PerInstr.lean ====
section
/-! SUPPORT. A law of every instruction, one lemma a constructor: the length formula of 30_encoding.md R55
counts the bytes that the encoder writes. -/

namespace Sys2Proof.Laws

open Sys2Proof

theorem length_pfxBytes (p : Pfx) : (pfxBytes p).length = pfxLength p := by cases p <;> rfl

theorem length_disp32Bytes (d : Disp32) : (disp32Bytes d).length = disp32Length d := by cases d <;> rfl

theorem length_disp16Bytes (d : Disp16) : (disp16Bytes d).length = disp16Length d := by cases d <;> rfl

theorem length_encodeMem (r : BitVec 3) (m : MemRef) : (encodeMem r m).length = memLength m + 1 := by
  rcases m with (⟨_, d⟩ | _ | ⟨_, _, _, d⟩ | _) | (⟨_, d⟩ | _) <;>
    simp [encodeMem, encodeMem32, encodeMem16, memLength, bytes4, bytes2, length_disp32Bytes,
      length_disp16Bytes]
  omega

theorem length_encodeRM {ρ : Type} (bits : ρ → BitVec 3) (r : BitVec 3) (src : RM ρ) :
    (encodeRM bits r src).length = rmLength src + 1 := by
  cases src with
  | reg _ => rfl
  | mem m => exact length_encodeMem r m

theorem length_encodeRMForm (p : Pfx) (op2 : Byte) (d : MmReg) (src : RM MmReg) :
    (encodeRMForm p op2 d src).length = lengthOf p (rmLength src) 0 := by
  simp [encodeRMForm, lengthOf, length_pfxBytes, length_encodeRM]
  omega

theorem length_encode3DN (p : Pfx) (op3 : Byte) (d : MmReg) (src : RM MmReg) :
    (encode3DN p op3 d src).length = lengthOf p (rmLength src) 1 := by
  simp [encode3DN, length_encodeRMForm, lengthOf]

theorem length_encodePrefetch (p : Pfx) (ext : BitVec 3) (m : MemRef) :
    (encodePrefetch p ext m).length = lengthOf p (memLength m) 0 := by
  simp [encodePrefetch, lengthOf, length_pfxBytes, length_encodeMem]
  omega

namespace LengthAgrees

/-- The encoder writes as many bytes as R55's formula says. -/
abbrev Statement (i : Instr) : Prop := (encode i).length = instrLength i

theorem pf2iw (p : Pfx) (d : MmReg) (src : RM MmReg) :
    Statement (.pf2iw p d src) := length_encode3DN _ _ _ _

theorem pfnacc (p : Pfx) (d : MmReg) (src : RM MmReg) :
    Statement (.pfnacc p d src) := length_encode3DN _ _ _ _

theorem pfpnacc (p : Pfx) (d : MmReg) (src : RM MmReg) :
    Statement (.pfpnacc p d src) := length_encode3DN _ _ _ _

theorem pi2fw (p : Pfx) (d : MmReg) (src : RM MmReg) :
    Statement (.pi2fw p d src) := length_encode3DN _ _ _ _

theorem pswapd (p : Pfx) (d : MmReg) (src : RM MmReg) :
    Statement (.pswapd p d src) := length_encode3DN _ _ _ _

theorem maskmovq (p : Pfx) (d m : MmReg) :
    Statement (.maskmovq p d m) := length_encodeRMForm _ _ _ _

theorem movntq (p : Pfx) (dst : MemRef) (r : MmReg) :
    Statement (.movntq p dst r) := length_encodeRMForm _ _ _ _

theorem pavgb (p : Pfx) (d : MmReg) (src : RM MmReg) :
    Statement (.pavgb p d src) := length_encodeRMForm _ _ _ _

theorem pavgw (p : Pfx) (d : MmReg) (src : RM MmReg) :
    Statement (.pavgw p d src) := length_encodeRMForm _ _ _ _

theorem pextrw (p : Pfx) (d : IntReg) (r : MmReg) (imm : Byte) :
    Statement (.pextrw p d r imm) := by
  simp [Statement, encode, instrLength, lengthOf, length_pfxBytes]

theorem pinsrw (p : Pfx) (d : MmReg) (src : RM IntReg) (imm : Byte) :
    Statement (.pinsrw p d src imm) := by
  simp [Statement, encode, instrLength, lengthOf, length_pfxBytes, length_encodeRM]
  omega

theorem pmaxsw (p : Pfx) (d : MmReg) (src : RM MmReg) :
    Statement (.pmaxsw p d src) := length_encodeRMForm _ _ _ _

theorem pmaxub (p : Pfx) (d : MmReg) (src : RM MmReg) :
    Statement (.pmaxub p d src) := length_encodeRMForm _ _ _ _

theorem pminsw (p : Pfx) (d : MmReg) (src : RM MmReg) :
    Statement (.pminsw p d src) := length_encodeRMForm _ _ _ _

theorem pminub (p : Pfx) (d : MmReg) (src : RM MmReg) :
    Statement (.pminub p d src) := length_encodeRMForm _ _ _ _

theorem pmovmskb (p : Pfx) (d : IntReg) (r : MmReg) :
    Statement (.pmovmskb p d r) := by
  simp [Statement, encode, instrLength, lengthOf, length_pfxBytes]

theorem pmulhuw (p : Pfx) (d : MmReg) (src : RM MmReg) :
    Statement (.pmulhuw p d src) := length_encodeRMForm _ _ _ _

theorem prefetchnta (p : Pfx) (m : MemRef) :
    Statement (.prefetchnta p m) := length_encodePrefetch _ _ _

theorem prefetcht0 (p : Pfx) (m : MemRef) :
    Statement (.prefetcht0 p m) := length_encodePrefetch _ _ _

theorem prefetcht1 (p : Pfx) (m : MemRef) :
    Statement (.prefetcht1 p m) := length_encodePrefetch _ _ _

theorem prefetcht2 (p : Pfx) (m : MemRef) :
    Statement (.prefetcht2 p m) := length_encodePrefetch _ _ _

theorem psadbw (p : Pfx) (d : MmReg) (src : RM MmReg) :
    Statement (.psadbw p d src) := length_encodeRMForm _ _ _ _

theorem pshufw (p : Pfx) (d : MmReg) (src : RM MmReg) (imm : Byte) :
    Statement (.pshufw p d src imm) := by
  simp [Statement, encode, instrLength, length_encodeRMForm, lengthOf]

theorem sfence (p : Pfx) :
    Statement (.sfence p) := by
  simp [Statement, encode, instrLength, lengthOf, length_pfxBytes]

end LengthAgrees

end Sys2Proof.Laws
end

