-- ==== Sys2Proof/Laws/Lanes.lean ====
section
/-! SUPPORT. The lanes of a value built from lanes, and of a value built from bytes. -/

namespace Sys2Proof.Machine

@[simp] theorem byteLane_ofByteLanes (l : Nat → Byte) {k : Nat} (h : k < 8) :
    byteLane (ofByteLanes l) k = l k := by
  ext i hi
  have : k = 0 ∨ k = 1 ∨ k = 2 ∨ k = 3 ∨ k = 4 ∨ k = 5 ∨ k = 6 ∨ k = 7 := by omega
  rcases this with rfl | rfl | rfl | rfl | rfl | rfl | rfl | rfl <;>
    simp [byteLane, ofByteLanes] <;> grind

@[simp] theorem wordLane_ofWordLanes (l : Nat → Word16) {k : Nat} (h : k < 4) :
    wordLane (ofWordLanes l) k = l k := by
  ext i hi
  have : k = 0 ∨ k = 1 ∨ k = 2 ∨ k = 3 := by omega
  rcases this with rfl | rfl | rfl | rfl <;>
    simp [wordLane, ofWordLanes] <;> grind

@[simp] theorem dwordLane_zero_ofDwordLanes (high low : Dword) :
    dwordLane (ofDwordLanes high low) 0 = low := by
  ext i hi
  simp [dwordLane, ofDwordLanes]
  grind

@[simp] theorem dwordLane_one_ofDwordLanes (high low : Dword) :
    dwordLane (ofDwordLanes high low) 1 = high := by
  ext i hi
  simp [dwordLane, ofDwordLanes]
  grind

@[simp] theorem byteLane_mapBytes (f : Byte → Byte → Byte) (a b : Quad) {k : Nat} (h : k < 8) :
    byteLane (mapBytes f a b) k = f (byteLane a k) (byteLane b k) := by
  simp [mapBytes, h]

@[simp] theorem wordLane_mapWords (f : Word16 → Word16 → Word16) (a b : Quad) {k : Nat} (h : k < 4) :
    wordLane (mapWords f a b) k = f (wordLane a k) (wordLane b k) := by
  simp [mapWords, h]

/-! ## Values of bytes -/

theorem littleEndian_lt (bs : List Byte) : littleEndian bs < 256 ^ bs.length := by
  induction bs with
  | nil => simp [littleEndian]
  | cons b bs ih =>
    have hb : b.toNat < 256 := b.isLt
    rw [littleEndian, List.length_cons, Nat.pow_succ]
    omega

/-- Byte `k` of the number that a list of bytes stands for is the list's byte `k` (20_memory.md R31). -/
theorem littleEndian_byte (bs : List Byte) (k : Nat) :
    littleEndian bs / 256 ^ k % 256 = (bs[k]?.getD 0).toNat := by
  induction bs generalizing k with
  | nil => simp [littleEndian]
  | cons b bs ih =>
    have hb : b.toNat < 256 := b.isLt
    cases k with
    | zero => simp [littleEndian]; omega
    | succ k =>
      rw [littleEndian, Nat.pow_succ, Nat.mul_comm (256 ^ k), ← Nat.div_div_eq_div_mul,
        show (b.toNat + 256 * littleEndian bs) / 256 = littleEndian bs by omega, ih k]
      simp

/-- Byte lane `k` of eight bytes at ascending addresses is the byte at place `k` (20_memory.md R31). -/
theorem byteLane_quadOfBytes (bs : List Byte) {k : Nat} (h : k < 8) :
    byteLane (quadOfBytes bs) k = bs[k]?.getD 0 := by
  apply BitVec.eq_of_toNat_eq
  rw [← littleEndian_byte]
  have h256 : (2 : Nat) ^ (8 * k) = 256 ^ k := by rw [Nat.pow_mul]
  rw [byteLane, quadOfBytes, BitVec.extractLsb'_toNat, BitVec.toNat_ofNat, Nat.shiftRight_eq_div_pow, h256]
  have : (2 : Nat) ^ 64 = 256 ^ k * 256 ^ (8 - k) := by rw [← Nat.pow_add, show k + (8 - k) = 8 by omega]; rfl
  rw [this, Nat.mod_mul_right_div_self]
  have h2 : (256 : Nat) ^ (8 - k) = 256 * 256 ^ (7 - k) := by
    rw [← Nat.pow_succ', show (7 - k).succ = 8 - k by omega]
  rw [h2, Nat.mod_mul_right_mod]

/-- Bit `k` of eight bits put together, the last one lowest. -/
theorem getLsbD_eight (b7 b6 b5 b4 b3 b2 b1 b0 : Bool) (k : Fin 8) :
    BitVec.getLsbD (w := 8) (BitVec.ofBool b7 ++ BitVec.ofBool b6 ++ BitVec.ofBool b5 ++ BitVec.ofBool b4 ++
      BitVec.ofBool b3 ++ BitVec.ofBool b2 ++ BitVec.ofBool b1 ++ BitVec.ofBool b0) k =
    [b0, b1, b2, b3, b4, b5, b6, b7][k] := by
  fin_cases k <;> revert b7 b6 b5 b4 b3 b2 b1 b0 <;> decide

/-- Bit `k` of the byte of top bits is the top bit of byte `k` (42_packed_integer_a.md R107). -/
theorem getLsbD_byteMask (v : Quad) (k : Nat) :
    (byteMask v).getLsbD k = (decide (k < 8) && v.getLsbD (8 * k + 7)) := by
  by_cases hk : k < 8
  · have h := getLsbD_eight (topBit v 7) (topBit v 6) (topBit v 5) (topBit v 4) (topBit v 3) (topBit v 2)
      (topBit v 1) (topBit v 0) ⟨k, hk⟩
    rw [byteMask, h]
    have : k = 0 ∨ k = 1 ∨ k = 2 ∨ k = 3 ∨ k = 4 ∨ k = 5 ∨ k = 6 ∨ k = 7 := by omega
    rcases this with rfl | rfl | rfl | rfl | rfl | rfl | rfl | rfl <;> rfl
  · rw [BitVec.getLsbD_of_ge _ k (by omega)]
    simp [hk]

end Sys2Proof.Machine
end

