-- ==== Sys2Proof/Laws/Stores.lean ====
section
/-! SUPPORT. The cells of a store, the cells a mask selects, and what the agent sees of their records. -/

namespace Sys2Proof.Machine

/-- Cell `j` of a 64-bit value: its address and its byte lane (20_memory.md R31). -/
theorem quadCells_get (ps : List Nat) (v : Quad) (j : Nat) (c : Nat × Byte) :
    (quadCells ps v)[j]? = some c ↔ ps[j]? = some c.1 ∧ j < 8 ∧ c.2 = byteLane v j := by
  obtain ⟨a, b⟩ := c
  rw [quadCells, List.getElem?_zip_eq_some, List.getElem?_map]
  by_cases hj : j < 8
  · rw [List.getElem?_range hj]
    simp [hj, eq_comm]
  · rw [List.getElem?_eq_none (l := List.range 8) (by simpa using hj)]
    simp [hj]

theorem quadCells_mem {ps : List Nat} {v : Quad} {c : Nat × Byte} (h : c ∈ quadCells ps v) : c.1 ∈ ps := by
  obtain ⟨j, hj⟩ := List.mem_iff_getElem?.mp h
  exact List.mem_of_getElem? ((quadCells_get ..).mp hj).1

/-- A cell is selected when it stands at a place whose mask bit is 1 (20_memory.md R38). -/
theorem mem_selectedCells (mask : Quad) (k : Nat) (cs : List (Nat × Byte)) (c : Nat × Byte) :
    c ∈ selectedCells mask k cs ↔ ∃ j, cs[j]? = some c ∧ topBit mask (k + j) = true := by
  induction cs generalizing k with
  | nil => simp [selectedCells]
  | cons d cs ih =>
    have e : (∃ j, (d :: cs)[j]? = some c ∧ topBit mask (k + j) = true) ↔
        (d = c ∧ topBit mask k = true) ∨ ∃ j, cs[j]? = some c ∧ topBit mask (k + 1 + j) = true := by
      constructor
      · rintro ⟨j, h1, h2⟩
        cases j with
        | zero => exact .inl ⟨by simpa using h1, by simpa using h2⟩
        | succ j => exact .inr ⟨j, by simpa using h1, by rwa [show k + 1 + j = k + (j + 1) by omega]⟩
      · rintro (⟨rfl, h⟩ | ⟨j, h1, h2⟩)
        · exact ⟨0, by simp, by simpa using h⟩
        · exact ⟨j + 1, by simpa using h1, by rwa [show k + (j + 1) = k + 1 + j by omega]⟩
    rw [e, selectedCells]
    split <;> rename_i ht
    · rw [List.mem_cons, ih]
      exact or_congr_left ⟨fun hc => ⟨hc.symm, ht⟩, fun hc => hc.1.symm⟩
    · rw [ih]
      exact ⟨.inr, fun hc => hc.resolve_left fun hd => ht hd.2⟩

theorem selectedCells_subset {mask : Quad} {k : Nat} {cs : List (Nat × Byte)} {c : Nat × Byte}
    (h : c ∈ selectedCells mask k cs) : c ∈ cs := by
  obtain ⟨j, hj, _⟩ := (mem_selectedCells ..).mp h
  exact List.mem_of_getElem? hj

/-- The mask is all zero when no byte of it has its top bit 1 (42_packed_integer_a.md R107). -/
theorem byteMask_eq_zero (mask : Quad) : byteMask mask = 0 ↔ ∀ k < 8, topBit mask k = false := by
  constructor
  · intro h k hk
    have hb := getLsbD_byteMask mask k
    rw [h] at hb
    simpa [topBit, hk] using hb.symm
  · intro h
    apply BitVec.eq_of_getLsbD_eq
    intro k hk
    rw [getLsbD_byteMask]
    have ht := h k hk
    rw [topBit] at ht
    simp [ht]

/-- With an all-zero mask no cell of eight bytes is selected. -/
theorem selectedCells_zero {mask : Quad} (h : byteMask mask = 0) (ps : List Nat) (v : Quad) :
    selectedCells mask 0 (quadCells ps v) = [] := by
  refine List.eq_nil_iff_forall_not_mem.mpr fun c hc => ?_
  obtain ⟨j, hj, ht⟩ := (mem_selectedCells ..).mp hc
  have hz := (byteMask_eq_zero mask).mp h j ((quadCells_get ..).mp hj).2.1
  rw [Nat.zero_add, hz] at ht
  cases ht

/-- The address and byte of a record of a store are a cell of it. -/
theorem storeRecords_cell (e : Nat) (quad : Bool) (k : Nat) (cs : List (Nat × Byte)) :
    ∀ r ∈ storeRecords e quad k cs, (r.addr, r.byte) ∈ cs := by
  intro r hr
  have h := List.mem_map_of_mem (f := fun r : Record => (r.addr, r.byte)) hr
  rwa [storeRecords_map] at h

/-- Where the cells of a store say one byte for an address, that byte is the newest pending one. -/
theorem newestPending_storeRecords (e : Nat) (quad : Bool) (k : Nat) (cs : List (Nat × Byte)) (p : Nat)
    (b : Byte) (h : (p, b) ∈ cs) (hu : ∀ c ∈ cs, c.1 = p → c.2 = b) :
    newestPending (storeRecords e quad k cs) p = some b := by
  induction cs generalizing k with
  | nil => cases h
  | cons c cs ih =>
    obtain ⟨q, d⟩ := c
    simp only [storeRecords, newestPending_cons]
    by_cases hm : (p, b) ∈ cs
    · rw [ih _ hm fun c hc => hu c (List.mem_cons_of_mem _ hc)]
      rfl
    · rcases List.mem_cons.mp h with h | h
      · cases h
        rw [newestPending_none]
        · simp
        · intro r hr he
          have hc := storeRecords_cell _ _ _ _ r hr
          have hb := hu _ (List.mem_cons_of_mem _ hc) he
          simp only at hb
          rw [he, hb] at hc
          exact hm hc
      · exact absurd h hm

end Sys2Proof.Machine
end

