-- ==== Sys2Proof/Laws/Translate.lean ====
section
/-! SUPPORT. What the checks of an access can answer. -/

namespace Sys2Proof.Machine

/-- The page check answers one physical address a byte. -/
theorem pageCheck_length (a : Agent) (seg : Seg) (off : Dword) (kind : Access) (k n : Nat) (ps : List Nat)
    (h : pageCheck a seg off kind k n = .ok ps) : ps.length = n := by
  induction n generalizing k ps with
  | zero => simp [pageCheck] at h; simp [← h]
  | succ n ih =>
    rw [pageCheck] at h
    split at h
    · cases h
    · split at h
      · rename_i qs hq
        simp at h
        simp [← h, ih _ _ hq]
      · cases h

/-- Place `j` of the page check's answer is the physical address of byte `k + j`. -/
theorem pageCheck_physical (a : Agent) (seg : Seg) (off : Dword) (kind : Access) (k n : Nat)
    (ps : List Nat) (h : pageCheck a seg off kind k n = .ok ps) :
    ∀ j, ∀ hj : j < ps.length, a.physical kind (a.linear seg off (k + j)) = some ps[j] := by
  induction n generalizing k ps with
  | zero =>
    simp only [pageCheck, Except.ok.injEq] at h
    subst h
    intro j hj
    cases hj
  | succ n ih =>
    rw [pageCheck] at h
    split at h
    · cases h
    · rename_i p hp
      split at h
      · rename_i qs hq
        simp at h
        subst h
        intro j hj
        cases j with
        | zero => simpa using hp
        | succ j =>
          have := ih (k + 1) qs hq j (by simpa using hj)
          simpa [Nat.add_assoc, Nat.add_comm 1 j] using this
      · cases h

/-- The page check raises nothing but a page fault, at a byte of the operand. -/
theorem pageCheck_error (a : Agent) (seg : Seg) (off : Dword) (kind : Access) (k n : Nat) (x : Exn)
    (h : pageCheck a seg off kind k n = .error x) :
    ∃ j, k ≤ j ∧ j < k + n ∧ a.physical kind (a.linear seg off j) = none ∧
      x = .pageFault (a.linear seg off j) := by
  induction n generalizing k with
  | zero => simp [pageCheck] at h
  | succ n ih =>
    rw [pageCheck] at h
    split at h
    · rename_i hp
      simp at h
      exact ⟨k, le_refl _, by omega, hp, h.symm⟩
    · split at h
      · cases h
      · rename_i e he
        simp at h
        subst h
        obtain ⟨j, h1, h2, h3⟩ := ih (k + 1) he
        exact ⟨j, by omega, by omega, h3⟩

/-- An access answers one physical address a byte. -/
theorem accessCheck_length {a : Agent} {seg : Seg} {off : Dword} {n : Nat} {kind : Access} {ps : List Nat}
    (h : accessCheck a seg off n kind = .ok ps) : ps.length = n := by
  unfold accessCheck translate at h
  split at h
  · cases h
  · rename_i qs hq
    split at h
    · cases h
    · simp at h
      subst h
      split at hq
      · cases hq
      · exact pageCheck_length _ _ _ _ _ _ _ hq

/-! ## The bytes of an access lie at different addresses -/

theorem linear_toNat (a : Agent) (seg : Seg) (off : Dword) (k : Nat) :
    (a.linear seg off k).toNat = ((a.linear seg off 0).toNat + k) % 2 ^ 32 := by
  simp only [Agent.linear, BitVec.toNat_add, BitVec.toNat_ofNat]
  omega

/-- A physical address says the place in its page. -/
theorem physical_inj (a : Agent) (kind : Access) (x y : Dword) (p : Nat)
    (hx : a.physical kind x = some p) (hy : a.physical kind y = some p) :
    x.toNat % 4096 = y.toNat % 4096 := by
  unfold Agent.physical at hx hy
  split at hx <;> split at hy <;> simp_all
  all_goals (try (split at hx <;> split at hy <;> simp_all))
  all_goals omega

theorem pageCheck_inj (a : Agent) (seg : Seg) (off : Dword) (kind : Access) (n : Nat) (hn : n ≤ 4096)
    (ps : List Nat) (h : pageCheck a seg off kind 0 n = .ok ps) (i j : Nat) (hi : i < ps.length)
    (hj : j < ps.length) (he : ps[i] = ps[j]) : i = j := by
  have h1 := pageCheck_physical _ _ _ _ _ _ _ h i hi
  have h2 := pageCheck_physical _ _ _ _ _ _ _ h j hj
  rw [he] at h1
  have := physical_inj _ _ _ _ _ h1 h2
  rw [linear_toNat, linear_toNat a seg off (0 + j)] at this
  have hl := pageCheck_length _ _ _ _ _ _ _ h
  omega

/-- The physical addresses of an access of at most a page are all different. -/
theorem accessCheck_nodup {a : Agent} {seg : Seg} {off : Dword} {n : Nat} {kind : Access} {ps : List Nat}
    (hn : n ≤ 4096) (h : accessCheck a seg off n kind = .ok ps) : ps.Nodup := by
  unfold accessCheck Machine.translate at h
  split at h
  · cases h
  · rename_i qs hq
    split at h
    · cases h
    · simp at h
      subst h
      split at hq
      · cases hq
      · rw [List.nodup_iff_injective_get]
        intro i j hij
        exact Fin.ext (pageCheck_inj _ _ _ _ _ hn _ hq i j i.isLt j.isLt hij)

/-- The exceptions an access can answer, by mode (20_memory.md R35 to R37, R42). -/
theorem accessCheck_error_cases (a : Agent) (seg : Seg) (off : Dword) (n : Nat) (kind : Access) (x : Exn)
    (h : accessCheck a seg off n kind = .error x) :
    (a.mode = .protectedMode ∧ (x = .stackException ∨ x = .generalProtection)) ∨
    (a.mode ≠ .protectedMode ∧ x = .segmentOverrun) ∨
    (a.mode ≠ .realAddress ∧ x = .alignmentCheck) ∨
    (a.mode ≠ .realAddress ∧ ∃ lin, x = .pageFault lin) := by
  unfold accessCheck Machine.translate at h
  split at h
  · rename_i e he
    cases h
    split at he
    · rename_i e' he'
      cases he
      unfold segCheck at he'
      split at he'
      · rename_i hm
        simp only at he'
        refine .inl ⟨hm, ?_⟩
        repeat' split at he'
        all_goals simp_all
      · rename_i hm
        refine .inr (.inl ⟨by simpa using hm, ?_⟩)
        split at he' <;> simp_all
    · obtain ⟨j, _, _, hp, hx⟩ := pageCheck_error _ _ _ _ _ _ _ he
      refine .inr (.inr (.inr ⟨?_, _, hx⟩))
      intro hm
      simp [Agent.physical, hm] at hp
  · split at h
    · rename_i ha
      cases h
      simp [alignFault, Agent.alignmentChecked] at ha
      exact .inr (.inr (.inl ⟨ha.1.1.1.1, rfl⟩))
    · cases h

end Sys2Proof.Machine
end

