-- ==== Sys2Proof/Laws/Exec.lean ====
section
/-! SUPPORT. Said once: what any instruction that completes has done to the machine. -/

namespace Sys2Proof.Machine

@[simp] theorem State.draw_zero (s : State) : s.draw 0 = s := rfl
@[simp] theorem State.addPending_nil (s : State) : s.addPending [] = s := by simp [State.addPending]

theorem quadCells_addresses (ps : List Nat) (v : Quad) (h : ps.length = 8) : (quadCells ps v).map Prod.fst = ps := by
  simp [quadCells, List.map_fst_zip, h]

/-- Where no mask bit is 1 MASKMOVQ stores to no address (41_streaming_stores.md R93). -/
theorem storedAddresses_zeroMask {s : State} {m : MmReg} (p : Pfx) (d : MmReg) (h : byteMask (s.mm m) = 0) :
    storedAddresses s (.maskmovq p d m) = [] := by
  unfold storedAddresses
  dsimp only
  split
  · rw [selectedCells_zero h, List.map_nil]
  · rfl

/-- The shapes a completed instruction has, with `n` its length: it wrote an MMX register, or an integer
register, or stored, or is one of the five that run no check. -/
inductive Completed (i : Instr) (s t : State) (n : Nat) : Prop where
  | writesMm (d : MmReg) (v : Quad) (k : Nat) (hr : runsNoCheck i = false) (hd : destMm i = some d)
      (hx : destInt i = none) (hs : storedAddresses s i = []) (hk : (∃ p d src, i = .pf2iw p d src) ∨ k = 0)
      (h : t = ((s.setMm d v).draw k).retireMmx n)
  | writesX (d : IntReg) (v : Dword) (hr : runsNoCheck i = false) (hd : destMm i = none)
      (hx : destInt i = some d) (hs : storedAddresses s i = []) (h : t = (s.setX d v).retireMmx n)
  | stores (quad : Bool) (cells : List (Nat × Byte)) (hr : runsNoCheck i = false) (hd : destMm i = none)
      (hx : destInt i = none) (hs : storedAddresses s i = cells.map Prod.fst)
      (hc : ∀ c ∈ cells, s.inDevice c.1 = false ∧ s.inText c.1 = false)
      (hi : (∃ p dst r, i = .movntq p dst r) ∨ ∃ p d m, i = .maskmovq p d m)
      (h : t = (s.addPending (storeRecords s.cpu.epoch quad 0 cells)).retireMmx n)
  | hints (hr : runsNoCheck i = true) (hd : destMm i = none) (hx : destInt i = none)
      (hs : storedAddresses s i = []) (hi : ∀ p, i ≠ .sfence p) (h : t = s.advance n)
  | fences (p : Pfx) (hi : i = .sfence p) (h : t = s.bumpEpoch.advance n)

/-- What a completed instruction has done (00_scope.md R9; 10_state.md R16, R18). -/
theorem exec_completed (i : Instr) (s t : State) (h : exec i s = .next t) :
    Completed i s t (instrLength i) := by
  cases i with
  | pf2iw p d src =>
    obtain ⟨_, v, _, rfl⟩ := (execPf2iw_eq_next p d src s t).mp h
    exact .writesMm d _ 2 rfl rfl rfl rfl (.inl ⟨_, _, _, rfl⟩) rfl
  | pfnacc p d src | pfpnacc p d src | pavgb p d src | pavgw p d src
  | pmaxsw p d src | pmaxub p d src | pminsw p d src | pminub p d src | pmulhuw p d src | psadbw p d src =>
    all_goals
      obtain ⟨_, v, _, rfl⟩ := (mmxCompute_eq_next _ _ _ _ _ s t).mp h
      exact .writesMm d _ 0 rfl rfl rfl rfl (.inr rfl) rfl
  | pi2fw p d src =>
    obtain ⟨_, v, _, rfl⟩ := (mmxCompute_eq_next (fun _ v => intsToFloats v) p d src 1 s t).mp h
    exact .writesMm d _ 0 rfl rfl rfl rfl (.inr rfl) rfl
  | pswapd p d src =>
    obtain ⟨_, v, _, rfl⟩ := (mmxCompute_eq_next (fun _ v => swapDwords v) p d src 1 s t).mp h
    exact .writesMm d _ 0 rfl rfl rfl rfl (.inr rfl) rfl
  | pshufw p d src imm =>
    obtain ⟨_, v, _, rfl⟩ := (mmxCompute_eq_next (fun _ v => shuffleWords v imm) p d src 1 s t).mp h
    exact .writesMm d _ 0 rfl rfl rfl rfl (.inr rfl) rfl
  | pinsrw p d src imm =>
    obtain ⟨_, w, _, rfl⟩ := (execPinsrw_eq_next p d src imm s t).mp h
    exact .writesMm d _ 0 rfl rfl rfl rfl (.inr rfl) rfl
  | pextrw p d r imm =>
    obtain ⟨_, rfl⟩ := (execPextrw_eq_next p d r imm s t).mp h
    exact .writesX d _ rfl rfl rfl rfl rfl
  | pmovmskb p d r =>
    obtain ⟨_, rfl⟩ := (execPmovmskb_eq_next p d r s t).mp h
    exact .writesX d _ rfl rfl rfl rfl rfl
  | movntq p dst r =>
    obtain ⟨_, u, hu, rfl⟩ := (execMovntq_eq_next p dst r s t).mp h
    obtain ⟨ps, hps, hst⟩ := (memWrite_eq_ok ..).mp hu
    obtain ⟨hd, ht, rfl⟩ := (store_eq_ok ..).mp hst
    refine .stores _ _ rfl rfl rfl (by simp [storedAddresses, hps]) (fun c hc => ⟨hd c hc, ht _ ?_⟩)
      (.inl ⟨_, _, _, rfl⟩) rfl
    exact quadCells_mem hc
  | maskmovq p d m =>
    obtain ⟨_, u, hu, rfl⟩ := (execMaskmovq_eq_next p d m s t).mp h
    rcases (memWriteMasked_eq_ok ..).mp hu with hu | ⟨_, hm, _, rfl⟩
    · obtain ⟨ps, hps, hst⟩ := (storeSelected_eq_ok ..).mp hu
      obtain ⟨hd, ht, rfl⟩ := (store_eq_ok ..).mp hst
      exact .stores _ _ rfl rfl rfl (by simp [storedAddresses, hps])
        (fun c hc => ⟨hd c hc, ht _ (quadCells_mem (selectedCells_subset hc))⟩) (.inr ⟨_, _, _, rfl⟩) rfl
    · exact .stores false [] rfl rfl rfl (storedAddresses_zeroMask p d hm) (by simp) (.inr ⟨_, _, _, rfl⟩)
        (by simp [storeRecords]; rfl)
  | prefetchnta p m | prefetcht0 p m | prefetcht1 p m | prefetcht2 p m =>
    all_goals
      simp only [exec] at h
      exact .hints rfl rfl rfl rfl (by simp) (by
        simpa [execPrefetchnta, execPrefetcht0, execPrefetcht1, execPrefetcht2, prefetchHint, instrLength]
          using h.symm)
  | sfence p =>
    exact .fences p rfl (by simpa [exec, execSfence, instrLength] using h.symm)

/-! ## Why an instruction does not complete -/

/-- Why an access to operand `o` stops with `e`: a failed check or, for a store, a byte of the program text, if they
count, or a byte of a device (20_memory.md R39, R44, R50; 70_reset_and_hazards.md R156). -/
inductive AccessStops (s : State) (o : Operand) (counts : Bool) (e : Stop) : Prop where
  | check (x : Exn) (h : accessCheck s.cpu o.seg o.off o.size o.kind = .error x) (hc : counts = true)
      (he : e = raise x s)
  | device (ps : List Nat) (q : Nat) (h : accessCheck s.cpu o.seg o.off o.size o.kind = .ok ps) (hq : q ∈ ps)
      (hd : s.inDevice q = true) (he : e = .refused (.deviceAccess q))
  | text (ps : List Nat) (q : Nat) (h : accessCheck s.cpu o.seg o.off o.size o.kind = .ok ps) (hq : q ∈ ps)
      (hk : o.kind = .write) (ht : s.inText q = true) (hc : counts = true) (he : e = .refused (.storeToText q))

theorem memRead_stops (s : State) (seg : Seg) (off : Dword) (n : Nat) (e : Stop)
    (h : memRead s seg off n = .error e) :
    AccessStops s { seg := seg, off := off, size := n, kind := .read } true e := by
  unfold memRead at h
  simp only [bind_eq_error, access_eq_error] at h
  rcases h with ⟨x, h1, h2⟩ | ⟨ps, h1, h2 | ⟨_, _, h2⟩⟩
  · exact .check x h1 rfl h2
  · obtain ⟨q, h3, h4, h5⟩ := refuseDevice_eq_error _ _ _ h2
    exact .device ps q ((access_eq_ok ..).mp h1) h3 h4 h5
  · cases h2

theorem store_stops (s : State) (quad : Bool) (dst : List Nat) (cells : List (Nat × Byte)) (e : Stop)
    (h : s.store quad dst cells = .error e) :
    (∃ c ∈ cells, s.inDevice c.1 = true ∧ e = .refused (.deviceAccess c.1)) ∨
      ∃ q ∈ dst, s.inText q = true ∧ e = .refused (.storeToText q) := by
  unfold State.store at h
  simp only [bind_eq_error] at h
  rcases h with h | ⟨_, _, h | ⟨_, _, h⟩⟩
  · obtain ⟨q, h3, h4, h5⟩ := refuseDevice_eq_error _ _ _ h
    obtain ⟨c, hc, rfl⟩ := List.mem_map.mp h3
    exact .inl ⟨c, hc, h4, h5⟩
  · exact .inr (refuseText_eq_error _ _ _ h)
  · cases h

theorem memWrite_stops (s : State) (seg : Seg) (off : Dword) (v : Quad) (e : Stop)
    (h : memWrite s seg off v = .error e) :
    AccessStops s { seg := seg, off := off, size := 8, kind := .write } true e := by
  unfold memWrite at h
  simp only [bind_eq_error, access_eq_error] at h
  rcases h with ⟨x, h1, h2⟩ | ⟨ps, h1, h2⟩
  · exact .check x h1 rfl h2
  · rcases store_stops _ _ _ _ _ h2 with ⟨c, hc, h4, h5⟩ | ⟨q, hq, h4, h5⟩
    · exact .device ps _ ((access_eq_ok ..).mp h1) (quadCells_mem hc) h4 h5
    · exact .text ps q ((access_eq_ok ..).mp h1) hq rfl h4 rfl h5

theorem memWriteMasked_stops (s : State) (seg : Seg) (off : Dword) (v mask : Quad) (e : Stop)
    (h : memWriteMasked s seg off v mask = .error e) :
    AccessStops s { seg := seg, off := off, size := 8, kind := .write }
      (byteMask mask != 0 || Config.maskmovZeroMaskFaults) e := by
  cases hs : s.storeSelected seg off v mask with
  | ok t => simp [memWriteMasked, hs] at h
  | error e' =>
    rw [memWriteMasked_error hs] at h
    split at h
    · rename_i hc
      obtain rfl : e' = e := by simpa using h
      simp only [State.storeSelected, bind_eq_error, access_eq_error] at hs
      rcases hs with ⟨x, h1, h2⟩ | ⟨ps, h1, h2⟩
      · exact .check x h1 hc h2
      · rcases store_stops _ _ _ _ _ h2 with ⟨c, hm, h4, h5⟩ | ⟨q, hq, h4, h5⟩
        · exact .device ps _ ((access_eq_ok ..).mp h1) (quadCells_mem (selectedCells_subset hm)) h4 h5
        · exact .text ps q ((access_eq_ok ..).mp h1) hq rfl h4 hc h5
    · cases h

theorem quadSource_stops (s : State) (p : Pfx) (src : RM MmReg) (e : Stop) (h : quadSource s p src = .error e) :
    ∃ o, sourceOperand s p 8 src = some o ∧ AccessStops s o true e := by
  cases src with
  | reg r => cases h
  | mem m =>
    simp only [quadSource, bind_eq_error] at h
    rcases h with h | ⟨_, _, h⟩
    · exact ⟨_, rfl, memRead_stops _ _ _ _ _ h⟩
    · cases h

theorem wordSource_stops (s : State) (p : Pfx) (src : RM IntReg) (e : Stop) (h : wordSource s p src = .error e) :
    ∃ o, sourceOperand s p 2 src = some o ∧ AccessStops s o true e := by
  cases src with
  | reg r => cases h
  | mem m =>
    simp only [wordSource, bind_eq_error] at h
    rcases h with h | ⟨_, _, h⟩
    · exact ⟨_, rfl, memRead_stops _ _ _ _ _ h⟩
    · cases h

theorem mmxCompute_stops (f : Quad → Quad → Quad) (p : Pfx) (d : MmReg) (src : RM MmReg) (last : Nat) (s : State) :
    (∃ t, mmxCompute f p d src last s = .next t) ∨
    ∃ e, mmxCompute f p d src last s = conclude (.error e) ∧
      (mmxChecks s = .error e ∨
        MmxReady s ∧ ∃ o, sourceOperand s p 8 src = some o ∧ AccessStops s o true e) := by
  unfold mmxCompute
  cases hc : mmxChecks s with
  | error e => exact .inr ⟨e, rfl, .inl rfl⟩
  | ok u =>
    cases hv : quadSource s p src with
    | error e => exact .inr ⟨e, rfl, .inr ⟨(mmxChecks_eq_ok s u).mp hc, quadSource_stops s p src e hv⟩⟩
    | ok v => exact .inl ⟨_, rfl⟩

/-- An instruction completes, or it runs the checks of 60_exceptions.md R131 and stops where they, or the
access to its operand, stop. -/
theorem exec_completes_or_stops (i : Instr) (s : State) :
    (∃ t, exec i s = .next t) ∨
    runsNoCheck i = false ∧ ∃ e, exec i s = conclude (.error e) ∧
      (mmxChecks s = .error e ∨
        MmxReady s ∧ ∃ o, memoryOperand s i = some o ∧ AccessStops s o (checkCounts s i) e) := by
  cases i with
  | pf2iw p d src =>
    simp only [exec, execPf2iw]
    cases hc : mmxChecks s with
    | error e => exact .inr ⟨rfl, e, rfl, .inl rfl⟩
    | ok u =>
      cases hv : quadSource s p src with
      | error e => exact .inr ⟨rfl, e, rfl, .inr ⟨(mmxChecks_eq_ok s u).mp hc, quadSource_stops s p src e hv⟩⟩
      | ok v => exact .inl ⟨_, rfl⟩
  | pfnacc p d src | pfpnacc p d src | pavgb p d src | pavgw p d src
  | pmaxsw p d src | pmaxub p d src | pminsw p d src | pminub p d src | pmulhuw p d src | psadbw p d src =>
    all_goals
      rcases mmxCompute_stops _ p d src _ s with h | h
      · exact .inl h
      · exact .inr ⟨rfl, h⟩
  | pi2fw p d src =>
    rcases mmxCompute_stops (fun _ v => intsToFloats v) p d src 1 s with h | h
    · exact .inl h
    · exact .inr ⟨rfl, h⟩
  | pswapd p d src =>
    rcases mmxCompute_stops (fun _ v => swapDwords v) p d src 1 s with h | h
    · exact .inl h
    · exact .inr ⟨rfl, h⟩
  | pshufw p d src imm =>
    rcases mmxCompute_stops (fun _ v => shuffleWords v imm) p d src 1 s with h | h
    · exact .inl h
    · exact .inr ⟨rfl, h⟩
  | pinsrw p d src imm =>
    simp only [exec, execPinsrw]
    cases hc : mmxChecks s with
    | error e => exact .inr ⟨rfl, e, rfl, .inl rfl⟩
    | ok u =>
      cases hv : wordSource s p src with
      | error e => exact .inr ⟨rfl, e, rfl, .inr ⟨(mmxChecks_eq_ok s u).mp hc, wordSource_stops s p src e hv⟩⟩
      | ok v => exact .inl ⟨_, rfl⟩
  | pextrw p d r imm =>
    simp only [exec, execPextrw]
    cases hc : mmxChecks s with
    | error e => exact .inr ⟨rfl, e, rfl, .inl rfl⟩
    | ok u => exact .inl ⟨_, rfl⟩
  | pmovmskb p d r =>
    simp only [exec, execPmovmskb]
    cases hc : mmxChecks s with
    | error e => exact .inr ⟨rfl, e, rfl, .inl rfl⟩
    | ok u => exact .inl ⟨_, rfl⟩
  | movntq p dst r =>
    simp only [exec, execMovntq]
    cases hc : mmxChecks s with
    | error e => exact .inr ⟨rfl, e, rfl, .inl rfl⟩
    | ok u =>
      cases hv : memWrite s (operandSeg p dst) (effectiveAddress s.cpu dst) (s.mm r) with
      | error e => exact .inr ⟨rfl, e, rfl, .inr ⟨(mmxChecks_eq_ok s u).mp hc, _, rfl, memWrite_stops _ _ _ _ _ hv⟩⟩
      | ok v => exact .inl ⟨_, rfl⟩
  | maskmovq p d m =>
    simp only [exec, execMaskmovq]
    cases hc : mmxChecks s with
    | error e => exact .inr ⟨rfl, e, rfl, .inl rfl⟩
    | ok u =>
      cases hv : memWriteMasked s (maskmovSeg p) (maskmovOffset s.cpu p) (s.mm d) (s.mm m) with
      | error e =>
        exact .inr ⟨rfl, e, rfl, .inr ⟨(mmxChecks_eq_ok s u).mp hc, _, rfl, memWriteMasked_stops _ _ _ _ _ _ hv⟩⟩
      | ok v => exact .inl ⟨_, rfl⟩
  | prefetchnta p m | prefetcht0 p m | prefetcht1 p m | prefetcht2 p m => all_goals exact .inl ⟨_, rfl⟩
  | sfence p => exact .inl ⟨_, rfl⟩

end Sys2Proof.Machine
end

