-- ==== Sys2Proof/Laws/MemorySystem.lean ====
section
/-! SUPPORT. What the drain step and the other actions between two instructions can do. -/

namespace Sys2Proof.Machine

@[simp] theorem State.setAgent_mem (s : State) (who : Nat) (a : Agent) : (s.setAgent who a).mem = s.mem := by
  cases who <;> rfl
@[simp] theorem State.setAgent_text (s : State) (who : Nat) (a : Agent) : (s.setAgent who a).text = s.text := by
  cases who <;> rfl
@[simp] theorem State.setAgent_devices (s : State) (who : Nat) (a : Agent) :
    (s.setAgent who a).devices = s.devices := by
  cases who <;> rfl
@[simp] theorem State.setAgent_schedule (s : State) (who : Nat) (a : Agent) :
    (s.setAgent who a).schedule = s.schedule := by
  cases who <;> rfl
@[simp] theorem State.setAgent_draws (s : State) (who : Nat) (a : Agent) :
    (s.setAgent who a).draws = s.draws := by
  cases who <;> rfl

/-- The state after the `n` records of agent `who` from `start` have drained. -/
def drained (s : State) (who : Nat) (a : Agent) (start n : Nat) : State :=
  { s.setAgent who { a with pending := a.pending.take start ++ a.pending.drop (start + n) } with
    mem := drainInto s.mem ((a.pending.drop start).take n) }

/-- The drain step does nothing, or it moves the records of an enabled span into memory
(20_memory.md R46). -/
theorem drain_cases (s : State) (who i : Nat) :
    s.drain who i = s ∨
    ∃ a start n, s.agent who = some a ∧ drainSpan a.pending i = some (start, n) ∧
      drainEnabled a.pending start n = true ∧ s.drain who i = drained s who a start n := by
  cases ha : s.agent who with
  | none => exact .inl (by simp [State.drain, ha])
  | some a =>
    cases hs : drainSpan a.pending i with
    | none => exact .inl (by simp [State.drain, ha, hs])
    | some sn =>
      obtain ⟨start, n⟩ := sn
      by_cases he : drainEnabled a.pending start n = true
      · exact .inr ⟨a, start, n, rfl, hs, he, by simp [State.drain, ha, hs, he, drained]⟩
      · exact .inl (by simp [State.drain, ha, hs, he])

/-- Conditions (i) and (ii) of R46, for each record that drains. -/
theorem drainEnabled_iff (rs : List Record) (start n : Nat) :
    drainEnabled rs start n = true ↔
      ∀ r ∈ (rs.drop start).take n,
        (∀ q ∈ rs, r.epoch ≤ q.epoch) ∧ ∀ q ∈ rs.take start, q.addr ≠ r.addr := by
  simp [drainEnabled]

/-- Running agent changed: nothing (no such agent), or two agents exchange places. -/
theorem resume_cases (s : State) (k : Nat) :
    s.resume k = s ∨
    ∃ a, s.others[k]? = some a ∧ s.resume k = { s with cpu := a, others := s.others.set k s.cpu } := by
  cases h : s.others[k]? with
  | none => exact .inl (by simp [State.resume, h])
  | some a => exact .inr ⟨a, rfl, by simp [State.resume, h]⟩

/-- An external write does nothing to the program text. -/
theorem writeExternal_cases (s : State) (p : Nat) (b : Byte) :
    (s.inText p = true ∧ s.writeExternal p b = s) ∨
    (s.inText p = false ∧ s.writeExternal p b = { s with mem := s.mem.write p b }) := by
  cases h : s.inText p
  · exact .inr ⟨rfl, by simp [State.writeExternal, h]⟩
  · exact .inl ⟨rfl, by simp [State.writeExternal, h]⟩

@[simp] theorem drained_text (s : State) (who : Nat) (a : Agent) (start n : Nat) :
    (drained s who a start n).text = s.text := by simp [drained]
@[simp] theorem drained_devices (s : State) (who : Nat) (a : Agent) (start n : Nat) :
    (drained s who a start n).devices = s.devices := by simp [drained]
@[simp] theorem drained_mem (s : State) (who : Nat) (a : Agent) (start n : Nat) :
    (drained s who a start n).mem = drainInto s.mem ((a.pending.drop start).take n) := rfl

/-! ## What a drain does to each agent and to memory -/

theorem setAgent_agent (s : State) (who : Nat) (a b : Agent) (h : s.agent who = some a) (v : Nat) :
    (s.setAgent who b).agent v = if v = who then some b else s.agent v := by
  cases who with
  | zero => cases v <;> simp [State.setAgent, State.agent]
  | succ w =>
    cases v with
    | zero => simp [State.setAgent, State.agent]
    | succ v =>
      simp only [State.agent] at h
      obtain ⟨hw, _⟩ := List.getElem?_eq_some_iff.mp h
      simp only [State.setAgent, State.agent, List.getElem?_set]
      by_cases e : w = v
      · subst e; simp [hw]
      · simp [e, Ne.symm e]

/-- The agents after a drain: the draining one without the drained records, the others as before. -/
theorem drained_agent (s : State) (who : Nat) (a : Agent) (start n : Nat) (h : s.agent who = some a) (v : Nat) :
    (drained s who a start n).agent v =
      if v = who then some { a with pending := a.pending.take start ++ a.pending.drop (start + n) }
      else s.agent v := by
  rw [← setAgent_agent s who a _ h]
  cases v <;> rfl

/-- A record that is no part of an aligned 8-byte access drains alone, and without `atomic64` every record does. -/
theorem drainSpan_one {rs : List Record} {i : Nat} {r : Record} (h : rs[i]? = some r)
    (hq : r.quad = none ∨ Config.atomic64 = false) : drainSpan rs i = some (i, 1) := by
  unfold drainSpan
  rw [h]
  rcases hq with hq | hq
  · simp [hq]
  · cases hr : r.quad <;> simp [hr, hq]

/-- The records of one epoch whose places in an aligned access count on from `k`, up to a record whose place does
not, are the run from `k`. -/
theorem quadRun_append (e k : Nat) (rs later : List Record) (he : ∀ r ∈ rs, r.epoch = e)
    (hq : ∀ j r, rs[j]? = some r → r.quad.map Fin.val = some (k + j))
    (hl : ∀ r ∈ later.head?, r.quad.map Fin.val ≠ some (k + rs.length)) :
    quadRun e k (rs ++ later) = rs.length := by
  induction rs generalizing k with
  | nil =>
    cases later with
    | nil => rfl
    | cons r l =>
      have h := hl r (by simp)
      simp only [List.length_nil, Nat.add_zero] at h
      simp only [List.nil_append, quadRun]
      rw [if_neg fun c => h c.2]
      rfl
  | cons r rs ih =>
    have h0 := hq 0 r rfl
    rw [Nat.add_zero] at h0
    simp only [List.cons_append, quadRun]
    rw [if_pos ⟨he r (by simp), h0⟩, ih (k + 1) (fun x hx => he x (by simp [hx]))
      (fun j x hx => by rw [hq (j + 1) x (by simpa using hx)]; congr 1; omega)
      (fun x hx => by rw [show k + 1 + rs.length = k + (r :: rs).length by simp; omega]; exact hl x hx)]
    simp

/-- The records of a run are of its epoch. -/
theorem quadRun_epoch (e k : Nat) (rs : List Record) : ∀ r ∈ rs.take (quadRun e k rs), r.epoch = e := by
  induction rs generalizing k with
  | nil => simp
  | cons x rs ih =>
    intro r hr
    unfold quadRun at hr
    split at hr
    · rename_i hc
      rw [List.take_succ_cons] at hr
      rcases List.mem_cons.mp hr with rfl | hr
      · exact hc.1
      · exact ih _ r hr
    · simp at hr

/-- Where no record is of an older epoch than the first one, the drain step of the first one takes it, and perhaps
records after it, into memory. -/
theorem drain_first (s : State) (who : Nat) (a : Agent) (r : Record) (rs : List Record) (h : s.agent who = some a)
    (hp : a.pending = r :: rs) (hold : ∀ q ∈ a.pending, r.epoch ≤ q.epoch) :
    ∃ n, 0 < n ∧ s.drain who 0 = drained s who a 0 n := by
  obtain ⟨n, hn, hsp, hep⟩ : ∃ n, 0 < n ∧ drainSpan a.pending 0 = some (0, n) ∧
      ∀ x ∈ a.pending.take n, x.epoch = r.epoch := by
    have one : ∀ x ∈ (r :: rs).take 1, x.epoch = r.epoch := by simp
    unfold drainSpan
    rw [hp]
    simp only [List.getElem?_cons_zero]
    cases hq : r.quad with
    | none => exact ⟨1, by omega, rfl, one⟩
    | some k =>
      simp only [Nat.zero_sub, Nat.sub_zero, List.drop_zero]
      split
      · exact ⟨_, by simp [quadRun, hq], rfl, quadRun_epoch _ _ _⟩
      · exact ⟨1, by omega, rfl, one⟩
  have hen : drainEnabled a.pending 0 n = true := by
    rw [drainEnabled_iff]
    exact fun x hx => ⟨by rw [hep x (by simpa using hx)]; exact hold, by simp⟩
  exact ⟨n, hn, by simp [State.drain, h, hsp, hen, drained]⟩

/-- A drain step leaves an agent as it is, or takes an enabled span out of its pending records. -/
theorem drain_agent (s : State) (w i v : Nat) (a b : Agent) (h : s.agent v = some a)
    (h' : (s.drain w i).agent v = some b) :
    b = a ∨ ∃ start n, v = w ∧ drainEnabled a.pending start n = true ∧
      b = { a with pending := a.pending.take start ++ a.pending.drop (start + n) } := by
  rcases drain_cases s w i with h1 | ⟨c, st, n, h1, _, h3, h4⟩
  · rw [h1, h] at h'; cases h'; exact .inl rfl
  · rw [h4, show (drained s w c st n).agent v = (s.setAgent w
        { c with pending := c.pending.take st ++ c.pending.drop (st + n) }).agent v by cases v <;> rfl,
      setAgent_agent s w c _ h1] at h'
    by_cases e : v = w
    · subst e
      rw [h1] at h; cases h
      exact .inr ⟨st, n, rfl, h3, by simpa using h'.symm⟩
    · simp [e, h] at h'
      exact .inl h'.symm

/-- Memory after some records were written shows the newest of them, and otherwise what it showed. -/
theorem drainInto_read (mem : Memory) (rs : List Record) (h : mem.wf = true) (p : Nat) :
    (drainInto mem rs).read p = (newestPending rs p).getD (mem.read p) := by
  induction rs generalizing mem with
  | nil => rfl
  | cons r rs ih =>
    rw [newestPending_cons]
    show (drainInto (mem.write r.addr r.byte) rs).read p = _
    rw [ih _ (Memory.write_wf _ _ _ h)]
    cases newestPending rs p with
    | some b => rfl
    | none =>
      by_cases e : r.addr = p
      · subst e; simp [Memory.read_write_same _ _ _ h]
      · simp [e, Memory.read_write_other mem r.byte (Ne.symm e)]

end Sys2Proof.Machine
end

