-- ==== Sys2Proof/Laws/Step.lean ====
section
/-! SUPPORT. What one step can be. -/

namespace Sys2Proof.Machine

/-- An instruction step executes the decoded instruction, at a place that holds it whole. -/
theorem runInstruction_eq_next (s t : State) :
    s.runInstruction = .next t ↔
      ∃ i rest, decode (defaultAddrSize s.cpu) s.fetch.1 = .ok (i, rest) ∧
        s.cpu.pc.toNat + instrLength i ≤ lastCodeOffset s.cpu ∧ exec i s = .next t := by
  unfold State.runInstruction
  cases h : decode (defaultAddrSize s.cpu) s.fetch.1 with
  | ok ir =>
    obtain ⟨i, r⟩ := ir
    by_cases hp : s.cpu.pc.toNat + instrLength i > lastCodeOffset s.cpu
    · simp [hp]
    · simp [hp, Nat.le_of_not_gt hp]
  | error e =>
    cases e <;> cases s.fetch.2 <;> simp

/-! ## The end of a run -/

@[simp] theorem State.endRun_cpu (s : State) (e : Ending) : (s.endRun e).cpu = { s.cpu with ended := some e } := rfl
@[simp] theorem State.endRun_others (s : State) (e : Ending) : (s.endRun e).others = s.others := rfl
@[simp] theorem State.endRun_mem (s : State) (e : Ending) : (s.endRun e).mem = s.mem := rfl
@[simp] theorem State.endRun_text (s : State) (e : Ending) : (s.endRun e).text = s.text := rfl
@[simp] theorem State.endRun_devices (s : State) (e : Ending) : (s.endRun e).devices = s.devices := rfl
@[simp] theorem State.endRun_draws (s : State) (e : Ending) : (s.endRun e).draws = s.draws := rfl
@[simp] theorem State.endRun_schedule (s : State) (e : Ending) : (s.endRun e).schedule = s.schedule := rfl

/-- Every other agent has ended and no agent has a pending record. -/
theorem lastOne_iff (s : State) :
    s.lastOne = true ↔ (∀ a ∈ s.others, a.ended.isSome = true) ∧ ∀ a ∈ s.agents, a.pending = [] := by
  simp [State.lastOne, State.drained]

/-- No ending is a next state. -/
theorem Ending.outcome_ne_next (e : Ending) (t : State) : e.outcome ≠ .next t := by
  cases e <;> simp [Ending.outcome]

/-- An outcome is no ending exactly when it is a next state. -/
theorem ofOutcome_eq_none (o : Host.Outcome State Fault Refusal) :
    Ending.ofOutcome o = none ↔ ∃ t, o = .next t := by
  cases o <;> simp [Ending.ofOutcome]

/-- The run does not end now exactly when `pc` is at no end of the program and the instruction completes. -/
theorem nextEnding_eq_none (s : State) :
    s.nextEnding = none ↔ s.atEnd = false ∧ s.textEnds = false ∧ ∃ t, s.runInstruction = .next t := by
  unfold State.nextEnding
  cases s.atEnd <;> cases s.textEnds <;> simp [ofOutcome_eq_none]

/-- Where an instruction's bytes are, the program text does not end. -/
theorem textEnds_of_fetch {s : State} (h : s.fetch.1 ≠ []) : s.textEnds = false := by
  unfold State.textEnds
  rw [Bool.and_eq_false_iff]
  exact .inr (beq_eq_false_iff_ne.mpr fun e => h (by rw [e]))

/-- The end of an agent's run is a next state exactly while the run of the machine is not complete. -/
theorem stop_eq_next (s t : State) (e : Ending) :
    s.stop e = .next t ↔ s.lastOne = false ∧ t = s.endRun e := by
  unfold State.stop
  cases s.lastOne
  · simp [eq_comm]
  · simp [Ending.outcome_ne_next]

/-- A turn of an agent: nothing, where its run has ended; the instruction completes; or its run ends here. -/
theorem runAgent_eq_next (s t : State) (h : s.runAgent = .next t) :
    (s.cpu.ended.isSome = true ∧ t = s) ∨
    s.cpu.ended = none ∧
      (s.runInstruction = .next t ∨ ∃ e, s.nextEnding = some e ∧ s.lastOne = false ∧ t = s.endRun e) := by
  unfold State.runAgent at h
  split at h
  · rename_i e he
    exact .inl ⟨by simp [he], by simpa using h.symm⟩
  · rename_i he
    split at h
    · exact .inr ⟨he, .inl h⟩
    · rename_i e hend
      exact .inr ⟨he, .inr ⟨e, hend, (stop_eq_next s t e).1 h⟩⟩

/-- A turn is complete and shows an ending, or the next event happens, taken off the schedule. -/
theorem turn_cases (s : State) :
    (∃ e, s.completeEnding = some e ∧ s.turn = e.outcome) ∨
    s.completeEnding = none ∧
      ((s.turnEvent = .run ∧ s.turn = State.runAgent { s with schedule := s.schedule.tail }) ∨
        s.turnEvent ≠ .run ∧ s.turn = .next (State.happen { s with schedule := s.schedule.tail } s.turnEvent)) := by
  cases hc : s.completeEnding with
  | some e => exact .inl ⟨e, rfl, by simp [State.turn, hc]⟩
  | none => refine .inr ⟨rfl, ?_⟩; cases he : s.turnEvent <;> simp [State.turn, hc, he]

/-- A step that answers a next state is an instruction of the running agent, the end of its run, or one event
that is none. -/
theorem step_eq_next (s t : State) (h : step s = .next t) :
    let u : State := { s with schedule := s.schedule.tail }
    (s.turnEvent = .run ∧ s.cpu.ended = none ∧
      (u.runInstruction = .next t ∨ ∃ e, u.lastOne = false ∧ t = u.endRun e)) ∨
    t = u.happen s.turnEvent := by
  rcases turn_cases s with ⟨e, _, h2⟩ | ⟨_, ⟨h1, h2⟩ | ⟨_, h2⟩⟩
  · exact absurd (h2.symm.trans h) (Ending.outcome_ne_next e t)
  · rcases runAgent_eq_next _ t (h2.symm.trans h) with ⟨_, h3⟩ | ⟨h3, h4 | ⟨e, _, h4⟩⟩
    · exact .inr (by rw [h1]; exact h3)
    · exact .inl ⟨h1, h3, .inl h4⟩
    · exact .inl ⟨h1, h3, .inr ⟨e, h4⟩⟩
  · exact .inr (by have := h2.symm.trans h; simpa using this.symm)

end Sys2Proof.Machine
end

