-- ==== Sys2Proof/Tests/Slice0.lean ====
section
/-! SUPPORT. Small tests, and for each statement with hypotheses a state and operands that meet them. Expected
values come from the spec: V<n> is a vector of 95_test_vectors.md, the encodings are written from
30_encoding.md. -/

namespace Sys2Proof.Tests

open Sys2Proof Sys2Proof.Machine

/-! ## Helpers -/

/-- The flat profile with `mm0`, `mm1` and ESI. -/
def two (a b : Quad) (esi : Dword := 0) : State :=
  (((State.flat [] []).setMm .mm0 a).setMm .mm1 b).setX .esi esi

/-- The flat profile with a memory and with ESI and EDI. -/
def withMem (mem : Memory) (esi edi : Dword) : State :=
  ((State.flat mem []).setX .esi esi).setX .edi edi

/-- The state after reset with SI and DI. -/
def realAt (si di : Dword) : State := (State.reset.setX .esi si).setX .edi di

/-- The same machine with another CR0, and `fp_pending`. -/
def withControl (s : State) (cr0 : Dword) (fp : Bool) : State :=
  { s with cpu := { s.cpu with cr0 := cr0, fpPending := fp } }

/-- Alignment is checked: CR0.AM and AC are 1 (the flat profile has CPL 3). -/
def aligned (s : State) : State := { s with cpu := { s.cpu with cr0 := 0x00040001, eflagsAc := true } }

/-- Virtual-8086 mode at CPL 3, with these pages. -/
def v86 (s : State) (pages : List PageEntry) : State :=
  { s with cpu := { s.cpu with mode := .virtual8086, cpl := 3, paging := some pages } }

/-- The quadword of V2.5 in memory at 2000h. -/
def quadAt2000 : Memory :=
  [(0x2000, 0x88), (0x2001, 0x77), (0x2002, 0x66), (0x2003, 0x55), (0x2004, 0x44), (0x2005, 0x33),
   (0x2006, 0x22), (0x2007, 0x11)]

/-- `[esi]`, `[si]` and `[edi]`. -/
def atEsi : MemRef := .m32 (.reg .esi .none)
def atSi : MemRef := .m16 (.based .si .none)
def atEdi : MemRef := .m32 (.reg .edi .none)

/-- What a completed instruction leaves in an MMX register, in an integer register, at an address as the agent
sees it. -/
def mmOf (o : Host.Outcome State Fault Refusal) (r : MmReg) : Option Quad :=
  match o with
  | .next t => some (t.mm r)
  | _ => none

def xOf (o : Host.Outcome State Fault Refusal) (r : IntReg) : Option Dword :=
  match o with
  | .next t => some (t.x r)
  | _ => none

def seesOf (o : Host.Outcome State Fault Refusal) (ps : List Nat) : Option (List Byte) :=
  match o with
  | .next t => some (ps.map t.sees)
  | _ => none

def pcOf (o : Host.Outcome State Fault Refusal) : Option Dword :=
  match o with
  | .next t => some t.cpu.pc
  | _ => none

/-- What a step leaves pending for the running agent, how its run ended, and memory. -/
def pendingOf (o : Host.Outcome State Fault Refusal) : Option (List Record × Option Ending × Memory) :=
  match o with
  | .next t => some (t.cpu.pending, t.cpu.ended, t.mem)
  | _ => none

/-- The exception an instruction raises, and why it is refused. -/
def faultIn (o : Host.Outcome State Fault Refusal) : Option Fault :=
  match o with
  | .fault f => some f
  | _ => none

def refusalIn (o : Host.Outcome State Fault Refusal) : Option Refusal :=
  match o with
  | .refused r => some r
  | _ => none

/-! ## WellFormed refuses what no encoding stands for (R60, R61, R64, R67) -/

theorem test_wf_base_esp_needs_sib : Mem32.wf (.reg .esp .none) = false := by decide
theorem test_wf_base_ebp_needs_displacement : Mem32.wf (.reg .ebp .none) = false := by decide
theorem test_wf_sib_base_ebp_needs_displacement : Mem32.wf (.sib .ebp .ecx 0 .none) = false := by decide
theorem test_wf_base_bp_needs_displacement : Mem16.wf (.based .bp .none) = false := by decide
theorem test_wf_size_32_in_16 : Instr.wf .a16 (.pavgb .plain .mm0 (.mem atEsi)) = false := by decide
theorem test_wf_size_16_after_override : Instr.wf .a16 (.movntq .addr atSi .mm0) = false := by decide

/-! ## Decoding (R53 to R73): each constructor from a word written out of R56's table -/

/-- `0F 0F 8C 88 disp32 1C`, V7.1. -/
theorem test_decode_pf2iw : decode .a32 [0x0F, 0x0F, 0x8C, 0x88, 0x00, 0x01, 0x00, 0x00, 0x1C] =
    .ok (.pf2iw .plain .mm1 (.mem (.m32 (.sib .eax .ecx 2 (.d32 0x100)))), []) := by decide
/-- ModR/M `11 010 101`, op3 8Ah. -/
theorem test_decode_pfnacc : decode .a32 [0x0F, 0x0F, 0xD5, 0x8A] =
    .ok (.pfnacc .plain .mm2 (.reg .mm5), []) := by decide
/-- ModR/M `11 010 101`, op3 8Eh. -/
theorem test_decode_pfpnacc : decode .a32 [0x0F, 0x0F, 0xD5, 0x8E] =
    .ok (.pfpnacc .plain .mm2 (.reg .mm5), []) := by decide
/-- ModR/M `11 000 001`, op3 0Ch. -/
theorem test_decode_pi2fw : decode .a32 [0x0F, 0x0F, 0xC1, 0x0C] =
    .ok (.pi2fw .plain .mm0 (.reg .mm1), []) := by decide
/-- `[ebx+8]`, op3 BBh, V1.51. -/
theorem test_decode_pswapd : decode .a32 [0x0F, 0x0F, 0x53, 0x08, 0xBB] =
    .ok (.pswapd .plain .mm2 (.mem (.m32 (.reg .ebx (.d8 8)))), []) := by decide
/-- ModR/M `11 011 110`: data mm3, mask mm6. -/
theorem test_decode_maskmovq : decode .a32 [0x0F, 0xF7, 0xDE] = .ok (.maskmovq .plain .mm3 .mm6, []) := by decide
/-- `es:[si]` in a 32-bit segment, V7.4. -/
theorem test_decode_movntq : decode .a32 [0x67, 0x26, 0x0F, 0xE7, 0x04] =
    .ok (.movntq (.addrSeg .es) atSi .mm0, []) := by decide
/-- `[disp16]`, V7.3. -/
theorem test_decode_pavgb : decode .a16 [0x0F, 0xE0, 0x06, 0x34, 0x12] =
    .ok (.pavgb .plain .mm0 (.mem (.m16 (.abs 0x1234))), []) := by decide
/-- ModR/M `10 111 010` in a 16-bit segment: `[bp+si+disp16]`. -/
theorem test_decode_pavgw : decode .a16 [0x0F, 0xE3, 0xBA, 0x34, 0x12] =
    .ok (.pavgw .plain .mm7 (.mem (.m16 (.based .bpsi (.d16 0x1234)))), []) := by decide
/-- ModR/M `11 001 010`: ECX from mm2. -/
theorem test_decode_pextrw : decode .a32 [0x0F, 0xC5, 0xCA, 0xFE] = .ok (.pextrw .plain .ecx .mm2 0xFE, []) := by
  decide
/-- `[ebp-2], 1`, V7.6. -/
theorem test_decode_pinsrw : decode .a32 [0x0F, 0xC4, 0x5D, 0xFE, 0x01] =
    .ok (.pinsrw .plain .mm3 (.mem (.m32 (.reg .ebp (.d8 0xFE)))) 1, []) := by decide
/-- ModR/M `00 001 100`, SIB `11 010 101`, disp32: no base, EDX times 8. -/
theorem test_decode_pmaxsw : decode .a32 [0x0F, 0xEE, 0x0C, 0xD5, 0x04, 0x03, 0x02, 0x01] =
    .ok (.pmaxsw .plain .mm1 (.mem (.m32 (.sibAbs .edx 3 0x01020304))), []) := by decide
/-- 36h (SS), then 67h, `[bx+di]` in a 32-bit segment. -/
theorem test_decode_pmaxub : decode .a32 [0x36, 0x67, 0x0F, 0xDE, 0x01] =
    .ok (.pmaxub (.segAddr .ss) .mm0 (.mem (.m16 (.based .bxdi .none))), []) := by decide
/-- 67h in a 16-bit segment: `[esi]`. -/
theorem test_decode_pminsw : decode .a16 [0x67, 0x0F, 0xEA, 0x06] =
    .ok (.pminsw .addr .mm0 (.mem atEsi), []) := by decide
/-- 65h (GS), `[esp+disp8]`: SIB `00 100 100`. -/
theorem test_decode_pminub : decode .a32 [0x65, 0x0F, 0xDA, 0x44, 0x24, 0x80] =
    .ok (.pminub (.seg .gs) .mm0 (.mem (.m32 (.sib .esp .esp 0 (.d8 0x80)))), []) := by decide
/-- ModR/M `11 111 100`: EDI from mm4. -/
theorem test_decode_pmovmskb : decode .a32 [0x0F, 0xD7, 0xFC] = .ok (.pmovmskb .plain .edi .mm4, []) := by decide
/-- ModR/M `00 100 101`, disp32. -/
theorem test_decode_pmulhuw : decode .a32 [0x0F, 0xE4, 0x25, 0x78, 0x56, 0x34, 0x12] =
    .ok (.pmulhuw .plain .mm4 (.mem (.m32 (.abs 0x12345678))), []) := by decide
/-- `0F 18 /0`, V4.1. -/
theorem test_decode_prefetchnta : decode .a32 [0x0F, 0x18, 0x06] = .ok (.prefetchnta .plain atEsi, []) := by decide
/-- `0F 18 /1`, V4.2. -/
theorem test_decode_prefetcht0 : decode .a32 [0x0F, 0x18, 0x4C, 0x8B, 0x10] =
    .ok (.prefetcht0 .plain (.m32 (.sib .ebx .ecx 2 (.d8 0x10))), []) := by decide
/-- `0F 18 /2`, `[bx]` in a 16-bit segment. -/
theorem test_decode_prefetcht1 : decode .a16 [0x0F, 0x18, 0x17] =
    .ok (.prefetcht1 .plain (.m16 (.based .bx .none)), []) := by decide
/-- `0F 18 /3`, V4.3. -/
theorem test_decode_prefetcht2 : decode .a32 [0x0F, 0x18, 0x1E] = .ok (.prefetcht2 .plain atEsi, []) := by decide
/-- ModR/M `11 000 001`, V5.1. -/
theorem test_decode_psadbw : decode .a32 [0x0F, 0xF6, 0xC1] = .ok (.psadbw .plain .mm0 (.reg .mm1), []) := by decide
/-- `[disp32], imm8`, V7.5; one byte is left over. -/
theorem test_decode_pshufw : decode .a32 [0x0F, 0x70, 0x05, 0x00, 0x20, 0x00, 0x00, 0x4E, 0x90] =
    .ok (.pshufw .plain .mm0 (.mem (.m32 (.abs 0x2000))) 0x4E, [0x90]) := by decide
/-- `0F AE F8`, V6.1. -/
theorem test_decode_sfence : decode .a32 [0x0F, 0xAE, 0xF8] = .ok (.sfence .plain, []) := by decide

/-- Two reasons at once: the group member before the `mod`, the `mod` before missing bytes (log 20). -/
theorem test_decode_first_reason :
    decode .a32 [0x0F, 0x18, 0xE6] = .error (.undefinedGroupMember 0x18 0xE6) ∧
    decode .a32 [0x0F, 0xC5, 0x05] = .error (.needsRegister 0xC5) := by decide

/-- V7.7 to V7.12, V4.4 and V6.3: what is refused, and why. -/
theorem test_decode_refusals :
    decode .a32 [0x66, 0x0F, 0xE7, 0x07] = .error (.refusedPfx 0x66) ∧
    decode .a32 [0xF3, 0x0F, 0x70, 0xC0, 0x00] = .error (.refusedPfx 0xF3) ∧
    decode .a32 [0x0F, 0x0F, 0xC1, 0x1D] = .error (.unknownOp3 0x1D) ∧
    decode .a32 [0x0F, 0xE7, 0xC1] = .error (.needsMemory 0xE7) ∧
    decode .a32 [0x0F, 0xD7, 0x00] = .error (.needsRegister 0xD7) ∧
    decode .a32 [0x26, 0x3E, 0x0F, 0xE0, 0x06] = .error (.repeatedPfx 0x3E) ∧
    decode .a32 [0x0F, 0x18, 0x26] = .error (.undefinedGroupMember 0x18 0x26) ∧
    decode .a32 [0x0F, 0xAE, 0xF9] = .error (.undefinedGroupMember 0xAE 0xF9) := by decide

/-! ## One instruction -/

/-- V1.42: 40000.0 saturates, -2.75 is truncated. -/
theorem test_pf2iw : mmOf (exec (.pf2iw .plain .mm0 (.reg .mm1)) (two 0 0x471C4000C0300000)) .mm0 =
    some 0x00007FFFFFFFFFFE := by decide
/-- V1.4, V1.9, V1.16, V1.17, V1.22, V1.23. -/
theorem test_pf2iw_lanes : ([0xBF000000, 0xBFC00000, 0x46FFFF00, 0x47000000, 0xC6FFFF00, 0xC7000000] : List Dword).map
    (f2iw 0) = [0, 0xFFFFFFFF, 0x7FFF, 0x7FFF, 0xFFFF8001, 0xFFFF8000] := by decide
/-- V1.45. -/
theorem test_pfnacc : mmOf (exec (.pfnacc .plain .mm0 (.reg .mm1)) (two 0x3FC0000040800000 0x3E800000C0000000))
    .mm0 = some 0xC010000040200000 := by decide
/-- V1.47: the source is the destination. -/
theorem test_pfnacc_same : mmOf (exec (.pfnacc .plain .mm0 (.reg .mm0)) (two 0x3FC0000040800000 0)) .mm0 =
    some 0x4020000040200000 := by decide
/-- V1.46. -/
theorem test_pfpnacc : mmOf (exec (.pfpnacc .plain .mm0 (.reg .mm1)) (two 0x3FC0000040800000 0x3E800000C0000000))
    .mm0 = some 0xBFE0000040200000 := by decide
/-- V1.48: the source is the destination. -/
theorem test_pfpnacc_same : mmOf (exec (.pfpnacc .plain .mm0 (.reg .mm0)) (two 0x3FC0000040800000 0)) .mm0 =
    some 0x40B0000040200000 := by decide
/-- V1.43: words 3 and 1 are ignored. -/
theorem test_pi2fw : mmOf (exec (.pi2fw .plain .mm0 (.reg .mm1)) (two 0 0xAAAA8000BBBB7FFF)) .mm0 =
    some 0xC700000046FFFE00 := by decide
/-- V1.30, V1.31, V1.32, V1.38, V1.40. -/
theorem test_pi2fw_lanes : ([0, 1, 0xFFFF, 0x3039, 0x8001] : List Word16).map i2fw =
    [0, 0x3F800000, 0xBF800000, 0x4640E400, 0xC6FFFE00] := by decide
/-- V1.50: a swap, not a broadcast. -/
theorem test_pswapd : mmOf (exec (.pswapd .plain .mm0 (.reg .mm0)) (two 0x1122334455667788 0)) .mm0 =
    some 0x5566778811223344 := by decide
/-- V1.51's memory form, at 2000h. -/
theorem test_pswapd_memory : mmOf (exec (.pswapd .plain .mm2 (.mem atEsi)) (withMem quadAt2000 0x2000 0)) .mm2 =
    some 0x5566778811223344 := by decide
/-- V2.1: mask bits 0, 3 and 7. -/
theorem test_maskmovq :
    seesOf (exec (.maskmovq .plain .mm0 .mm1) ((two 0x1122334455667788 0x80007F00FF000180).setX .edi 0x2000))
      [0x2000, 0x2001, 0x2003, 0x2005, 0x2007] = some [0x88, 0, 0x55, 0, 0x11] := by decide
/-- V2.4: the whole window is checked; and a byte of program text in it refuses the store where it is not selected
(70_reset_and_hazards.md R156). -/
theorem test_maskmovq_window :
    faultIn (exec (.maskmovq .plain .mm0 .mm1) ((two 0x11 0x80).setX .edi 0xFFFFFFFC)) =
      some (.generalProtection 0) ∧
    refusalIn (exec (.maskmovq .plain .mm0 .mm1)
      { (two 0x11 0x80).setX .edi 0x2000 with text := [⟨0x2007, 1⟩] }) = some (.storeToText 0x2007) := by decide
/-- V2.5. -/
theorem test_movntq : seesOf (exec (.movntq .plain atEdi .mm0) ((two 0x1122334455667788 0).setX .edi 0x2000))
    [0x1FFF, 0x2000, 0x2001, 0x2007, 0x2008] = some [0, 0x88, 0x77, 0x11, 0] := by decide
/-- V2.7. -/
theorem test_movntq_alignment :
    faultIn (exec (.movntq .plain atEdi .mm0) (aligned ((two 0 0).setX .edi 0x2001))) =
      some (.alignmentCheck 0) := by decide
/-- V3.1. -/
theorem test_pavgb : mmOf (exec (.pavgb .plain .mm0 (.reg .mm1)) (two 0xFF00FE01807F0100 0xFF01FF0080800200)) .mm0 =
    some 0xFF01FF0180800200 := by decide
/-- V8.4: the operand passes 0FFFFh. -/
theorem test_pavgb_overrun : faultIn (exec (.pavgb .plain .mm0 (.mem atSi)) (realAt 0xFFF9 0)) =
    some (.segmentOverrun 0xFFF0) := by decide
/-- V3.3. -/
theorem test_pavgw : mmOf (exec (.pavgw .plain .mm0 (.reg .mm1)) (two 0xFFFF00018000FFFE 0xFFFF000280010001)) .mm0 =
    some 0xFFFF000280018000 := by decide
/-- V3.5 with FEh: only two bits of the immediate count. -/
theorem test_pextrw : xOf (exec (.pextrw .plain .ecx .mm1 0xFE) (two 0 0x1122334455667788)) .ecx =
    some 0x00003344 := by decide
/-- V3.5: the whole register is written. -/
theorem test_pextrw_zero_extends :
    xOf (exec (.pextrw .plain .ecx .mm1 0) ((two 0 0x1122334455667788).setX .ecx 0xFFFFFFFF)) .ecx =
      some 0x00007788 := by decide
/-- V3.6. -/
theorem test_pinsrw :
    mmOf (exec (.pinsrw .plain .mm0 (.reg .eax) 2) ((two 0x1122334455667788 0).setX .eax 0xDEADBEEF)) .mm0 =
      some 0x1122BEEF55667788 := by decide
/-- V3.8's memory form, at 2000h: two bytes are read. -/
theorem test_pinsrw_memory : mmOf (exec (.pinsrw .plain .mm3 (.mem atEsi) 1) (withMem quadAt2000 0x2000 0)) .mm3 =
    some 0x0000000077880000 := by decide
/-- V3.9. -/
theorem test_pmaxsw : mmOf (exec (.pmaxsw .plain .mm0 (.reg .mm1)) (two 0x7FFF8000FFFF0001 0x80007FFF00010001)) .mm0 =
    some 0x7FFF7FFF00010001 := by decide
/-- V3.11. -/
theorem test_pmaxub : mmOf (exec (.pmaxub .plain .mm0 (.reg .mm1)) (two 0x00FF807F01020304 0xFF0080800201FF04)) .mm0 =
    some 0xFFFF80800202FF04 := by decide
/-- V3.10. -/
theorem test_pminsw : mmOf (exec (.pminsw .plain .mm0 (.reg .mm1)) (two 0x7FFF8000FFFF0001 0x80007FFF00010001)) .mm0 =
    some 0x80008000FFFF0001 := by decide
/-- V3.12. -/
theorem test_pminub : mmOf (exec (.pminub .plain .mm0 (.reg .mm1)) (two 0x00FF807F01020304 0xFF0080800201FF04)) .mm0 =
    some 0x0000807F01010304 := by decide
/-- V3.13. -/
theorem test_pmovmskb : xOf (exec (.pmovmskb .plain .eax .mm0) (two 0x80007F00FF000180 0)) .eax =
    some 0x00000089 := by decide
/-- V3.15. -/
theorem test_pmulhuw : mmOf (exec (.pmulhuw .plain .mm0 (.reg .mm1)) (two 0xFFFF800000020001 0xFFFF8000FFFF0001))
    .mm0 = some 0xFFFE400000010000 := by decide
/-- V4.1, V4.2: nothing but `pc`. -/
theorem test_prefetchnta : pcOf (exec (.prefetchnta .plain atEsi) (two 0 0 0xFFFFFFFF)) = some 3 := by decide
theorem test_prefetcht0 : pcOf (exec (.prefetcht0 .plain (.m32 (.sib .ebx .ecx 2 (.d8 0x10)))) (two 0 0)) = some 5 := by
  decide
theorem test_prefetcht1 : pcOf (exec (.prefetcht1 .plain atSi) (realAt 0xFFFF 0)) = some 0xFFF3 := by decide
/-- V4.3: no exception whatever CR0 and `fp_pending` are. -/
theorem test_prefetcht2 : pcOf (exec (.prefetcht2 .plain atEsi) (withControl (two 0 0) 0x0000000D true)) = some 3 := by
  decide
/-- V5.1. -/
theorem test_psadbw : mmOf (exec (.psadbw .plain .mm0 (.reg .mm1)) (two 0x0102030405060708 0x0807060504030201)) .mm0 =
    some 0x20 := by decide
/-- V5.3: the bytes are unsigned. -/
theorem test_psadbw_unsigned : mmOf (exec (.psadbw .plain .mm0 (.reg .mm1)) (two 0x80 0x7F)) .mm0 = some 1 := by decide
/-- V5.5 with B1h. -/
theorem test_pshufw : mmOf (exec (.pshufw .plain .mm1 (.reg .mm0) 0xB1) (two 0x1122334455667788 0)) .mm1 =
    some 0x3344112277885566 := by decide
/-- V5.6: the source is the destination. -/
theorem test_pshufw_same : mmOf (exec (.pshufw .plain .mm0 (.reg .mm0) 0x1B) (two 0x1122334455667788 0)) .mm0 =
    some 0x7788556633441122 := by decide
/-- V6.2: no exception, a new epoch. -/
theorem test_sfence : (match exec (.sfence .plain) (withControl (two 0 0) 0x0000000D true) with
    | .next t => some (t.cpu.epoch, t.cpu.pc)
    | _ => none) = some (1, 3) := by decide

/-- V8.1 to V8.3: the order of the checks. -/
theorem test_check_order :
    let f := fun cr0 => faultIn (exec (.pavgb .plain .mm0 (.reg .mm1)) (withControl (two 0 0) cr0 true))
    f 0x0000000D = some (.invalidOpcode 0) ∧ f 0x00000009 = some (.deviceNotAvailable 0) ∧
      f 0x00000001 = some (.fpPending 0) := by decide

/-! ## The step -/

/-- A program of one instruction at `pc`. -/
def program (s : State) (bs : List Byte) : State := s.placeBytes 0 bs

/-- The first step after reset runs the word the host places: `0F E0 00`, PAVGB mm0, [bx+si]. -/
theorem test_step_after_reset : pcOf (step (State.reset.withFetchWord 24 0x0FE000)) = some 0xFFF3 := by decide

/-- V1.42 through fetch and decode. -/
theorem test_step_pf2iw : mmOf (step (program (two 0 0x471C4000C0300000) [0x0F, 0x0F, 0xC1, 0x1C])) .mm0 =
    some 0x00007FFFFFFFFFFE := by decide

/-- A state with two pending bytes of two epochs, an SFENCE between them. -/
def fenced : State :=
  let s := two 0 0
  { s with
    cpu :=
      { s.cpu with
        pending := [{ epoch := 0, addr := 0x2000, byte := 0x88, quad := none },
          { epoch := 1, addr := 0x3000, byte := 0x77, quad := none }]
        epoch := 1 } }

/-- The younger byte does not drain first (20_memory.md R46), the older one does. -/
theorem test_drain_order : (fenced.drain 0 1).mem = [] ∧ (fenced.drain 0 0).mem = [(0x2000, 0x88)] := by decide

/-! ## Witnesses: the hypotheses of each statement are met -/

theorem witness_DecodeOfEncodeIsTheInstruction :
    Instr.wf .a32 (.pf2iw .plain .mm1 (.mem (.m32 (.sib .eax .ecx 2 (.d32 0x100))))) = true ∧
    Instr.wf .a16 (.movntq (.seg .es) (.m16 (.based .bp (.d8 0x80))) .mm0) = true := by decide

/-- For EncodeOfDecodeIsTheBytes and DecodedLengthIsThreeToEleven: an instruction of 11 bytes, one of 3. -/
theorem witness_EncodeOfDecodeIsTheBytes :
    decode .a16 [0x26, 0x67, 0x0F, 0x70, 0x84, 0x8D, 1, 2, 3, 4, 0xFF, 0x90] =
      .ok (.pshufw (.segAddr .es) .mm0 (.mem (.m32 (.sib .ebp .ecx 2 (.d32 0x04030201)))) 0xFF, [0x90]) ∧
    decode .a16 [0x0F, 0xAE, 0xF8] = .ok (.sfence .plain, []) := by decide

theorem witness_RefusedPrefixesAreRefused :
    (0x66 : Byte) ∈ ([0x66, 0xF0, 0xF2, 0xF3] : List Byte) ∧
    (segOverride (.addrSeg .gs)).isSome = true ∧ (0x26 : Byte) ∈ ([0x26, 0x2E, 0x36, 0x3E, 0x64, 0x65] : List Byte) ∧
    (0x67 : Byte) ∈ pfxBytes (.segAddr .gs) := by decide

/-- `mod` 2 and 3, and the last defined and the first undefined member of `0F 18`. -/
theorem witness_ForbiddenModAndGroupMembersAreRefused :
    fieldTop 0xBF ≠ 3 ∧ fieldTop 0xC0 = 3 ∧ (fieldTop 0xDF = 3 ∧ (fieldMid 0xDF).toNat = 3) ∧
    (fieldMid 0x20).toNat = 4 ∧ (0xF9 : Byte) ≠ 0xF8 := by decide

/-- PAVGB mm0, mm1 in a 16-bit code segment, with its end at the last offset 0FFFFh. -/
def atTheEnd : State :=
  program { State.reset with cpu := { State.reset.cpu with pc := 0xFFFC } } [0x0F, 0xE0, 0xC1]

theorem witness_StepRunsTheDecodedInstruction :
    atTheEnd.cpu.ended = none ∧ atTheEnd.schedule = [] ∧ atTheEnd.cpu.endAt ≠ some atTheEnd.cpu.pc ∧
    decode (defaultAddrSize atTheEnd.cpu) atTheEnd.fetch.1 = .ok (.pavgb .plain .mm0 (.reg .mm1), []) ∧
    atTheEnd.cpu.pc.toNat + instrLength (.pavgb .plain .mm0 (.reg .mm1)) = lastCodeOffset atTheEnd.cpu ∧
    pcOf (exec (.pavgb .plain .mm0 (.reg .mm1)) atTheEnd) = some 0xFFFF := by decide

/-- A scheduled turn whose instruction raises, in a machine with another agent that has not ended. -/
theorem witness_StepRunsTheDecodedInstruction_scheduled :
    let s := { withControl atTheEnd 0x00000004 false with schedule := [.run, .drain 0 0], others := [flatAgent] }
    s.cpu.ended = none ∧ s.schedule = .run :: [.drain 0 0] ∧ s.cpu.endAt ≠ some s.cpu.pc ∧ ¬ s.OnlyRunningLeft ∧
    decode (defaultAddrSize s.cpu) s.fetch.1 = .ok (.pavgb .plain .mm0 (.reg .mm1), []) ∧
    s.cpu.pc.toNat + instrLength (.pavgb .plain .mm0 (.reg .mm1)) ≤ lastCodeOffset s.cpu ∧
    faultIn (exec (.pavgb .plain .mm0 (.reg .mm1)) s) = some (.invalidOpcode 0xFFFC) := by decide

/-- The same instruction one byte on. -/
def pastTheEnd : State :=
  program { State.reset with cpu := { State.reset.cpu with pc := 0xFFFD } } [0x0F, 0xE0, 0xC1]

/-- Two bytes of an instruction up to the CS limit, and up to the last offset of a 16-bit segment. -/
def cutByLimit : State :=
  let s := program (two 0 0) [0x0F, 0xE0, 0xC1]
  { s with cpu := { s.cpu with segs := { s.cpu.segs with cs := { flatSegment with limit := 1 } } } }

def cutByOffset : State :=
  program { State.reset with cpu := { State.reset.cpu with pc := 0xFFFE } } [0x0F, 0xE0, 0xC1]

theorem witness_StepRefusesWhatItCannotRun :
    (decode .a32 (program (two 0 0) [0x66, 0x0F, 0xE0]).fetch.1 = .error (.refusedPfx 0x66)) ∧
    (decode .a32 (program (two 0 0) [0x0F, 0xE0]).fetch.1 = .error .truncated ∧
      (program (two 0 0) [0x0F, 0xE0]).fetch.2 = some .outsideProgram) ∧
    ((two 0 0).fetch = ([], some .outsideProgram) ∧ (two 0 0).cpu.ended = none ∧ (two 0 0).OnlyRunningLeft ∧
      (two 0 0).cpu.endAt ≠ some (two 0 0).cpu.pc) ∧
    (decode .a32 cutByLimit.fetch.1 = .error .truncated ∧ cutByLimit.fetch = ([0x0F, 0xE0], some .codeLimit)) ∧
    (decode .a16 pastTheEnd.fetch.1 = .ok (.pavgb .plain .mm0 (.reg .mm1), []) ∧
      lastCodeOffset pastTheEnd.cpu < pastTheEnd.cpu.pc.toNat + instrLength (.pavgb .plain .mm0 (.reg .mm1))) := by
  decide

/-- The same machine with the end of the program designated. -/
def endingAt (s : State) (pc : Dword) : State := { s with cpu := { s.cpu with endAt := some pc } }

/-- An end inside the program text, with the turn scheduled. -/
theorem witness_StepRefusesWhatItCannotRun_end :
    let s := { endingAt (program (two 0 0) [0x0F, 0xE0, 0xC1]) 0 with schedule := [.run, .drain 0 0] }
    s.cpu.ended = none ∧ s.schedule = .run :: [.drain 0 0] ∧ s.cpu.endAt = some s.cpu.pc ∧ s.inText 0 = true := by
  decide

/-- A designated end counts wherever it lies: inside the text, and behind the CS limit; elsewhere the text goes on
(70_reset_and_hazards.md R158 (a)). -/
theorem test_designated_end :
    refusalIn (step (endingAt (program (two 0 0) [0x0F, 0xE0, 0xC1]) 0)) = some .programEnd ∧
    refusalIn (step (endingAt { cutByLimit with cpu := { cutByLimit.cpu with pc := 2 } } 2)) = some .programEnd ∧
    pcOf (step (endingAt (program (two 0 0) [0x0F, 0xE0, 0xC1]) 3)) = some 3 ∧
    refusalIn (step (endingAt (two 0 0) 3)) = some .outsideProgram ∧ refusalIn (step (two 0 0)) = some .programEnd := by
  decide

/-- Each reason why the fetch ends. -/
theorem witness_FetchReadsTheCodeSegment :
    cutByOffset.fetch = ([0x0F, 0xE0], some .codeLimit) ∧
    (program (two 0 0) [0x0F, 0xE0, 0xC1]).fetch = ([0x0F, 0xE0, 0xC1], some .outsideProgram) ∧
    (v86 (two 0 0) []).fetch = ([], some .codeNotMapped) ∧
    (program (two 0 0) (List.replicate 12 0x90)).fetch = (List.replicate 11 0x90, none) := by decide

/-- An agent that has ended, with its two pending bytes. -/
def endedFenced : State := { fenced with cpu := { fenced.cpu with ended := some (.raised (.invalidOpcode 0)) } }

/-- The same without them: what the step of a complete run answers. -/
def complete : State := { endedFenced with cpu := { endedFenced.cpu with pending := [] } }

/-- `fenced` beside another agent, with three bytes of program text. -/
def fencedBeside : State := { fenced with text := [⟨0, 3⟩], others := [flatAgent] }

/-- A complete run; an event before an instruction; a turn, a drain and another agent's turn after the end; a write of
an outside agent behind the program text and to its last byte; another agent's turn where there is one and where there
is none. -/
theorem witness_TurnsFollowTheSchedule :
    (complete.cpu.ended = some (.raised (.invalidOpcode 0)) ∧ complete.OnlyRunningLeft) ∧
    fenced.cpu.ended = none ∧
    (endedFenced.cpu.ended ≠ none ∧ ¬ endedFenced.OnlyRunningLeft ∧ endedFenced.schedule = []) ∧
    ¬ State.OnlyRunningLeft { complete with others := [flatAgent] } ∧
    (fencedBeside.mem.wf = true ∧ fencedBeside.inText 3 = false ∧ fencedBeside.inText 2 = true) ∧
    fencedBeside.others[0]? = some flatAgent ∧ fencedBeside.others[1]? = none := by decide

/-- An exception ends the run of an agent at once and is shown when its pending bytes have drained, the older one
first (70_reset_and_hazards.md R158). -/
theorem test_end_of_run :
    (pendingOf (step (program (withControl fenced 0x00000005 false) [0x0F, 0xE0, 0xC1])) =
      some (fenced.cpu.pending, some (.raised (.invalidOpcode 0)), (program fenced [0x0F, 0xE0, 0xC1]).mem)) ∧
    pendingOf (step endedFenced) =
      some (fenced.cpu.pending.drop 1, some (.raised (.invalidOpcode 0)), [(0x2000, 0x88)]) ∧
    faultIn (step complete) = some (.invalidOpcode 0) := by
  refine ⟨?_, ?_, ?_⟩ <;> decide

/-- The outcome that a complete run shows: the one kept, or the one that the last step answers. -/
theorem test_outcome :
    complete.observables.1.map (·.outcome) = [some (.raised (.invalidOpcode 0))] ∧
    (two 0 0).observables.1.map (·.outcome) = [some .programEnd] := by decide

/-- DI with 67h in a 32-bit segment, EDI with 67h in a 16-bit one (30_encoding.md R66, R67). -/
theorem test_maskmov_operand :
    maskmovOffset (withMem [] 0 0x12345678).cpu .plain = 0x12345678 ∧
    maskmovOffset (withMem [] 0 0x12345678).cpu (.segAddr .es) = 0x5678 ∧
    maskmovOffset (realAt 0 0x12345678).cpu .addr = 0x12345678 ∧ maskmovSeg (.segAddr .es) = .es := by decide

theorem witness_OperandsAreInTheirSegments :
    Pfx.addrSeg .gs ∈ [Pfx.seg .gs, .segAddr .gs, .addrSeg .gs] ∧ Pfx.addr ∈ [Pfx.plain, .addr] := by decide

/-- Both sizes at the highest offset that holds them, with a device elsewhere. -/
theorem witness_MemorySourcesAreLittleEndian :
    let s := { two 0 0 0xFFFFFFF8 with devices := [⟨0xA0000, 0x20000⟩] }
    let t := { two 0 0 0xFFFFFFFE with devices := [⟨0xA0000, 0x20000⟩] }
    accessCheck s.cpu (operandSeg .plain atEsi) (effectiveAddress s.cpu atEsi) 8 .read =
      .ok ((List.range 8).map (0xFFFFFFF8 + ·)) ∧
    (∀ q ∈ (List.range 8).map (0xFFFFFFF8 + ·), s.inDevice q = false) ∧
    accessCheck t.cpu (operandSeg .plain atEsi) (effectiveAddress t.cpu atEsi) 2 .read =
      .ok [0xFFFFFFFE, 0xFFFFFFFF] ∧
    (∀ q ∈ [0xFFFFFFFE, 0xFFFFFFFF], t.inDevice q = false) := by decide

/-- A byte read early, before another agent writes it: byte 1 of a 64-bit operand that is not aligned. -/
def readBefore : State :=
  ((withMem quadAt2000 0x2001 0).readEarly 1 0x2002).writeExternal 0x2002 0xEE

theorem witness_MemorySourcesAreLittleEndian_early :
    readBefore.cpu.early = [{ index := 1, addr := 0x2002, byte := 0x66 }] ∧ readBefore.sees 0x2002 = 0xEE ∧
    accessCheck readBefore.cpu (operandSeg .plain atEsi) (effectiveAddress readBefore.cpu atEsi) 8 .read =
      .ok ((List.range 8).map (0x2001 + ·)) ∧
    quadSource readBefore .plain (.mem atEsi) = .ok 0x0011223344556677 := by decide

/-- What MOVNTQ leaves pending for an aligned operand, between two other stores. -/
def quadPending : State :=
  let s := two 0 0 0x2000
  let quad := (List.finRange 8).map fun k =>
    ({ epoch := 0, addr := 0x2000 + k.val, byte := BitVec.ofNat 8 (k.val + 1), quad := some k } : Record)
  { s with
    cpu :=
      { s.cpu with
        pending := [{ epoch := 0, addr := 0x3000, byte := 0x77, quad := none }] ++ quad ++
          [{ epoch := 0, addr := 0x2003, byte := 0x78, quad := none }] } }

/-- An aligned operand of which a byte was read early. -/
def alignedEarly : State := ((withMem quadAt2000 0x2000 0).readEarly 1 0x2001).writeExternal 0x2001 0xEE

/-- An aligned read, with a byte of it read early. -/
theorem witness_AtomicAlignedAccesses :
    accessCheck alignedEarly.cpu (operandSeg .plain atEsi) (effectiveAddress alignedEarly.cpu atEsi) 8 .read =
      .ok ((List.range 8).map (0x2000 + ·)) ∧
    (alignedEarly.cpu.linear (operandSeg .plain atEsi) (effectiveAddress alignedEarly.cpu atEsi) 0).toNat % 8 = 0 ∧
    (∀ q ∈ (List.range 8).map (0x2000 + ·), alignedEarly.inDevice q = false) ∧
    alignedEarly.cpu.early.length = 1 := by decide

/-- An aligned store between two others. -/
theorem witness_AtomicAlignedAccesses_store :
    let rs := quadPending.cpu.pending
    let quad := (rs.drop 1).take 8
    quadPending.mem.wf = true ∧ quadPending.agent 0 = some quadPending.cpu ∧ rs = rs.take 1 ++ quad ++ rs.drop 9 ∧
    (∀ r ∈ quad, r.epoch = 0) ∧ quad.map (·.quad) = (List.finRange 8).map some ∧ (quad.map (·.addr)).Nodup ∧
    (∀ r ∈ rs, 0 ≤ r.epoch) ∧ (∀ r ∈ rs.take 1, ∀ q ∈ quad, r.addr ≠ q.addr) ∧ quad.length = 8 := by decide

/-- A 64-bit source, in a register and in memory, for PackedAveragesRoundUp, PackedMaximaAndMinima,
PmulhuwKeepsTheHighHalf, PsadbwSumsAbsoluteDifferences, PshufwSelectsWords, PswapdExchangesDoublewords,
Pi2fwConvertsExactly, Pf2iwTruncatesAndSaturates and AccumulatesWithinEachOperand. -/
theorem witness_QuadSourceStatements :
    (MmxReady (two 1 0x1122334455667788) ∧
      quadSource (two 1 0x1122334455667788) .plain (.reg .mm1) = .ok 0x1122334455667788) ∧
    (MmxReady (withMem quadAt2000 0x2000 0) ∧
      quadSource (withMem quadAt2000 0x2000 0) .plain (.mem atEsi) = .ok 0x1122334455667788) := by decide

/-- A number, an infinity and a NaN in a lane, and the word 0. -/
theorem witness_ConversionClauses :
    f32Exp (dwordLane 0x7F8000007F7FFFFF 0) = 254 ∧ f32Class (dwordLane 0x7F8000007F7FFFFF 1) = .infinity ∧
    f32Class (dwordLane 0xFFC00000 0) = .nan ∧ (wordLane 0x10000 0).toInt = 0 := by decide

theorem witness_ExtractsZeroExtend : MmxReady (two 0 0) := by decide

theorem witness_PinsrwReplacesOneWord :
    (MmxReady ((two 0 0).setX .eax 0xDEADBEEF) ∧
      wordSource ((two 0 0).setX .eax 0xDEADBEEF) .plain (.reg .eax) = .ok 0xBEEF) ∧
    (MmxReady (withMem quadAt2000 0x2001 0) ∧
      wordSource (withMem quadAt2000 0x2001 0) .plain (.mem atEsi) = .ok 0x6677) := by decide

/-- 1.5 + 4.0 = 5.5 exactly, and 1.5 - 1.5 = 0. -/
theorem witness_AddAndSubtractAreExactWherePossible :
    f32ZeroOrNormal 0x3FC00000 = true ∧ f32ZeroOrNormal 0x40800000 = true ∧ f32Class 0x40B00000 = .normal ∧
    f32Scaled 0x40B00000 = f32Scaled 0x3FC00000 + f32Scaled 0x40800000 ∧
    f32Scaled 0x3FC00000 - f32Scaled 0x3FC00000 = 0 := by decide

/-- The highest operand, with text and a device elsewhere. -/
theorem witness_MovntqStoresEightBytes :
    let s := { (two 5 0).setX .edi 0xFFFFFFF8 with devices := [⟨0xA0000, 0x20000⟩], text := [⟨0, 3⟩] }
    MmxReady s ∧
    accessCheck s.cpu (operandSeg .plain atEdi) (effectiveAddress s.cpu atEdi) 8 .write =
      .ok ((List.range 8).map (0xFFFFFFF8 + ·)) ∧
    ∀ q ∈ (List.range 8).map (0xFFFFFFF8 + ·), s.inDevice q = false ∧ s.inText q = false := by decide

/-- The program text ends and begins again beside the destination, and an unselected byte is a device's. -/
theorem witness_MaskmovqStoresSelectedBytes :
    let s := { (two 0x1122334455667788 0x8000000000000080).setX .edi 0x2000 with
      text := [⟨0x1FFF, 1⟩, ⟨0x2008, 1⟩], devices := [⟨0x2001, 1⟩] }
    MmxReady s ∧
    accessCheck s.cpu (maskmovSeg .plain) (maskmovOffset s.cpu .plain) 8 .write =
      .ok ((List.range 8).map (0x2000 + ·)) ∧
    (topBit (s.mm .mm1) 0 = true ∧ topBit (s.mm .mm1) 7 = true ∧ topBit (s.mm .mm1) 1 = false) ∧
    (∀ q ∈ (List.range 8).map (0x2000 + ·), s.inText q = false) ∧
    ∀ k < 8, (s.mm .mm1).getLsbD (8 * k + 7) = true → s.inDevice (0x2000 + k) = false := by decide

/-- An all-zero mask, a window that fits, without and with program text in it, and one that does not. -/
theorem witness_MaskmovqWithZeroMask :
    let s := (two 5 0x7F7F7F7F7F7F7F7F).setX .edi 0xFFFFFFF8
    let t := (two 5 0x7F7F7F7F7F7F7F7F).setX .edi 0xFFFFFFF9
    (MmxReady s ∧ (∀ k < 8, (s.mm .mm1).getLsbD (8 * k + 7) = false) ∧
      accessCheck s.cpu (maskmovSeg .plain) (maskmovOffset s.cpu .plain) 8 .write =
        .ok ((List.range 8).map (0xFFFFFFF8 + ·)) ∧
      (∀ q ∈ (List.range 8).map (0xFFFFFFF8 + ·), s.inText q = false) ∧
      ({ s with text := [⟨0xFFFFFFFF, 1⟩] } : State).inText 0xFFFFFFFF = true) ∧
    (MmxReady t ∧ (∀ k < 8, (t.mm .mm1).getLsbD (8 * k + 7) = false) ∧
      accessCheck t.cpu (maskmovSeg .plain) (maskmovOffset t.cpu .plain) 8 .write =
        .error .generalProtection) := by decide

/-- A read whose last byte, and a store whose first byte, is a device's; a store to one byte of text; a masked
store whose selected byte is beside the text. -/
theorem witness_DevicesAndProgramTextAreRefused :
    let s := { (two 0 0x80 0x1FF9).setX .edi 0x2000 with devices := [⟨0x2000, 1⟩] }
    let t := { (two 0 0x80).setX .edi 0x2000 with text := [⟨0x2007, 1⟩] }
    (MmxReady s ∧ memoryOperand s (.pavgb .plain .mm0 (.mem atEsi)) = some ⟨.ds, 0x1FF9, 8, .read⟩ ∧
      accessCheck s.cpu .ds 0x1FF9 8 .read = .ok ((List.range 8).map (0x1FF9 + ·)) ∧ s.inDevice 0x2000 = true) ∧
    (memoryOperand s (.movntq .plain atEdi .mm0) = some ⟨.ds, 0x2000, 8, .write⟩ ∧
      accessCheck s.cpu .ds 0x2000 8 .write = .ok ((List.range 8).map (0x2000 + ·)) ∧
      0x2000 ∈ storedAddresses s (.movntq .plain atEdi .mm0)) ∧
    (MmxReady t ∧ accessCheck t.cpu .ds 0x2000 8 .write = .ok ((List.range 8).map (0x2000 + ·)) ∧
      (∀ q ∈ storedAddresses t (.movntq .plain atEdi .mm0), t.inDevice q = false) ∧ t.inText 0x2007 = true ∧
      memoryOperand t (.maskmovq .plain .mm0 .mm1) = some ⟨.ds, 0x2000, 8, .write⟩ ∧
      storedAddresses t (.maskmovq .plain .mm0 .mm1) = [0x2000] ∧ t.inDevice 0x2000 = false ∧
      checkCounts t (.maskmovq .plain .mm0 .mm1) = true) := by decide

/-- `fenced` meets the invariant, with any schedule. -/
theorem fenced_inv (sch : List Event) : ({ fenced with schedule := sch } : State).Inv := by
  have one : ∀ a ∈ fenced.agents, a = fenced.cpu := fun a ha => List.mem_singleton.mp ha
  refine ⟨show fenced.mem.wf = true by decide, ?_, ?_, ?_⟩ <;> intro a ha <;> obtain rfl := one a ha
  · exact ⟨by decide, by decide, by decide⟩
  · exact ⟨by decide, by decide⟩
  · show ∀ r ∈ fenced.cpu.pending, fenced.inText r.addr = false ∧ fenced.inDevice r.addr = false
    decide

/-- A scheduled drain takes the byte of epoch 0. -/
theorem witness_FenceOrdersDrains :
    ({ fenced with schedule := [.drain 0 0] } : State).Inv ∧
    pendingOf (step { fenced with schedule := [.drain 0 0] }) =
      some (fenced.cpu.pending.drop 1, none, [(0x2000, 0x88)]) ∧
    pendingOfEpoch { fenced.cpu with pending := fenced.cpu.pending.drop 1 } 0 < pendingOfEpoch fenced.cpu 0 ∧
    fenced.agent 0 = some fenced.cpu := ⟨fenced_inv _, by decide, by decide, rfl⟩

/-- The older byte drains, then the younger one: the count of epoch 1 falls, and none older is left. -/
theorem witness_DrainListsRespectEpochs :
    fenced.agent 0 = some fenced.cpu ∧
    (drainAll fenced [(0, 0), (0, 0)]).agent 0 = some (drainAll fenced [(0, 0), (0, 0)]).cpu ∧
    pendingOfEpoch (drainAll fenced [(0, 0), (0, 0)]).cpu 1 < pendingOfEpoch fenced.cpu 1 := by decide

/-- A record that may drain, and one that an older epoch holds back. -/
theorem witness_EnabledDrainWritesItsByte :
    fenced.mem.wf = true ∧ fenced.agent 0 = some fenced.cpu ∧
    (fenced.cpu.pending[0]? = some { epoch := 0, addr := 0x2000, byte := 0x88, quad := none } ∧
      ∀ q ∈ fenced.cpu.pending, 0 ≤ q.epoch) ∧
    (fenced.cpu.pending[1]? = some { epoch := 1, addr := 0x3000, byte := 0x77, quad := none } ∧
      ¬ ∀ q ∈ fenced.cpu.pending, 1 ≤ q.epoch) := by decide

theorem witness_DrainsAreInvisibleToTheirAgent :
    fenced.mem.wf = true ∧ fenced.agent 0 = some fenced.cpu ∧
    (fenced.drain 0 0).agent 0 = some (fenced.drain 0 0).cpu ∧
    fenced.cpu.pending.length = 2 ∧ (fenced.drain 0 0).cpu.pending.length = 1 := by decide

/-- Two agents without a pending x87 exception, and a step. -/
theorem witness_FpPendingExactlyWhenPending :
    let s := { program (two 0 0) [0x0F, 0xE0, 0xC1] with others := [flatAgent] }
    (∀ a ∈ s.agents, a.fpPending = false ∧ ∀ q, a.ended ≠ some (.raised (.fpPending q))) ∧
    pcOf (step s) = some 3 := by
  refine ⟨fun a ha => ⟨?_, fun q => ?_⟩, by decide⟩ <;> rcases List.mem_cons.mp ha with rfl | ha
  · decide
  · obtain rfl := List.mem_singleton.mp ha; decide
  · simp [program, State.placeBytes, State.placeByte]; exact nofun
  · obtain rfl := List.mem_singleton.mp ha; exact nofun

/-- A source beyond the limit, and a masked store with a selected byte whose window is. -/
theorem witness_FailedAccessCheckIsRaised :
    let s := (two 0 0x80 0xFFFFFFF9).setX .edi 0xFFFFFFF9
    (MmxReady s ∧ memoryOperand s (.pavgb .plain .mm0 (.mem atEsi)) = some ⟨.ds, 0xFFFFFFF9, 8, .read⟩ ∧
      accessCheck s.cpu .ds 0xFFFFFFF9 8 .read = .error .generalProtection) ∧
    (memoryOperand s (.maskmovq .plain .mm0 .mm1) = some ⟨.ds, 0xFFFFFFF9, 8, .write⟩ ∧
      checkCounts s (.maskmovq .plain .mm0 .mm1) = true ∧
      accessCheck s.cpu .ds 0xFFFFFFF9 8 .write = .error .generalProtection) := by decide

/-- The last operand that fits and the first that does not. -/
theorem witness_SegmentOverrunExactlyOutsideTheRange :
    State.reset.cpu.mode ≠ .protectedMode ∧
    accessCheck State.reset.cpu .ds 0xFFF8 8 .read = .ok ((List.range 8).map (0xFFF8 + ·)) ∧
    accessCheck State.reset.cpu .ds 0xFFF9 8 .read = .error .segmentOverrun := by decide

/-- Stack and data segments at their limits, a null selector, a segment that may not be written. -/
theorem witness_ProtectedModeSegmentChecks :
    let a := { flatAgent with
      segs := { flatAgent.segs with
        ss := { flatSegment with limit := 0x1007 }
        es := { flatSegment with selector := 3 }
        fs := { flatSegment with writable := false } } }
    a.mode = .protectedMode ∧
    accessCheck a .ss 0x1000 8 .read = .ok ((List.range 8).map (0x1000 + ·)) ∧
    accessCheck a .ss 0x1001 8 .read = .error .stackException ∧
    accessCheck a .ds 0xFFFFFFF9 8 .read = .error .generalProtection ∧
    accessCheck a .es 0 8 .read = .error .generalProtection ∧
    accessCheck a .fs 0 8 .write = .error .generalProtection := by decide

/-- Two pages mapped to two frames, the third page not mapped. -/
def paged : Agent :=
  { flatAgent with
    paging := some
      [{ page := 1, frame := 7, userRead := true, userWrite := true, supervisorRead := true, supervisorWrite := true },
        { page := 2, frame := 3, userRead := true, userWrite := false, supervisorRead := true,
          supervisorWrite := true }] }

/-- An operand over both pages, for TranslationIsPageByPage. -/
theorem witness_TranslationIsPageByPage :
    Machine.translate paged .ds 0x1FFC 8 .read =
      .ok [0x7FFC, 0x7FFD, 0x7FFE, 0x7FFF, 0x3000, 0x3001, 0x3002, 0x3003] ∧
    Machine.translate State.reset.cpu .ds 0xFFFE 2 .read = .ok [0xFFFE, 0xFFFF] ∧
    State.reset.cpu.segBase .cs = 0xF0000 ∧ flatAgent.segBase .cs = 0 := by decide

/-- The same operand: its segment check holds, and both pages are listed once and admit the read. -/
theorem witness_TranslationIsPageByPage_admits :
    segCheck paged .ds 0x1FFC 8 .read = .ok () ∧ ∀ k < 8, paged.Admits .read (0x1FFC + k) := by
  refine ⟨by decide, fun k hk => .inr (.inr ⟨_, rfl, ?_⟩)⟩
  revert k
  decide

theorem witness_FlatProfileTranslatesToOffsets :
    flatAgent.mode = .protectedMode ∧ flatAgent.paging = none ∧
    ∀ g, let r := flatAgent.segs.get g
      r.base = 0 ∧ r.limit = 0xFFFFFFFF ∧ r.readable = true ∧ r.writable = true ∧ 4 ≤ r.selector.toNat :=
  ⟨rfl, rfl, fun g => by cases g <;> decide⟩

/-- A write that only its fifth byte's page forbids, and a read whose last byte is not mapped. -/
theorem witness_PageFaultExactlyAtTheFirstUnmappedByte :
    segCheck paged .ds 0x1FFC 8 .write = .ok () ∧
    accessCheck paged .ds 0x1FFC 8 .write = .error (.pageFault 0x2000) ∧
    segCheck paged .ds 0x2FF9 8 .read = .ok () ∧
    accessCheck paged .ds 0x2FF9 8 .read = .error (.pageFault 0x3000) := by decide

/-- V8.7 and V8.8. -/
theorem witness_AlignmentCheckExactlyWhenEnabled :
    let a := (aligned (two 0 0)).cpu
    Machine.translate a .ds 0x1001 2 .read = .ok [0x1001, 0x1002] ∧
    accessCheck a .ds 0x1001 2 .read = .error .alignmentCheck ∧
    accessCheck a .ds 0x1002 2 .read = .ok [0x1002, 0x1003] := by decide

/-- A fault in each mode. -/
theorem witness_FaultsOfEachMode :
    let real := realAt 0xFFF9 0
    let virtual := v86 (two 0 0 0x1000) []
    let protect := two 0 0 0xFFFFFFF9
    (real.cpu.mode = .realAddress ∧
      faultIn (exec (.pavgb .plain .mm0 (.mem atEsi)) real) = some (.segmentOverrun 0xFFF0)) ∧
    (virtual.cpu.mode = .virtual8086 ∧
      faultIn (exec (.pavgb .plain .mm0 (.mem atEsi)) virtual) = some (.pageFault 0x1230 0)) ∧
    (protect.cpu.mode = .protectedMode ∧
      faultIn (exec (.pavgb .plain .mm0 (.mem atEsi)) protect) = some (.generalProtection 0)) := by decide

/-- CPL goes with the CS selector in protected mode (10_state.md R22). -/
theorem test_cpl_in_selector :
    (flatAgent.atCpl 1).segs.cs.selector = 0x21 ∧ (flatAgent.atCpl 1).cpl = 1 ∧
    (resetAgent.atCpl 1).segs.cs.selector = 0xF000 := by decide

theorem witness_RegisterFormsRaiseNoMemoryException :
    memoryOperand (aligned (two 0 0)) (.pextrw .plain .ecx .mm1 0) = none ∧
    faultIn (exec (.pextrw .plain .ecx .mm1 0) (withControl (two 0 0) 0x00000009 false)) =
      some (.deviceNotAvailable 0) := by decide

/-- An aligned operand with the alignment check on and a page that all levels may read; and a register form, which
has no operand. -/
theorem witness_ExecutesAlikeAtEveryCpl :
    let s : State := { two 0 0 with cpu := { paged with cr0 := 0x00040001, eflagsAc := true } }
    memoryOperand s (.pavgb .plain .mm0 (.mem (.m32 (.abs 0x1FF8)))) = some ⟨.ds, 0x1FF8, 8, .read⟩ ∧
    8 ∣ (s.cpu.linear .ds 0x1FF8 0).toNat ∧ s.cpu.mode ≠ .realAddress ∧
    (memoryOperand s (.pavgb .plain .mm0 (.reg .mm1)) = none) ∧
    (let t := { s with cpu := { s.cpu with paging := s.cpu.paging.map (·.take 1) } }
      ∀ o, memoryOperand t (.pavgb .plain .mm0 (.mem (.m32 (.abs 0x1FF8)))) = some o →
        (t.cpu.eflagsAc = false ∨ t.cpu.cr0.getLsbD 18 = false ∨ t.cpu.mode = .realAddress ∨
          o.size ∣ (t.cpu.linear o.seg o.off 0).toNat) ∧
        (t.cpu.mode = .realAddress ∨ ∀ entries, t.cpu.paging = some entries → ∀ e ∈ entries,
          e.userRead = e.supervisorRead ∧ e.userWrite = e.supervisorWrite)) := by
  refine ⟨by decide, by decide, by decide, by decide, fun o ho => ⟨?_, .inr fun entries h => ?_⟩⟩
  · obtain rfl : _ = o := Option.some.inj ho
    decide
  · obtain rfl : _ = entries := Option.some.inj h
    decide

/-- Completed instructions of each shape, for FrameOfRegisters, FrameOfControlState, FrameOfMemory and
FrameOfX87State. -/
theorem witness_FrameStatements :
    (∃ t, exec (.pavgb .plain .mm0 (.reg .mm1)) (two 0 0) = .next t) ∧
    (∃ t, exec (.pextrw .plain .ecx .mm1 0) (two 0 0) = .next t) ∧
    (∃ t, exec (.prefetcht1 .plain atEsi) (two 0 0) = .next t) ∧
    (∃ t, exec (.sfence .plain) (two 0 0) = .next t) := ⟨⟨_, rfl⟩, ⟨_, rfl⟩, ⟨_, rfl⟩, ⟨_, rfl⟩⟩

theorem witness_FrameStatements_stores :
    seesOf (exec (.movntq .plain atEdi .mm0) ((two 5 0).setX .edi 0x2000)) [0x2000] = some [5] ∧
    storedAddresses ((two 5 0).setX .edi 0x2000) (.movntq .plain atEdi .mm0) = (List.range 8).map (0x2000 + ·) := by
  decide

/-- A state with the program PAVGB mm0, mm1 that meets the invariant, for StepKeepsInvariant and
ProgramTextNeverChanges; its first text byte is 0Fh. -/
theorem witness_StepKeepsInvariant :
    (program (two 0 0) [0x0F, 0xE0, 0xC1]).Inv ∧ pcOf (step (program (two 0 0) [0x0F, 0xE0, 0xC1])) = some 3 ∧
    (program (two 0 0) [0x0F, 0xE0, 0xC1]).inText 0 = true := by
  refine ⟨⟨by decide, ?_, ?_, ?_⟩, by decide, by decide⟩ <;> intro a ha <;>
    rcases List.mem_cons.mp ha with rfl | h
  · exact ⟨by decide, by decide, by decide⟩
  · cases h
  · exact ⟨by decide, by decide⟩
  · cases h
  · intro r hr
    cases hr
  · cases h

/-- A state whose step is none, and one that meets the invariant. -/
theorem witness_EveryRunEndsComplete :
    (∀ t, step complete ≠ .next t) ∧ ({ fenced with schedule := [] } : State).Inv :=
  ⟨fun t h => (by
    have : faultIn (step complete) = some (.invalidOpcode 0) := by decide
    rw [h] at this
    cases this), fenced_inv []⟩

end Sys2Proof.Tests
end

section
/-! SUPPORT. A turn of the running agent (00_scope.md R9, 70_reset_and_hazards.md R158): what it does with the
instruction at `pc`, and how it ends the agent's run. -/

namespace Sys2Proof.Machine

open Sys2Proof

/-! ## The schedule is no part of what is fetched -/

@[simp] theorem State.fetchFrom_withSchedule (s : State) (l : List Event) (n k : Nat) :
    State.fetchFrom { s with schedule := l } n k = s.fetchFrom n k := by
  induction n generalizing k with
  | zero => rfl
  | succ n ih =>
    have hbyte : State.fetchByte { s with schedule := l } k = s.fetchByte k := rfl
    simp only [State.fetchFrom, hbyte, ih]

@[simp] theorem State.fetch_withSchedule (s : State) (l : List Event) :
    State.fetch { s with schedule := l } = s.fetch := s.fetchFrom_withSchedule l _ _

/-! ## What runs, and what ends -/

theorem decode_nil (dflt : AddrSize) : decode dflt [] = .error .truncated := rfl

theorem atEnd_eq_false_iff (s : State) : s.atEnd = false ↔ s.cpu.endAt ≠ some s.cpu.pc := by
  simp [State.atEnd]

theorem runInstruction_of_decode {s : State} {i : Instr} {rest : List Byte}
    (hd : decode (defaultAddrSize s.cpu) s.fetch.1 = .ok (i, rest))
    (hp : s.cpu.pc.toNat + instrLength i ≤ lastCodeOffset s.cpu) : s.runInstruction = exec i s := by
  simp [State.runInstruction, hd, Nat.not_lt.mpr hp]

/-- Away from the end of the program an agent's run ends as its instruction's outcome says. -/
theorem nextEnding_of_not_atEnd {s : State} (ha : s.atEnd = false) (ht : s.textEnds = false) :
    s.nextEnding = Ending.ofOutcome s.runInstruction := by
  simp [State.nextEnding, ha, ht]

/-- Where the bytes decode, the program text does not end, so that only the instruction can end the agent's run. -/
theorem nextEnding_of_decode {s : State} {i : Instr} {rest : List Byte} (hend : s.cpu.endAt ≠ some s.cpu.pc)
    (hd : decode (defaultAddrSize s.cpu) s.fetch.1 = .ok (i, rest))
    (hp : s.cpu.pc.toNat + instrLength i ≤ lastCodeOffset s.cpu) : s.nextEnding = Ending.ofOutcome (exec i s) := by
  have htext : s.textEnds = false := textEnds_of_fetch fun hnil => by
    rw [hnil, decode_nil] at hd
    cases hd
  rw [nextEnding_of_not_atEnd ((atEnd_eq_false_iff s).mpr hend) htext, runInstruction_of_decode hd hp]

theorem onlyRunningLeft_iff_lastOne (s : State) : s.OnlyRunningLeft ↔ s.lastOne = true := by
  simp [lastOne_iff, Option.isSome_iff_ne_none]

/-! ## One turn -/

/-- With nothing scheduled before it, or its own turn scheduled, an agent that has not ended takes its turn. -/
theorem step_of_own_turn {s : State} (he : s.cpu.ended = none)
    (hs : s.schedule = [] ∨ ∃ later, s.schedule = .run :: later) :
    step s = State.runAgent { s with schedule := s.schedule.tail } := by
  have hc : s.completeEnding = none := by simp [State.completeEnding, he]
  have ht : s.turnEvent = .run := by
    rcases hs with hs | ⟨later, hs⟩ <;> simp [State.turnEvent, hs, he]
  simp only [step, State.turn, hc, ht]

theorem runAgent_of_nextEnding_none {s : State} (he : s.cpu.ended = none) (hn : s.nextEnding = none) :
    s.runAgent = s.runInstruction := by
  simp [State.runAgent, he, hn]

theorem runAgent_of_nextEnding_some {s : State} {e : Ending} (he : s.cpu.ended = none)
    (hn : s.nextEnding = some e) : s.runAgent = s.stop e := by
  simp [State.runAgent, he, hn]

/-- A turn at which the agent's run does not end is its instruction. -/
theorem step_of_nextEnding_none {s : State} (he : s.cpu.ended = none)
    (hs : s.schedule = [] ∨ ∃ later, s.schedule = .run :: later)
    (hn : State.nextEnding { s with schedule := s.schedule.tail } = none) :
    step s = State.runInstruction { s with schedule := s.schedule.tail } :=
  (step_of_own_turn he hs).trans (runAgent_of_nextEnding_none (s := { s with schedule := s.schedule.tail }) he hn)

/-- A turn at which the agent's run ends shows the ending or records it, as `StepEnds` says (R158). -/
theorem stepEnds_of_nextEnding {s : State} {e : Ending} (he : s.cpu.ended = none)
    (hs : s.schedule = [] ∨ ∃ later, s.schedule = .run :: later)
    (hn : State.nextEnding { s with schedule := s.schedule.tail } = some e) : StepEnds s e e.outcome := by
  have hstep : step s = State.stop { s with schedule := s.schedule.tail } e :=
    (step_of_own_turn he hs).trans (runAgent_of_nextEnding_some (s := { s with schedule := s.schedule.tail }) he hn)
  have hlast : State.lastOne { s with schedule := s.schedule.tail } = s.lastOne := rfl
  constructor
  · intro h
    rw [onlyRunningLeft_iff_lastOne] at h
    rw [hstep, State.stop, hlast, if_pos h]
  · intro h
    rw [onlyRunningLeft_iff_lastOne] at h
    rw [hstep, State.stop, hlast, if_neg h]
    rfl

/-- Settles O7: the turn's instruction is the decoded one, and `Ending.ofOutcome` of what it answers is how the
agent's run ends, if it does. -/
theorem stepRunsTheDecodedInstruction : Obligations.StepRunsTheDecodedInstruction := by
  intro s i rest he hs hend hd hp
  have hd' : decode (defaultAddrSize s.cpu) (State.fetch { s with schedule := s.schedule.tail }).1 = .ok (i, rest) :=
    (s.fetch_withSchedule _).symm ▸ hd
  have hrun := runInstruction_of_decode (s := { s with schedule := s.schedule.tail }) hd' hp
  have hnext := nextEnding_of_decode (s := { s with schedule := s.schedule.tail }) hend hd' hp
  refine ⟨fun t ho => ?_, fun f ho => ?_, fun r ho => ?_⟩
  · have hnone := hnext.trans ((ofOutcome_eq_none _).mpr ⟨t, ho⟩)
    exact (step_of_nextEnding_none he hs hnone).trans (hrun.trans ho)
  · exact stepEnds_of_nextEnding he hs (hnext.trans (congrArg Ending.ofOutcome ho))
  · exact stepEnds_of_nextEnding he hs (hnext.trans (congrArg Ending.ofOutcome ho))

end Sys2Proof.Machine
end

section
/-! SUPPORT. The bytes that a read of memory answers, and the bytes of the value they make (20_memory.md R31, R39,
R40). -/

namespace Sys2Proof.Machine

open Sys2Proof

/-! ## Operand bytes -/

/-- An operand byte is the one seen now, or one of the list of bytes read earlier (20_memory.md R40, R48). -/
theorem operandByte_cases (s : State) (quad : Bool) (k p : Nat) :
    s.operandByte quad k p = s.sees p ∨
      ∃ e ∈ s.cpu.early, e.index = k ∧ e.addr = p ∧ s.operandByte quad k p = e.byte := by
  unfold State.operandByte
  split
  · exact .inl rfl
  · rename_i e hfind
    split
    · exact .inl rfl
    · have hplace := List.find?_some hfind
      simp only [Bool.and_eq_true, beq_iff_eq] at hplace
      exact .inr ⟨e, List.mem_of_find?_eq_some hfind, hplace.1, hplace.2, rfl⟩

theorem operandByte_of_early_nil {s : State} (h : s.cpu.early = []) (quad : Bool) (k p : Nat) :
    s.operandByte quad k p = s.sees p := by
  simp [State.operandByte, h]

theorem operandBytes_getElem? (s : State) (quad : Bool) (k : Nat) (ps : List Nat) (j : Nat) :
    (s.operandBytes quad k ps)[j]? = ps[j]?.map (s.operandByte quad (k + j)) := by
  induction ps generalizing k j with
  | nil => rfl
  | cons p ps ih =>
    cases j with
    | zero => rfl
    | succ j => simp [State.operandBytes, ih, Nat.add_assoc, Nat.add_comm 1 j]

/-- A read whose checks hold and that touches no device answers, at each place of the operand, the operand byte at
that place's physical address. -/
theorem memRead_of_accessCheck {s : State} {seg : Seg} {off : Dword} {n : Nat} {ps : List Nat}
    (ha : accessCheck s.cpu seg off n .read = .ok ps) (hd : ∀ q ∈ ps, s.inDevice q = false) :
    ∃ bs, memRead s seg off n = .ok bs ∧ ∀ k < n, ∃ q, ps[k]? = some q ∧
      bs[k]? = some (s.operandByte (alignedQuad (s.cpu.linear seg off 0) n) k q) := by
  refine ⟨_, (memRead_eq_ok ..).mpr ⟨ps, ha, hd, rfl⟩, fun k hk => ?_⟩
  have hk' : k < ps.length := accessCheck_length ha ▸ hk
  exact ⟨ps[k], List.getElem?_eq_getElem hk', by simp [operandBytes_getElem?, hk']⟩

/-! ## Bytes of a little-endian value -/

/-- Byte `k` of the word of two bytes at ascending addresses is the byte at place `k` (20_memory.md R31). -/
theorem extractLsb'_wordOfBytes (bs : List Byte) {k : Nat} (h : k < 2) :
    (wordOfBytes bs).extractLsb' (8 * k) 8 = bs[k]?.getD 0 := by
  apply BitVec.eq_of_toNat_eq
  rw [← littleEndian_byte, wordOfBytes, BitVec.extractLsb'_toNat, BitVec.toNat_ofNat]
  have hk : k = 0 ∨ k = 1 := by omega
  rcases hk with rfl | rfl
  · simp
  · simp [Nat.shiftRight_eq_div_pow]
    omega

/-! ## Memory sources -/

theorem quadSource_mem_of_memRead {s : State} {p : Pfx} {m : MemRef} {bs : List Byte}
    (h : memRead s (operandSeg p m) (effectiveAddress s.cpu m) 8 = .ok bs) :
    quadSource s p (.mem m) = .ok (quadOfBytes bs) := by
  simp [quadSource, h]

theorem wordSource_mem_of_memRead {s : State} {p : Pfx} {m : MemRef} {bs : List Byte}
    (h : memRead s (operandSeg p m) (effectiveAddress s.cpu m) 2 = .ok bs) :
    wordSource s p (.mem m) = .ok (wordOfBytes bs) := by
  simp [wordSource, h]

/-- Settles O14: a read answers the operand bytes in place, and each is a byte of the little-endian value. -/
theorem memorySourcesAreLittleEndian : Obligations.MemorySourcesAreLittleEndian := by
  refine fun s p => ⟨fun k q => rfl, fun r => rfl, fun m ps hd => ⟨fun ha => ?_, fun ha => ?_⟩⟩
  · obtain ⟨bs, hread, hbytes⟩ := memRead_of_accessCheck ha hd
    refine ⟨_, quadSource_mem_of_memRead hread, fun k hk => ?_⟩
    obtain ⟨q, hq, hb⟩ := hbytes k hk
    rw [byteLane_quadOfBytes bs hk, hb]
    exact ⟨q, hq, operandByte_cases .., fun he => operandByte_of_early_nil he ..⟩
  · obtain ⟨bs, hread, hbytes⟩ := memRead_of_accessCheck ha hd
    refine ⟨_, wordSource_mem_of_memRead hread, fun k hk => ?_⟩
    obtain ⟨q, hq, hb⟩ := hbytes k hk
    rw [extractLsb'_wordOfBytes bs hk, hb]
    exact ⟨q, hq, operandByte_cases .., fun he => operandByte_of_early_nil he ..⟩

end Sys2Proof.Machine
end

section
/-! SUPPORT. What a completed instruction changes and what it leaves unchanged (10_state.md R16 to R27), read off the
shapes of `Completed`. -/

namespace Sys2Proof.Machine

open Sys2Proof

/-! ## Length (30_encoding.md R55) -/

/-- The length formula counts the bytes that the encoder writes. -/
theorem length_encode : ∀ i : Instr, (encode i).length = instrLength i
  | .pf2iw .. | .pfnacc .. | .pfpnacc .. | .pi2fw .. | .pswapd .. => Laws.length_encode3DN ..
  | .maskmovq .. | .movntq .. | .pavgb .. | .pavgw .. | .pmaxsw .. | .pmaxub .. | .pminsw .. | .pminub ..
  | .pmulhuw .. | .psadbw .. => Laws.length_encodeRMForm ..
  | .prefetchnta .. | .prefetcht0 .. | .prefetcht1 .. | .prefetcht2 .. => Laws.length_encodePrefetch ..
  | .pextrw .. => Laws.LengthAgrees.pextrw ..
  | .pinsrw .. => Laws.LengthAgrees.pinsrw ..
  | .pmovmskb .. => Laws.LengthAgrees.pmovmskb ..
  | .pshufw .. => Laws.LengthAgrees.pshufw ..
  | .sfence .. => Laws.LengthAgrees.sfence ..

/-! ## Registers, control state, x87 state -/

/-- Settles O52: of the shapes of a completed instruction only the two that write a register change one, and each adds
the length to `pc`. -/
theorem frameOfRegisters : Obligations.FrameOfRegisters := by
  intro i s t h
  rw [length_encode]
  cases exec_completed i s t h with
  | writesMm d v k _ hd _ _ _ ht =>
    subst ht
    refine ⟨fun r hr => ?_, fun r _ => rfl, rfl⟩
    have hne : r ≠ d := fun e => hr (e ▸ hd)
    simp [hne]
  | writesX d v _ _ hx _ ht =>
    subst ht
    refine ⟨fun r _ => rfl, fun r hr => ?_, rfl⟩
    have hne : r ≠ d := fun e => hr (e ▸ hx)
    simp [hne]
  | stores quad cells _ _ _ _ _ _ ht =>
    subst ht
    exact ⟨fun r _ => rfl, fun r _ => rfl, rfl⟩
  | hints _ _ _ _ _ ht =>
    subst ht
    exact ⟨fun r _ => rfl, fun r _ => rfl, rfl⟩
  | fences p _ ht =>
    subst ht
    exact ⟨fun r _ => rfl, fun r _ => rfl, rfl⟩

/-- Settles O53: no shape of a completed instruction touches these fields, and only PF2IW's draws. -/
theorem frameOfControlState : Obligations.FrameOfControlState := by
  intro i s t h
  cases exec_completed i s t h with
  | writesMm d v k _ _ _ _ hk ht =>
    subst ht
    have hdraws : (∀ p d src, i ≠ .pf2iw p d src) → s.draws + k = s.draws := by
      rcases hk with ⟨p, d, src, rfl⟩ | rfl
      · exact fun hne => absurd rfl (hne p d src)
      · exact fun _ => rfl
    simpa using hdraws
  | writesX d v _ _ _ _ ht => subst ht; simp
  | stores quad cells _ _ _ _ _ _ ht => subst ht; simp
  | hints _ _ _ _ _ ht => subst ht; simp
  | fences p _ ht => subst ht; simp

/-- Settles O55: `retireMmx` ends every instruction that runs the checks, and `setMm` fills the high bits of the
register it writes. -/
theorem frameOfX87State : Obligations.FrameOfX87State := by
  intro i s t h
  cases exec_completed i s t h with
  | writesMm d v k hr hd _ _ _ ht => subst ht; simp [hr, hd, eq_comm]
  | writesX d v hr hd _ _ ht => subst ht; simp [hr, hd]
  | stores quad cells hr hd _ _ _ _ ht => subst ht; simp [hr, hd]
  | hints hr _ _ _ _ ht => subst ht; simp [hr]
  | fences p hi ht => subst hi ht; simp [runsNoCheck]

/-! ## Memory and pending bytes -/

/-- Settles O54: only a store appends records, and their addresses are its stored ones. -/
theorem frameOfMemory : Obligations.FrameOfMemory := by
  intro i s t h
  cases exec_completed i s t h with
  | writesMm d v k _ _ _ hs _ ht => subst ht; simp [hs]
  | writesX d v _ _ _ hs ht => subst ht; simp [hs]
  | stores quad cells _ _ _ hs _ hi ht =>
    subst ht
    refine ⟨rfl, fun q hq => ?_, fun hnil => ?_, fun _ => rfl, fun hmov hmask => ?_⟩
    · refine sees_addPending_other s _ q fun r hr he => hq ?_
      exact hs ▸ he ▸ storeRecords_addr _ _ _ _ r hr
    · have hcells : cells = [] := List.map_eq_nil_iff.mp (hs ▸ hnil)
      simp [hcells, storeRecords]
    · rcases hi with ⟨p, dst, r, hi⟩ | ⟨p, d, m, hi⟩
      · exact absurd hi (hmov p dst r)
      · exact absurd hi (hmask p d m)
  | hints _ _ _ hs _ ht => subst ht; simp [hs]
  | fences p hi ht => subst hi ht; simp [storedAddresses]

/-- What an instruction that completes adds to `pending` are ordinary bytes of the agent's epoch, at its end, and the
epoch never falls (20_memory.md R44, R46, R50). -/
theorem exec_appends {i : Instr} {s t : State} (h : exec i s = .next t) :
    ∃ rs, t.cpu.pending = s.cpu.pending ++ rs ∧ s.cpu.epoch ≤ t.cpu.epoch ∧
      ∀ r ∈ rs, r.epoch = s.cpu.epoch ∧ s.inText r.addr = false ∧ s.inDevice r.addr = false := by
  cases exec_completed i s t h with
  | writesMm d v k _ _ _ _ _ ht => subst ht; exact ⟨[], by simp⟩
  | writesX d v _ _ _ _ ht => subst ht; exact ⟨[], by simp⟩
  | stores quad cells _ _ _ _ hc _ ht =>
    subst ht
    refine ⟨_, rfl, le_refl _, fun r hr => ?_⟩
    obtain ⟨hdevice, htext⟩ := hc _ (storeRecords_cell _ _ _ _ r hr)
    exact ⟨storeRecords_epoch _ _ _ _ r hr, htext, hdevice⟩
  | hints _ _ _ _ _ ht => subst ht; exact ⟨[], by simp⟩
  | fences p _ ht => subst ht; exact ⟨[], by simp⟩

end Sys2Proof.Machine
end

section
/-! SUPPORT. The invariant, agent by agent, and why every step keeps it (10_state.md R22; 20_memory.md R44, R46,
R50). -/

namespace Sys2Proof.Machine

open Sys2Proof

/-! ## The invariant of one agent -/

/-- What `State.Inv` says of one agent. -/
structure State.Sound (s : State) (a : Agent) : Prop where
  cpl : a.cplLegal
  ordered : a.pendingOrdered
  ordinary : s.pendingOrdinary a

theorem inv_iff_sound (s : State) : s.Inv ↔ s.mem.wf = true ∧ ∀ a ∈ s.agents, s.Sound a :=
  ⟨fun h => ⟨h.memory, fun a ha => ⟨h.cpl a ha, h.ordered a ha, h.ordinary a ha⟩⟩,
    fun ⟨hm, ha⟩ => ⟨hm, fun a h => (ha a h).cpl, fun a h => (ha a h).ordered, fun a h => (ha a h).ordinary⟩⟩

theorem State.Inv.sound {s : State} (h : s.Inv) {a : Agent} (ha : a ∈ s.agents) : s.Sound a :=
  ((inv_iff_sound s).mp h).2 a ha

theorem State.Inv.sound_cpu {s : State} (h : s.Inv) : s.Sound s.cpu := h.sound List.mem_cons_self

theorem State.Inv.sound_others {s : State} (h : s.Inv) {a : Agent} (ha : a ∈ s.others) : s.Sound a :=
  h.sound (List.mem_cons_of_mem _ ha)

theorem mem_agents_iff (s : State) (a : Agent) : a ∈ s.agents ↔ ∃ who, s.agent who = some a := by
  constructor
  · intro h
    rcases List.mem_cons.mp h with rfl | h
    · exact ⟨0, rfl⟩
    · obtain ⟨k, hk⟩ := List.mem_iff_getElem?.mp h
      exact ⟨k + 1, hk⟩
  · rintro ⟨who | k, h⟩
    · exact List.mem_cons.mpr (.inl (Option.some.inj h).symm)
    · exact List.mem_cons_of_mem _ (List.mem_of_getElem? h)

/-- The invariant holds of a state with the same program text and devices, canonical memory and sound agents. -/
theorem State.Inv.of_sound {s t : State} (hm : t.mem.wf = true) (htext : t.text = s.text)
    (hdevices : t.devices = s.devices) (ha : ∀ a ∈ t.agents, s.Sound a) : t.Inv := by
  refine (inv_iff_sound t).mpr ⟨hm, fun a h => ⟨(ha a h).cpl, (ha a h).ordered, fun r hr => ?_⟩⟩
  rw [State.inText, State.inDevice, htext, hdevices]
  exact (ha a h).ordinary r hr

/-- The same where nothing but the running agent, memory, `schedule` and `draws` may have changed. -/
theorem State.Inv.of_cpu {s t : State} (hs : s.Inv) (hm : t.mem.wf = true) (htext : t.text = s.text)
    (hdevices : t.devices = s.devices) (hothers : t.others = s.others) (hcpu : s.Sound t.cpu) : t.Inv := by
  refine .of_sound hm htext hdevices fun a ha => ?_
  rcases List.mem_cons.mp ha with rfl | ha
  · exact hcpu
  · exact hs.sound_others (hothers ▸ ha)

/-! ## What keeps an agent sound -/

theorem Agent.cplLegal_congr {a b : Agent} (h : a.cplLegal) (hcpl : b.cpl = a.cpl) (hmode : b.mode = a.mode)
    (hsegs : b.segs = a.segs) : b.cplLegal := by
  rw [Agent.cplLegal, hcpl, hmode, hsegs]
  exact h

/-- A drain takes records out of `pending`; what is left stays in program order. -/
theorem State.Sound.of_sublist {s : State} {a : Agent} {rs : List Record} (h : s.Sound a)
    (hrs : rs.Sublist a.pending) : s.Sound { a with pending := rs } where
  cpl := h.cpl
  ordered := ⟨h.ordered.1.sublist hrs, fun r hr => h.ordered.2 r (hrs.subset hr)⟩
  ordinary r hr := h.ordinary r (hrs.subset hr)

/-- An instruction appends ordinary records of the agent's epoch; they stand after those of older epochs. -/
theorem State.Sound.of_append {s : State} {a b : Agent} {rs : List Record} (h : s.Sound a) (hcpl : b.cplLegal)
    (hpending : b.pending = a.pending ++ rs) (hepoch : a.epoch ≤ b.epoch)
    (hrs : ∀ r ∈ rs, r.epoch = a.epoch ∧ s.inText r.addr = false ∧ s.inDevice r.addr = false) : s.Sound b := by
  obtain ⟨hpairs, hnewest⟩ := h.ordered
  refine ⟨hcpl, ⟨?_, fun r hr => ?_⟩, fun r hr => ?_⟩
  · rw [hpending, List.pairwise_append]
    refine ⟨hpairs, List.pairwise_of_forall_mem_list fun r hr q hq => ?_, fun r hr q hq => ?_⟩
    · rw [(hrs r hr).1, (hrs q hq).1]
    · rw [(hrs q hq).1]
      exact hnewest r hr
  · rcases List.mem_append.mp (hpending ▸ hr) with hr | hr
    · exact (hnewest r hr).trans hepoch
    · exact (hrs r hr).1.le.trans hepoch
  · rcases List.mem_append.mp (hpending ▸ hr) with hr | hr
    · exact h.ordinary r hr
    · exact (hrs r hr).2

/-! ## The kinds of step -/

theorem exec_keeps_inv {i : Instr} {s t : State} (hs : s.Inv) (h : exec i s = .next t) : t.Inv := by
  obtain ⟨_, hcpl, hmode, _, _, hsegs, _, _, _, _, hothers, htext, hdevices, _⟩ := frameOfControlState i s t h
  obtain ⟨hmem, _⟩ := frameOfMemory i s t h
  obtain ⟨rs, hpending, hepoch, hrs⟩ := exec_appends h
  have hlegal : t.cpu.cplLegal := Agent.cplLegal_congr hs.sound_cpu.cpl hcpl hmode hsegs
  exact hs.of_cpu (hmem ▸ hs.memory) htext hdevices hothers (hs.sound_cpu.of_append hlegal hpending hepoch hrs)

theorem endRun_keeps_inv {s : State} (hs : s.Inv) (e : Ending) : (s.endRun e).Inv :=
  hs.of_cpu hs.memory rfl rfl rfl ⟨hs.sound_cpu.cpl, hs.sound_cpu.ordered, hs.sound_cpu.ordinary⟩

theorem drain_keeps_inv {s : State} (hs : s.Inv) (who i : Nat) : (s.drain who i).Inv := by
  rcases drain_cases s who i with h | ⟨a, start, n, ha, _, _, h⟩
  · rwa [h]
  · rw [h]
    refine .of_sound (drainInto_wf _ _ hs.memory) (drained_text ..) (drained_devices ..) fun b hb => ?_
    obtain ⟨v, hv⟩ := (mem_agents_iff _ _).mp hb
    rw [drained_agent s who a start n ha] at hv
    split at hv
    · have hsub : (a.pending.take start ++ a.pending.drop (start + n)).Sublist a.pending := by
        conv_rhs => rw [← List.take_append_drop start a.pending]
        exact (List.Sublist.refl _).append (List.drop_sublist_drop_left _ (Nat.le_add_right _ _))
      exact Option.some.inj hv ▸ (hs.sound ((mem_agents_iff _ _).mpr ⟨who, ha⟩)).of_sublist hsub
    · exact hs.sound ((mem_agents_iff _ _).mpr ⟨v, hv⟩)

theorem resume_keeps_inv {s : State} (hs : s.Inv) (k : Nat) : (s.resume k).Inv := by
  rcases resume_cases s k with h | ⟨a, ha, h⟩
  · rwa [h]
  · rw [h]
    refine .of_sound (s := s) hs.memory rfl rfl fun b hb => ?_
    rcases List.mem_cons.mp hb with rfl | hb
    · exact hs.sound_others (List.mem_of_getElem? ha)
    · rcases List.mem_or_eq_of_mem_set hb with hb | rfl
      · exact hs.sound_others hb
      · exact hs.sound_cpu

theorem writeExternal_keeps_inv {s : State} (hs : s.Inv) (p : Nat) (b : Byte) : (s.writeExternal p b).Inv := by
  rcases writeExternal_cases s p b with ⟨_, h⟩ | ⟨_, h⟩
  · rwa [h]
  · rw [h]
    exact hs.of_cpu (Memory.write_wf _ _ _ hs.memory) rfl rfl rfl hs.sound_cpu

theorem readEarly_keeps_inv {s : State} (hs : s.Inv) (k p : Nat) : (s.readEarly k p).Inv :=
  hs.of_cpu hs.memory rfl rfl rfl ⟨hs.sound_cpu.cpl, hs.sound_cpu.ordered, hs.sound_cpu.ordinary⟩

/-- Every action of the memory system and of other agents keeps the invariant. -/
theorem happen_keeps_inv {s : State} (hs : s.Inv) : ∀ e : Event, (s.happen e).Inv
  | .run => hs
  | .resume k => resume_keeps_inv hs k
  | .drain who i => drain_keeps_inv hs who i
  | .early k p => readEarly_keeps_inv hs k p
  | .external p b => writeExternal_keeps_inv hs p b

/-! ## Every step -/

/-- Settles O57: a step is an instruction, the end of a run, or an event, and each keeps the invariant. -/
theorem stepKeepsInvariant : Obligations.StepKeepsInvariant := by
  intro s t hs h
  have hu : State.Inv { s with schedule := s.schedule.tail } := hs.of_cpu hs.memory rfl rfl rfl hs.sound_cpu
  rcases step_eq_next s t h with ⟨_, _, hrun | ⟨e, _, rfl⟩⟩ | rfl
  · obtain ⟨i, _, _, _, hexec⟩ := (runInstruction_eq_next _ _).mp hrun
    exact exec_keeps_inv hu hexec
  · exact endRun_keeps_inv hu e
  · exact happen_keeps_inv hu s.turnEvent

/-! ## Reset (10_state.md R30, 70_reset_and_hazards.md R148, R149) -/

/-- Settles O56: after reset there is one agent, at CPL 0 in real-address mode, with nothing pending. -/
theorem invariantHoldsAtReset : Obligations.InvariantHoldsAtReset := by
  refine (inv_iff_sound _).mpr ⟨reset_mem_wf, fun a ha => ?_⟩
  obtain rfl : a = resetAgent := List.mem_singleton.mp ha
  exact ⟨⟨fun _ => rfl, nofun, nofun⟩, ⟨.nil, nofun⟩, nofun⟩

/-- Settles O60: each field of `State.reset` read off; for the registers and segments, register by register. -/
theorem resetHasTheFamilysValues : Obligations.ResetHasTheFamilysValues := by
  have hmm : ∀ r, State.reset.mm r = 0 := by intro r; cases r <;> rfl
  have hx : ∀ r, r ≠ .edx → State.reset.x r = 0 := by intro r hr; cases r <;> trivial
  have hhigh : ∀ r, State.reset.cpu.x87.high.get r = 0 := by intro r; cases r <;> rfl
  have hplace : ∀ g, (State.reset.cpu.segs.get g).limit = 0xFFFF ∧
      (g ≠ .cs → (State.reset.cpu.segs.get g).base = 0 ∧ (State.reset.cpu.segs.get g).selector = 0) := by
    intro g; cases g <;> decide
  have hrights : ∀ g, (State.reset.cpu.segs.get g).readable = true ∧
      (State.reset.cpu.segs.get g).writable = true ∧ (State.reset.cpu.segs.get g).big = false := by
    intro g; cases g <;> decide
  exact ⟨hmm, hx, rfl, rfl, rfl, rfl, rfl, rfl, rfl, rfl, rfl, rfl, rfl, rfl, hplace, hrights, rfl, rfl, rfl, hhigh,
    rfl, rfl, rfl, rfl, rfl, rfl, fun _ => rfl, rfl, rfl, rfl, rfl⟩

end Sys2Proof.Machine
end

section
/-! SUPPORT. Where the fetch reads each instruction byte, and why it ends (10_state.md R17, R18; 20_memory.md R32, R34,
R42, R50). -/

namespace Sys2Proof.Machine

open Sys2Proof

/-! ## The place of a linear address -/

theorem PageEntry.permits_iff_grants (e : PageEntry) (kind : Access) (cpl : BitVec 2) :
    e.permits kind cpl = true ↔ e.Grants kind cpl := by
  cases kind <;> simp [PageEntry.permits, PageEntry.Grants]

theorem PageEntry.page_beq_iff (e : PageEntry) (lin : Dword) :
    (e.page == lin.extractLsb' 12 20) = true ↔ e.page.toNat = lin.toNat / 4096 := by
  rw [beq_iff_eq, ← BitVec.toNat_inj, BitVec.extractLsb'_toNat, Nat.shiftRight_eq_div_pow]
  have := lin.isLt
  omega

/-- A linear address goes through the first listed entry for its page, where that admits the access. -/
theorem physical_eq_some_of_paging {a : Agent} {entries : List PageEntry} (hm : a.mode ≠ .realAddress)
    (hp : a.paging = some entries) (kind : Access) (lin : Dword) (p : Nat) :
    a.physical kind lin = some p ↔
      ∃ e, entries.find? (fun e => e.page == lin.extractLsb' 12 20) = some e ∧ e.permits kind a.cpl = true ∧
        e.frame * 4096 + lin.toNat % 4096 = p := by
  unfold Agent.physical
  cases hmode : a.mode with
  | realAddress => exact absurd hmode hm
  | protectedMode | virtual8086 =>
    all_goals cases hfind : entries.find? fun e => e.page == lin.extractLsb' 12 20 <;> simp [hp, hfind]

/-- The entry that the page search answers is a listed one, for the page of the linear address. -/
theorem page_of_find? {entries : List PageEntry} {lin : Dword} {e : PageEntry}
    (h : entries.find? (fun e => e.page == lin.extractLsb' 12 20) = some e) :
    e ∈ entries ∧ e.page.toNat = lin.toNat / 4096 :=
  ⟨List.mem_of_find?_eq_some h,
    (e.page_beq_iff lin).mp (List.find?_some (p := fun e : PageEntry => e.page == lin.extractLsb' 12 20) h)⟩

theorem physical_of_flat {a : Agent} (h : a.mode = .realAddress ∨ a.paging = none) (kind : Access) (lin : Dword) :
    a.physical kind lin = some lin.toNat := by
  unfold Agent.physical
  rcases h with h | h
  · rw [h]
  · rw [h]
    cases a.mode <;> rfl

/-- What `physical` answers is the place of the linear address. -/
theorem mapsTo_of_physical {a : Agent} {kind : Access} {lin : Dword} {p : Nat} (h : a.physical kind lin = some p) :
    a.MapsTo kind lin.toNat p := by
  refine ⟨fun hflat => ?_, fun entries hm hp => ?_⟩
  · rw [physical_of_flat hflat] at h
    exact (Option.some.inj h).symm
  · obtain ⟨e, hfind, hpermits, hplace⟩ := (physical_eq_some_of_paging hm hp ..).mp h
    obtain ⟨he, hpage⟩ := page_of_find? hfind
    exact ⟨e, he, hpage, (e.permits_iff_grants ..).mp hpermits, hplace.symm⟩

/-- Where a linear address has a place, `physical` answers one. -/
theorem physical_ne_none_of_admits {a : Agent} {kind : Access} {lin : Dword} (h : a.Admits kind lin.toNat) :
    a.physical kind lin ≠ none := by
  by_cases hflat : a.mode = .realAddress ∨ a.paging = none
  · simp [physical_of_flat hflat]
  · obtain ⟨hm, hpaging⟩ := not_or.mp hflat
    obtain ⟨entries, hp, e, he, hpage, hgrants, honly⟩ := (h.resolve_left hm).resolve_left hpaging
    obtain ⟨e', hfind⟩ : ∃ e', entries.find? (fun e => e.page == lin.extractLsb' 12 20) = some e' :=
      Option.isSome_iff_exists.mp (List.find?_isSome.mpr ⟨e, he, (e.page_beq_iff lin).mpr hpage⟩)
    obtain ⟨he', hpage'⟩ := page_of_find? hfind
    obtain rfl : e' = e := honly e' he' (BitVec.eq_of_toNat_eq (hpage'.trans hpage.symm))
    exact Option.ne_none_iff_exists'.mpr
      ⟨_, (physical_eq_some_of_paging hm hp ..).mpr ⟨e', hfind, (e'.permits_iff_grants ..).mpr hgrants, rfl⟩⟩

/-! ## One instruction byte -/

theorem lastCodeOffset_eq (a : Agent) :
    lastCodeOffset a = if a.mode = .protectedMode ∧ a.segs.cs.big = true then 0xFFFFFFFF else 0xFFFF := by
  unfold lastCodeOffset defaultAddrSize
  cases a.mode <;> cases a.segs.cs.big <;> rfl

/-- The byte `k` places after `pc` lies within the offset range and the CS limit (10_state.md R18). -/
def State.InCodeSegment (s : State) (k : Nat) : Prop :=
  s.cpu.pc.toNat + k ≤ lastCodeOffset s.cpu ∧ s.cpu.pc.toNat + k ≤ s.cpu.segs.cs.limit.toNat

/-- The linear address of the byte `k` places after `pc` (20_memory.md R32; log 12). -/
def State.codeLinear (s : State) (k : Nat) : Dword := s.cpu.codeBase + BitVec.ofNat 32 (s.cpu.pc.toNat + k)

theorem codeLinear_toNat (s : State) (k : Nat) :
    (s.codeLinear k).toNat = (s.cpu.segs.cs.base.toNat + (s.cpu.pc.toNat + k)) % 2 ^ 32 := by
  simp [State.codeLinear, Agent.codeBase]

theorem codeAddress_of_not_inCodeSegment {s : State} {k : Nat} (h : ¬ s.InCodeSegment k) :
    s.codeAddress k = .error .codeLimit := by
  rw [State.InCodeSegment, not_and_or, not_le, not_le] at h
  simp [State.codeAddress, h]

theorem codeAddress_of_inCodeSegment {s : State} {k : Nat} (h : s.InCodeSegment k) :
    s.codeAddress k = (s.cpu.physical .read (s.codeLinear k)).elim (.error .codeNotMapped) .ok := by
  obtain ⟨hlast, hlimit⟩ := h
  simp only [State.codeAddress, gt_iff_lt, Nat.not_lt.mpr hlast, Nat.not_lt.mpr hlimit, or_self, if_false]
  cases hp : s.cpu.physical .read (s.codeLinear k) <;> rw [State.codeLinear] at hp <;> simp [hp]

/-- What the fetch of one instruction byte can answer: the text's byte at its place, or one of three reasons. -/
inductive FetchByteCases (s : State) (k : Nat) : Except Refusal Byte → Prop where
  | beyond (h : ¬ s.InCodeSegment k) : FetchByteCases s k (.error .codeLimit)
  | unmapped (h : s.InCodeSegment k) (hp : s.cpu.physical .read (s.codeLinear k) = none) :
      FetchByteCases s k (.error .codeNotMapped)
  | outside (p : Nat) (h : s.InCodeSegment k) (hp : s.cpu.physical .read (s.codeLinear k) = some p)
      (ht : s.inText p = false) : FetchByteCases s k (.error .outsideProgram)
  | text (p : Nat) (h : s.InCodeSegment k) (hp : s.cpu.physical .read (s.codeLinear k) = some p)
      (ht : s.inText p = true) : FetchByteCases s k (.ok (s.mem.read p))

theorem fetchByte_cases (s : State) (k : Nat) : FetchByteCases s k (s.fetchByte k) := by
  unfold State.fetchByte
  by_cases h : s.InCodeSegment k
  · rw [codeAddress_of_inCodeSegment h]
    cases hp : s.cpu.physical .read (s.codeLinear k) with
    | none => exact .unmapped h hp
    | some p =>
      cases ht : s.inText p with
      | false => simpa [ht] using FetchByteCases.outside p h hp ht
      | true => simpa [ht] using FetchByteCases.text p h hp ht
  · rw [codeAddress_of_not_inCodeSegment h]
    exact .beyond h

/-! ## The bytes fetched, and where they end -/

theorem fetchFrom_getElem? (s : State) (n k j : Nat) (b : Byte) (h : (s.fetchFrom n k).1[j]? = some b) :
    s.fetchByte (k + j) = .ok b := by
  induction n generalizing k j with
  | zero => cases h
  | succ n ih =>
    unfold State.fetchFrom at h
    split at h
    · cases h
    · rename_i b' hb
      cases j with
      | zero => exact hb.trans (congrArg _ (Option.some.inj h))
      | succ j =>
        rw [Nat.add_comm j 1, ← Nat.add_assoc]
        exact ih (k + 1) j h

/-- The fetch reads all the bytes asked for, or ends at the first byte that it cannot read, with that byte's reason. -/
theorem fetchFrom_end (s : State) (n k : Nat) :
    ((s.fetchFrom n k).1.length = n ∧ (s.fetchFrom n k).2 = none) ∨
      (s.fetchFrom n k).1.length < n ∧
        ∃ r, (s.fetchFrom n k).2 = some r ∧ s.fetchByte (k + (s.fetchFrom n k).1.length) = .error r := by
  induction n generalizing k with
  | zero => exact .inl ⟨rfl, rfl⟩
  | succ n ih =>
    unfold State.fetchFrom
    split
    · rename_i r hr
      exact .inr ⟨Nat.succ_pos n, r, rfl, hr⟩
    · rcases ih (k + 1) with ⟨hlen, hnone⟩ | ⟨hlen, r, hr, hend⟩
      · exact .inl ⟨congrArg Nat.succ hlen, hnone⟩
      · rw [Nat.add_right_comm] at hend
        exact .inr ⟨Nat.succ_lt_succ hlen, r, hr, hend⟩

/-- Settles O9: each byte that the fetch answers, and its end, is one case of `fetchByte_cases`. -/
theorem fetchReadsTheCodeSegment : Obligations.FetchReadsTheCodeSegment := by
  intro s off lin inSegment len
  have hlin : ∀ k, lin k = (s.codeLinear k).toNat := fun k => (codeLinear_toNat s k).symm
  have hbyte : ∀ k b, s.fetch.1[k]? = some b → inSegment k ∧
      ∃ p, s.cpu.MapsTo .read (lin k) p ∧ s.inText p = true ∧ b = s.mem.read p := by
    intro k b hb
    have hfetch : s.fetchByte k = .ok b := Nat.zero_add k ▸ fetchFrom_getElem? s maxLength 0 k b hb
    have hcases := fetchByte_cases s k
    rw [hfetch] at hcases
    cases hcases with
    | text p h hp ht => exact ⟨h, p, hlin k ▸ mapsTo_of_physical hp, ht, rfl⟩
  refine ⟨lastCodeOffset_eq _, ?_⟩
  rcases fetchFrom_end s maxLength 0 with ⟨hlen, hnone⟩ | ⟨hlen, r, hr, hend⟩
  · replace hlen : len = 11 := hlen
    replace hnone : s.fetch.2 = none := hnone
    exact ⟨hlen.le, by simp [hlen, hnone], hbyte, fun hlt => absurd hlen hlt.ne⟩
  · replace hlen : len < 11 := hlen
    replace hr : s.fetch.2 = some r := hr
    refine ⟨hlen.le, by simp [hlen.ne, hr], hbyte, fun _ => ?_⟩
    have hcases : FetchByteCases s len (.error r) := hend ▸ Nat.zero_add len ▸ fetchByte_cases s (0 + len)
    rw [hr, hlin]
    cases hcases with
    | beyond h => exact ⟨⟨fun _ => h, fun _ => rfl⟩, nofun, nofun, by simp⟩
    | unmapped h hp =>
      exact ⟨⟨nofun, fun hout => absurd h hout⟩, fun _ ha => physical_ne_none_of_admits ha hp, nofun, by simp⟩
    | outside p h hp ht =>
      exact ⟨⟨nofun, fun hout => absurd h hout⟩, nofun, fun _ => ⟨p, mapsTo_of_physical hp, ht⟩, by simp⟩

end Sys2Proof.Machine
end

section
/-! SUPPORT. No step touches the program text (20_memory.md R50, 70_reset_and_hazards.md R156). -/

namespace Sys2Proof.Machine

open Sys2Proof

/-- `t` has the program text of `s`: the same addresses, and the same byte at each. -/
def State.SameText (s t : State) : Prop :=
  t.text = s.text ∧ ∀ q, s.inText q = true → t.mem.read q = s.mem.read q

theorem State.SameText.of_eq {s t : State} (htext : t.text = s.text) (hmem : t.mem = s.mem) : s.SameText t :=
  ⟨htext, fun _ _ => by rw [hmem]⟩

theorem exec_sameText {i : Instr} {s t : State} (h : exec i s = .next t) : s.SameText t := by
  obtain ⟨_, _, _, _, _, _, _, _, _, _, _, htext, _⟩ := frameOfControlState i s t h
  obtain ⟨hmem, _⟩ := frameOfMemory i s t h
  exact .of_eq htext hmem

/-- A drain writes pending bytes, and none of them is a byte of the program text (20_memory.md R50). -/
theorem drain_sameText {s : State} (hs : s.Inv) (who i : Nat) : s.SameText (s.drain who i) := by
  rcases drain_cases s who i with h | ⟨a, start, n, ha, _, _, h⟩
  · exact .of_eq (by rw [h]) (by rw [h])
  · rw [h]
    refine ⟨drained_text .., fun q hq => drainInto_read_other _ _ _ fun r hr hrq => ?_⟩
    have hmem : r ∈ a.pending := List.mem_of_mem_drop (List.mem_of_mem_take hr)
    have hr' := (hs.ordinary a ((mem_agents_iff s a).mpr ⟨who, ha⟩) r hmem).1
    rw [hrq, hq] at hr'
    cases hr'

theorem resume_sameText (s : State) (k : Nat) : s.SameText (s.resume k) := by
  rcases resume_cases s k with h | ⟨a, _, h⟩
  · exact .of_eq (by rw [h]) (by rw [h])
  · exact .of_eq (by rw [h]) (by rw [h])

theorem writeExternal_sameText (s : State) (p : Nat) (b : Byte) : s.SameText (s.writeExternal p b) := by
  rcases writeExternal_cases s p b with ⟨_, h⟩ | ⟨hp, h⟩
  · exact .of_eq (by rw [h]) (by rw [h])
  · rw [h]
    refine ⟨rfl, fun q hq => Memory.read_write_other _ _ fun hqp => ?_⟩
    rw [hqp, hp] at hq
    cases hq

/-- No action of the memory system or of another agent touches the program text. -/
theorem happen_sameText {s : State} (hs : s.Inv) : ∀ e : Event, s.SameText (s.happen e)
  | .run => .of_eq rfl rfl
  | .resume k => resume_sameText s k
  | .drain who i => drain_sameText hs who i
  | .early _ _ => .of_eq rfl rfl
  | .external p b => writeExternal_sameText s p b

/-- Settles O58: an instruction leaves memory as it is, and of the events only a drain and an outside write change it,
neither at an address of the program text. -/
theorem programTextNeverChanges : Obligations.ProgramTextNeverChanges := by
  intro s t hs h
  have hu : State.Inv { s with schedule := s.schedule.tail } := hs.of_cpu hs.memory rfl rfl rfl hs.sound_cpu
  change State.SameText { s with schedule := s.schedule.tail } t
  rcases step_eq_next s t h with ⟨_, _, hrun | ⟨e, _, rfl⟩⟩ | rfl
  · obtain ⟨i, _, _, _, hexec⟩ := (runInstruction_eq_next _ _).mp hrun
    exact exec_sameText hexec
  · exact .of_eq rfl rfl
  · exact happen_sameText hu s.turnEvent

end Sys2Proof.Machine
end

section
/-! SUPPORT. What a drain step leaves pending, and what it shows (20_memory.md R40, R46, R47). -/

namespace Sys2Proof.Machine

open Sys2Proof

/-! ## One drain step -/

theorem drain_of_enabled {s : State} {who i start n : Nat} {a : Agent} (ha : s.agent who = some a)
    (hspan : drainSpan a.pending i = some (start, n)) (hen : drainEnabled a.pending start n = true) :
    s.drain who i = drained s who a start n := by
  simp [State.drain, ha, hspan, hen, drained]

theorem drain_of_not_enabled {s : State} {who i start n : Nat} {a : Agent} (ha : s.agent who = some a)
    (hspan : drainSpan a.pending i = some (start, n)) (hen : ¬ drainEnabled a.pending start n = true) :
    s.drain who i = s := by
  simp [State.drain, ha, hspan, hen]

theorem drained_agent_same {s : State} {who : Nat} {a : Agent} (start n : Nat) (ha : s.agent who = some a) :
    (drained s who a start n).agent who =
      some { a with pending := a.pending.take start ++ a.pending.drop (start + n) } := by
  rw [drained_agent s who a start n ha, if_pos rfl]

theorem drained_agent_other {s : State} {who v : Nat} {a : Agent} (start n : Nat) (ha : s.agent who = some a)
    (hv : v ≠ who) : (drained s who a start n).agent v = s.agent v := by
  rw [drained_agent s who a start n ha, if_neg hv]

/-- Records before a span, the span, and the records after it. -/
theorem take_append_span_append_drop {α : Type} (l : List α) (start n : Nat) :
    l.take start ++ ((l.drop start).take n ++ l.drop (start + n)) = l := by
  rw [← List.drop_drop, List.take_append_drop, List.take_append_drop]

theorem drain_keeps_agents {s : State} {v : Nat} {a : Agent} (h : s.agent v = some a) (who i : Nat) :
    ∃ b, (s.drain who i).agent v = some b := by
  rcases drain_cases s who i with hd | ⟨c, start, n, hc, _, _, hd⟩
  · exact ⟨a, by rw [hd, h]⟩
  · by_cases hv : v = who
    · subst hv
      exact ⟨_, hd ▸ drained_agent_same start n hc⟩
    · exact ⟨a, hd ▸ (drained_agent_other start n hc hv).trans h⟩

/-! ## What a list of records shows -/

theorem exists_of_newestPending {rs : List Record} {p : Nat} {b : Byte} (h : newestPending rs p = some b) :
    ∃ r ∈ rs, r.addr = p := by
  by_contra hno
  rw [newestPending_none rs p fun r hr he => hno ⟨r, hr, he⟩] at h
  cases h

/-- Of records at different addresses each is the newest for its own. -/
theorem newestPending_of_nodup {rs : List Record} (hrs : (rs.map (·.addr)).Nodup) {q : Record} (hq : q ∈ rs) :
    newestPending rs q.addr = some q.byte := by
  induction rs with
  | nil => cases hq
  | cons r rs ih =>
    obtain ⟨hr, hrs⟩ := List.nodup_cons.mp hrs
    rw [newestPending_cons]
    rcases List.mem_cons.mp hq with rfl | hq
    · rw [newestPending_none rs q.addr fun x hx he => hr (List.mem_map.mpr ⟨x, hx, he⟩)]
      simp
    · simp [ih hrs hq]

/-- A span that no earlier record shares an address with may be shown from memory instead (20_memory.md R46 (ii)). -/
theorem newestPending_without_span {rs : List Record} {start n : Nat} (h : drainEnabled rs start n = true) (p : Nat) :
    newestPending rs p =
      (newestPending (rs.take start ++ rs.drop (start + n)) p).or (newestPending ((rs.drop start).take n) p) := by
  conv_lhs => rw [← take_append_span_append_drop rs start n]
  simp only [newestPending_append]
  cases hspan : newestPending ((rs.drop start).take n) p with
  | none => simp
  | some b =>
    obtain ⟨r, hr, rfl⟩ := exists_of_newestPending hspan
    rw [newestPending_none _ _ ((drainEnabled_iff ..).mp h r hr).2]
    simp

/-- Settles O38: what the drained records showed memory shows now, and no record that is left hides it. -/
theorem drainsAreInvisibleToTheirAgent : Obligations.DrainsAreInvisibleToTheirAgent := by
  intro s who i a a' hwf ha ha' p
  rcases drain_cases s who i with h | ⟨b, start, n, hb, _, hen, h⟩
  · rw [h, ha] at ha'
    rw [h, Option.some.inj ha']
  · obtain rfl : a = b := Option.some.inj (ha.symm.trans hb)
    rw [h, drained_agent_same start n ha] at ha'
    rw [h, ← Option.some.inj ha', drained_mem]
    simp only [Agent.sees, drainInto_read _ _ hwf, newestPending_without_span hen p]
    cases newestPending (a.pending.take start ++ a.pending.drop (start + n)) p <;> simp

/-! ## Epochs -/

theorem pendingOfEpoch_append (a : Agent) (rs qs : List Record) (e : Nat) :
    pendingOfEpoch { a with pending := rs ++ qs } e =
      pendingOfEpoch { a with pending := rs } e + pendingOfEpoch { a with pending := qs } e := by
  simp [pendingOfEpoch]

theorem exists_of_pendingOfEpoch_pos {a : Agent} {e : Nat} (h : 0 < pendingOfEpoch a e) :
    ∃ r ∈ a.pending, r.epoch = e := by
  obtain ⟨r, hr⟩ := List.exists_mem_of_length_pos h
  obtain ⟨hmem, he⟩ := List.mem_filter.mp hr
  exact ⟨r, hmem, beq_iff_eq.mp he⟩

/-- What drain steps make of an agent: records leave its pending bytes, and where one of epoch `e` has left none of an
older epoch is there (20_memory.md R46 (i)). -/
structure Agent.DrainsTo (a b : Agent) : Prop where
  epoch : b.epoch = a.epoch
  sublist : b.pending.Sublist a.pending
  oldest : ∀ e, pendingOfEpoch b e < pendingOfEpoch a e → ∀ r ∈ b.pending, e ≤ r.epoch

theorem Agent.DrainsTo.refl (a : Agent) : a.DrainsTo a := ⟨rfl, .refl _, fun _ h => absurd h (lt_irrefl _)⟩

theorem Agent.DrainsTo.trans {a b c : Agent} (hab : a.DrainsTo b) (hbc : b.DrainsTo c) : a.DrainsTo c where
  epoch := hbc.epoch.trans hab.epoch
  sublist := hbc.sublist.trans hab.sublist
  oldest e h r hr := by
    by_cases hb : pendingOfEpoch b e < pendingOfEpoch a e
    · exact hab.oldest e hb r (hbc.sublist.subset hr)
    · exact hbc.oldest e (h.trans_le (not_lt.mp hb)) r hr

/-- An enabled span holds records of the oldest epoch alone. -/
theorem Agent.DrainsTo.of_enabled {a : Agent} {start n : Nat} (h : drainEnabled a.pending start n = true) :
    a.DrainsTo { a with pending := a.pending.take start ++ a.pending.drop (start + n) } := by
  have hsplit := take_append_span_append_drop a.pending start n
  have hsub : (a.pending.take start ++ a.pending.drop (start + n)).Sublist a.pending := by
    conv_rhs => rw [← hsplit]
    exact (List.Sublist.refl _).append (List.sublist_append_right _ _)
  refine ⟨rfl, hsub, fun e hlt r hr => ?_⟩
  have hcount : pendingOfEpoch a e = pendingOfEpoch { a with pending := a.pending.take start ++
      ((a.pending.drop start).take n ++ a.pending.drop (start + n)) } e := by rw [hsplit]
  rw [hcount] at hlt
  simp only [pendingOfEpoch_append] at hlt
  obtain ⟨q, hq, rfl⟩ := exists_of_pendingOfEpoch_pos
    (a := { a with pending := (a.pending.drop start).take n }) (e := e) (by omega)
  exact ((drainEnabled_iff ..).mp h q hq).1 r (hsub.subset hr)

theorem drain_drainsTo {s : State} {v : Nat} {a : Agent} (h : s.agent v = some a) (who i : Nat) :
    ∃ b, (s.drain who i).agent v = some b ∧ a.DrainsTo b := by
  obtain ⟨b, hb⟩ := drain_keeps_agents h who i
  refine ⟨b, hb, ?_⟩
  rcases drain_agent s who i v a b h hb with rfl | ⟨start, n, _, hen, rfl⟩
  · exact .refl b
  · exact .of_enabled hen

theorem drainAll_drainsTo {s : State} {v : Nat} {a : Agent} (h : s.agent v = some a) (ds : List (Nat × Nat)) :
    ∃ b, (drainAll s ds).agent v = some b ∧ a.DrainsTo b := by
  induction ds generalizing s a with
  | nil => exact ⟨a, h, .refl a⟩
  | cons d ds ih =>
    obtain ⟨b, hb, hab⟩ := drain_drainsTo h d.1 d.2
    obtain ⟨c, hc, hbc⟩ := ih hb
    exact ⟨c, hc, hab.trans hbc⟩

/-- Settles O36: `Agent.DrainsTo` holds of one drain step and goes on over a list of them. -/
theorem drainListsRespectEpochs : Obligations.DrainListsRespectEpochs := by
  intro s ds who a a' e ha ha' hlt
  obtain ⟨b, hb, hdrains⟩ := drainAll_drainsTo ha ds
  obtain rfl : a' = b := Option.some.inj (ha'.symm.trans hb)
  exact hdrains.oldest e hlt

/-! ## One step -/

/-- What a step makes of an agent: it keeps some of the pending bytes, older epochs first to leave, and appends bytes
of the agent's epoch, which never falls (20_memory.md R46, 45_sfence.md R121). -/
structure Agent.StepsTo (a b : Agent) : Prop where
  epoch : a.epoch ≤ b.epoch
  oldest : ∀ e, pendingOfEpoch b e < pendingOfEpoch a e → ∀ r ∈ b.pending, e ≤ r.epoch
  appends : ∃ kept added, b.pending = kept ++ added ∧ kept.Sublist a.pending ∧ ∀ r ∈ added, r.epoch = a.epoch

theorem Agent.DrainsTo.stepsTo {a b : Agent} (h : a.DrainsTo b) : a.StepsTo b :=
  ⟨h.epoch.ge, h.oldest, b.pending, [], by simp, h.sublist, nofun⟩

theorem Agent.StepsTo.refl (a : Agent) : a.StepsTo a := (Agent.DrainsTo.refl a).stepsTo

/-- Where nothing leaves, no count falls. -/
theorem Agent.StepsTo.of_append {a b : Agent} {rs : List Record} (hpending : b.pending = a.pending ++ rs)
    (hepoch : a.epoch ≤ b.epoch) (hrs : ∀ r ∈ rs, r.epoch = a.epoch) : a.StepsTo b := by
  refine ⟨hepoch, fun e hlt => absurd hlt ?_, a.pending, rs, hpending, .refl _, hrs⟩
  simp [pendingOfEpoch, hpending]

/-- An instruction appends to the running agent's pending bytes and leaves the other agents as they are. -/
theorem exec_stepsTo {i : Instr} {s t : State} (h : exec i s = .next t) {v : Nat} {a : Agent}
    (ha : s.agent v = some a) : ∃ b, t.agent v = some b ∧ a.StepsTo b := by
  cases v with
  | zero =>
    obtain rfl : s.cpu = a := Option.some.inj ha
    obtain ⟨rs, hpending, hepoch, hrs⟩ := exec_appends h
    exact ⟨t.cpu, rfl, .of_append hpending hepoch fun r hr => (hrs r hr).1⟩
  | succ k =>
    obtain ⟨_, _, _, _, _, _, _, _, _, _, hothers, _⟩ := frameOfControlState i s t h
    exact ⟨a, by rwa [State.agent, hothers], .refl a⟩

theorem endRun_stepsTo {s : State} (e : Ending) {v : Nat} {a : Agent} (ha : s.agent v = some a) :
    ∃ b, (s.endRun e).agent v = some b ∧ a.StepsTo b := by
  cases v with
  | zero =>
    obtain rfl : s.cpu = a := Option.some.inj ha
    exact ⟨_, rfl, .of_append (List.append_nil _).symm le_rfl nofun⟩
  | succ k => exact ⟨a, ha, .refl a⟩

theorem readEarly_stepsTo {s : State} (k p : Nat) {v : Nat} {a : Agent} (ha : s.agent v = some a) :
    ∃ b, (s.readEarly k p).agent v = some b ∧ a.StepsTo b := by
  cases v with
  | zero =>
    obtain rfl : s.cpu = a := Option.some.inj ha
    exact ⟨_, rfl, .of_append (List.append_nil _).symm le_rfl nofun⟩
  | succ k => exact ⟨a, ha, .refl a⟩

theorem writeExternal_agent (s : State) (p : Nat) (b : Byte) (v : Nat) :
    (s.writeExternal p b).agent v = s.agent v := by
  rcases writeExternal_cases s p b with ⟨_, h⟩ | ⟨_, h⟩
  · rw [h]
  · rw [h]
    cases v <;> rfl

/-- Where the agents stand after agent `k` of the others, if there is one, has become the running one. -/
theorem resume_agent (s : State) (k v : Nat) :
    (s.resume k).agent (if k < s.others.length then (if v = 0 then k + 1 else if v = k + 1 then 0 else v) else v) =
      s.agent v := by
  by_cases hk : k < s.others.length
  · have hresume : s.resume k = { s with cpu := s.others[k], others := s.others.set k s.cpu } := by
      simp [State.resume, hk]
    rw [if_pos hk, hresume]
    cases v with
    | zero => simp [State.agent, hk]
    | succ j =>
      by_cases hj : j = k
      · simp [State.agent, hj, hk]
      · simp [State.agent, hj, Ne.symm hj]
  · rw [if_neg hk, State.resume, List.getElem?_eq_none (not_lt.mp hk)]

/-- Settles O35: an instruction appends, a drain step takes the oldest, and no other step touches pending bytes. -/
theorem fenceOrdersDrains : Obligations.FenceOrdersDrains := by
  intro s t who a _ h ha
  suffices hsteps : ∃ b, t.agent (s.placeAfter who) = some b ∧ a.StepsTo b by
    obtain ⟨b, hb, hab⟩ := hsteps
    exact ⟨b, hb, hab.epoch, hab.oldest, hab.appends⟩
  have hu : State.agent { s with schedule := s.schedule.tail } who = some a := by
    cases who <;> exact ha
  rcases step_eq_next s t h with ⟨hevent, _, hrun | ⟨e, _, rfl⟩⟩ | rfl
  · obtain ⟨i, _, _, _, hexec⟩ := (runInstruction_eq_next _ _).mp hrun
    simpa only [State.placeAfter, hevent] using exec_stepsTo hexec hu
  · simpa only [State.placeAfter, hevent] using endRun_stepsTo e hu
  · cases hevent : s.turnEvent with
    | run => simpa only [State.placeAfter, hevent] using ⟨a, hu, .refl a⟩
    | resume k =>
      simp only [State.placeAfter, hevent]
      exact ⟨a, (resume_agent { s with schedule := s.schedule.tail } k who).trans hu, .refl a⟩
    | drain w i =>
      obtain ⟨b, hb, hab⟩ := drain_drainsTo hu w i
      simpa only [State.placeAfter, hevent] using ⟨b, hb, hab.stepsTo⟩
    | early k p =>
      simp only [State.placeAfter, hevent]
      exact readEarly_stepsTo k p hu
    | external p b =>
      simp only [State.placeAfter, hevent]
      exact ⟨a, (writeExternal_agent _ p b who).trans hu, .refl a⟩

/-! ## The records that a drain step takes -/

theorem drain_of_single {s : State} {who i : Nat} {a : Agent} {r : Record} (ha : s.agent who = some a)
    (hr : a.pending[i]? = some r) (hen : drainEnabled a.pending i 1 = true)
    (hq : r.quad = none ∨ Config.atomic64 = false) :
    (s.drain who i).mem = s.mem.write r.addr r.byte ∧
      (s.drain who i).agent who = some { a with pending := a.pending.eraseIdx i } ∧
      ∀ v, v ≠ who → (s.drain who i).agent v = s.agent v := by
  obtain ⟨hi, hget⟩ := List.getElem?_eq_some_iff.mp hr
  have hspan : (a.pending.drop i).take 1 = [r] := by rw [List.drop_eq_getElem_cons hi, hget]; rfl
  rw [drain_of_enabled ha (drainSpan_one hr hq) hen, drained_mem, hspan, drained_agent_same i 1 ha,
    List.eraseIdx_eq_take_drop_succ]
  exact ⟨rfl, rfl, fun v hv => drained_agent_other i 1 ha hv⟩

/-- R46's two conditions for a record that drains alone. -/
theorem drainEnabled_single {rs : List Record} {i : Nat} {r : Record} (hr : rs[i]? = some r) :
    drainEnabled rs i 1 = true ↔
      (∀ q ∈ rs, r.epoch ≤ q.epoch) ∧ ∀ j < i, ∀ q, rs[j]? = some q → q.addr ≠ r.addr := by
  obtain ⟨hi, hget⟩ := List.getElem?_eq_some_iff.mp hr
  have hspan : (rs.drop i).take 1 = [r] := by rw [List.drop_eq_getElem_cons hi, hget]; rfl
  have hbefore : (∀ q ∈ rs.take i, q.addr ≠ r.addr) ↔ ∀ j < i, ∀ q, rs[j]? = some q → q.addr ≠ r.addr := by
    simp only [List.mem_iff_getElem?, List.getElem?_take]
    constructor
    · exact fun h j hj q hq => h q ⟨j, by rwa [if_pos hj]⟩
    · rintro h q ⟨j, hj⟩
      split at hj
      · rename_i hlt
        exact h j hlt q hj
      · cases hj
  simp [drainEnabled_iff, hspan, hbefore]

/-- Settles O37: the span of such a record is the record alone, and it is enabled exactly as R46 says. -/
theorem enabledDrainWritesItsByte : Obligations.EnabledDrainWritesItsByte := by
  intro s who i a r hwf ha hr hq
  refine ⟨fun henabled => ?_, fun hnot => ?_⟩
  · obtain ⟨hmem, hself, hothers⟩ := drain_of_single ha hr ((drainEnabled_single hr).mpr henabled) hq
    rw [hmem]
    exact ⟨Memory.read_write_same _ _ _ hwf, fun p hp => Memory.read_write_other _ _ hp, hself, hothers⟩
  · exact drain_of_not_enabled ha (drainSpan_one hr hq) fun hen => hnot ((drainEnabled_single hr).mp hen)

/-! ## Aligned accesses of eight bytes (20_memory.md R40, R46) -/

/-- An operand byte of an access that `atomic64` makes one event is the one seen now. -/
theorem operandByte_of_atomic {s : State} (h : Config.atomic64 = true) (k p : Nat) :
    s.operandByte true k p = s.sees p := by
  unfold State.operandByte
  split
  · rfl
  · simp [h]

theorem alignedQuad_eight {lin : Dword} (h : lin.toNat % 8 = 0) : alignedQuad lin 8 = true := by
  simp [alignedQuad, h]

/-- Eight records in the places of one aligned store. -/
structure AlignedStore (quad : List Record) (e : Nat) : Prop where
  epoch : ∀ r ∈ quad, r.epoch = e
  places : quad.map (·.quad) = (List.finRange 8).map some
  nodup : (quad.map (·.addr)).Nodup

theorem AlignedStore.length {quad : List Record} {e : Nat} (h : AlignedStore quad e) : quad.length = 8 := by
  simpa using congrArg List.length h.places

theorem AlignedStore.place {quad : List Record} {e j : Nat} {r : Record} (h : AlignedStore quad e)
    (hr : quad[j]? = some r) : r.quad.map Fin.val = some j := by
  have hplace := congrArg (·[j]?) h.places
  obtain ⟨hj, _⟩ := List.getElem?_eq_some_iff.mp hr
  rw [h.length] at hj
  simp only [List.getElem?_map, hr, List.getElem?_eq_getElem (l := List.finRange 8) (by simpa using hj),
    List.getElem_finRange, Option.map_some, Option.some.injEq] at hplace
  simp [hplace]

/-- A read at a multiple of 8 takes every byte as it is seen now with `atomic64`, and may take earlier ones without. -/
theorem quadSource_of_aligned {s : State} {p : Pfx} {m : MemRef} {ps : List Nat} (hd : ∀ q ∈ ps, s.inDevice q = false)
    (ha : accessCheck s.cpu (operandSeg p m) (effectiveAddress s.cpu m) 8 .read = .ok ps)
    (halign : (s.cpu.linear (operandSeg p m) (effectiveAddress s.cpu m) 0).toNat % 8 = 0) :
    ∃ v, quadSource s p (.mem m) = .ok v ∧ ∀ k < 8, ∃ q, ps[k]? = some q ∧
      if Config.atomic64 then byteLane v k = s.sees q
      else byteLane v k = s.sees q ∨ ∃ e ∈ s.cpu.early, e.index = k ∧ e.addr = q ∧ byteLane v k = e.byte := by
  obtain ⟨bs, hread, hbytes⟩ := memRead_of_accessCheck ha hd
  refine ⟨_, quadSource_mem_of_memRead hread, fun k hk => ?_⟩
  obtain ⟨q, hq, hb⟩ := hbytes k hk
  rw [byteLane_quadOfBytes bs hk, hb, alignedQuad_eight halign]
  refine ⟨q, hq, ?_⟩
  split
  · rename_i hatomic
    exact operandByte_of_atomic hatomic k q
  · exact operandByte_cases ..

/-- An aligned store stands in an agent's pending bytes, and R46 lets it drain: no record there is of an older epoch,
and none before it has an address of its own. -/
structure Agent.HoldsAligned (a : Agent) (before quad later : List Record) (e : Nat) : Prop
    extends AlignedStore quad e where
  pending : a.pending = before ++ (quad ++ later)
  oldest : ∀ r ∈ a.pending, e ≤ r.epoch
  disjoint : ∀ r ∈ before, ∀ q ∈ quad, r.addr ≠ q.addr

section

variable {a : Agent} {before quad later : List Record} {e : Nat} (h : a.HoldsAligned before quad later e)
include h

theorem Agent.HoldsAligned.span : (a.pending.drop before.length).take 8 = quad := by
  rw [h.pending, List.drop_left, List.take_left' h.length]

theorem Agent.HoldsAligned.rest :
    a.pending.take before.length ++ a.pending.drop (before.length + 8) = before ++ later := by
  rw [h.pending, List.take_left, ← List.drop_drop, List.drop_left, List.drop_left' h.length]

theorem Agent.HoldsAligned.drainEnabled : drainEnabled a.pending before.length 8 = true := by
  rw [drainEnabled_iff, h.span, h.pending, List.take_left]
  exact fun q hq => ⟨fun x hx => h.epoch q hq ▸ h.oldest x (h.pending ▸ hx), fun x hx => h.disjoint x hx q hq⟩

theorem Agent.HoldsAligned.getElem? {j : Nat} {r : Record} (hr : quad[j]? = some r) :
    a.pending[before.length + j]? = some r := by
  obtain ⟨hj, _⟩ := List.getElem?_eq_some_iff.mp hr
  rw [h.pending, List.getElem?_append_right (Nat.le_add_right _ _), Nat.add_sub_cancel_left,
    List.getElem?_append_left hj, hr]

/-- With `atomic64` a drain step that names any of the eight records spans them all. -/
theorem Agent.HoldsAligned.drainSpan {j : Nat} {r : Record} (hr : quad[j]? = some r)
    (hatomic : Config.atomic64 = true) : drainSpan a.pending (before.length + j) = some (before.length, 8) := by
  obtain ⟨k, hk, hkj⟩ := Option.map_eq_some_iff.mp (h.place hr)
  have hrun : quadRun e 0 (quad ++ later) = 8 := by
    rw [quadRun_append e 0 quad later h.epoch (fun i q hq => by rw [Nat.zero_add, h.place hq]), h.length]
    intro q _ hq
    obtain ⟨x, _, hx⟩ := Option.map_eq_some_iff.mp hq
    have := h.length
    omega
  simp only [Machine.drainSpan, h.getElem? hr, hk, hatomic, if_true, hkj, Nat.add_sub_cancel,
    h.epoch r (List.mem_of_getElem? hr)]
  rw [show j - (before.length + j) = 0 by omega, h.pending, List.drop_left, hrun]

/-- With `atomic64` the eight records drain as one, whichever of them is named. -/
theorem Agent.HoldsAligned.drain_atomic {s : State} {who j : Nat} {r : Record} (ha : s.agent who = some a)
    (hr : quad[j]? = some r) (hatomic : Config.atomic64 = true) :
    (s.drain who (before.length + j)).agent who = some { a with pending := before ++ later } ∧
      (s.drain who (before.length + j)).mem = drainInto s.mem quad := by
  rw [drain_of_enabled ha (h.drainSpan hr hatomic) h.drainEnabled, drained_agent_same _ _ ha, drained_mem, h.rest,
    h.span]
  exact ⟨rfl, rfl⟩

theorem Agent.HoldsAligned.eraseIdx {j : Nat} {r : Record} (hr : quad[j]? = some r) :
    a.pending.eraseIdx (before.length + j) = before ++ quad.eraseIdx j ++ later := by
  obtain ⟨hj, _⟩ := List.getElem?_eq_some_iff.mp hr
  rw [h.pending, List.eraseIdx_append_of_length_le (Nat.le_add_right _ _), Nat.add_sub_cancel_left,
    List.eraseIdx_append_of_lt_length hj, List.append_assoc]

/-- No record before one of the eight has its address. -/
theorem Agent.HoldsAligned.addr_ne {i j : Nat} {q r : Record} (hr : quad[j]? = some r) (hi : i < before.length + j)
    (hq : a.pending[i]? = some q) : q.addr ≠ r.addr := by
  obtain ⟨hj, _⟩ := List.getElem?_eq_some_iff.mp hr
  rw [h.pending] at hq
  by_cases hib : i < before.length
  · rw [List.getElem?_append_left hib] at hq
    exact h.disjoint q (List.mem_of_getElem? hq) r (List.mem_of_getElem? hr)
  · rw [List.getElem?_append_right (not_lt.mp hib), List.getElem?_append_left (by omega)] at hq
    have hne := List.nodup_iff_getElem?_ne_getElem?.mp h.nodup (i - before.length) j (by omega) (by simpa using hj)
    simpa [hq, hr] using hne

end

/-- Settles O15: a read at a multiple of 8 is one event with `atomic64`; an aligned store's span is its eight records
with `atomic64`, and the named record alone without it. -/
theorem atomicAlignedAccesses : Obligations.AtomicAlignedAccesses := by
  refine ⟨fun s p m ps hd ha halign => quadSource_of_aligned hd ha halign, ?_⟩
  intro s who a before quad later e hwf ha hpending hepoch hplaces hnodup holdest hdisjoint j r hr
  have h : a.HoldsAligned before quad later e :=
    ⟨⟨hepoch, hplaces, hnodup⟩, hpending.trans (List.append_assoc ..), holdest, hdisjoint⟩
  dsimp only
  split
  · rename_i hatomic
    obtain ⟨hself, hmem⟩ := h.drain_atomic ha hr hatomic
    rw [hself, hmem]
    refine ⟨rfl, fun q hq => ?_, fun p hp => drainInto_read_other _ _ _ hp⟩
    rw [drainInto_read _ _ hwf, newestPending_of_nodup hnodup hq, Option.getD_some]
  · rename_i hatomic
    have henabled : (∀ q ∈ a.pending, r.epoch ≤ q.epoch) ∧
        ∀ i < before.length + j, ∀ q, a.pending[i]? = some q → q.addr ≠ r.addr :=
      ⟨fun q hq => hepoch r (List.mem_of_getElem? hr) ▸ holdest q hq, fun i hi q hq => h.addr_ne hr hi hq⟩
    obtain ⟨hbyte, hother, hself, _⟩ := (enabledDrainWritesItsByte s who _ a r hwf ha (h.getElem? hr)
      (.inr (by simpa using hatomic))).1 henabled
    rw [hself, h.eraseIdx hr]
    exact ⟨rfl, hbyte, hother⟩

end Sys2Proof.Machine
end

section
/-! SUPPORT. What stops the access of a memory operand stops the instruction: devices and the program text
(20_memory.md R44, R50; 41_streaming_stores.md R93; 70_reset_and_hazards.md R156). -/

namespace Sys2Proof.Machine

open Sys2Proof

/-! ## Refusing an address -/

theorem refuseDevice_of_mem {s : State} {ps : List Nat} (h : ∃ q ∈ ps, s.inDevice q = true) :
    ∃ q ∈ ps, s.inDevice q = true ∧ s.refuseDevice ps = .error (.refused (.deviceAccess q)) := by
  obtain ⟨q, hq⟩ := Option.isSome_iff_exists.mp (List.find?_isSome.mpr h)
  exact ⟨q, List.mem_of_find?_eq_some hq, List.find?_some hq, by simp [State.refuseDevice, hq]⟩

theorem refuseText_of_mem {s : State} {ps : List Nat} (h : ∃ q ∈ ps, s.inText q = true) :
    ∃ q ∈ ps, s.inText q = true ∧ s.refuseText ps = .error (.refused (.storeToText q)) := by
  obtain ⟨q, hq⟩ := Option.isSome_iff_exists.mp (List.find?_isSome.mpr h)
  exact ⟨q, List.mem_of_find?_eq_some hq, List.find?_some hq, by simp [State.refuseText, hq]⟩

theorem memRead_of_device {s : State} {seg : Seg} {off : Dword} {n : Nat} {ps : List Nat}
    (ha : accessCheck s.cpu seg off n .read = .ok ps) (h : ∃ q ∈ ps, s.inDevice q = true) :
    ∃ q ∈ ps, s.inDevice q = true ∧ memRead s seg off n = .error (.refused (.deviceAccess q)) := by
  obtain ⟨q, hq, hd, hrefuse⟩ := refuseDevice_of_mem h
  exact ⟨q, hq, hd, by simp [memRead, (access_eq_ok ..).mpr ha, hrefuse]⟩

/-- A store with a byte in a device is refused for the device, whatever its destination overlaps (log 16). -/
theorem store_of_device {s : State} {cells : List (Nat × Byte)} (quad : Bool) (dst : List Nat)
    (h : ∃ q ∈ cells.map Prod.fst, s.inDevice q = true) :
    ∃ q ∈ cells.map Prod.fst, s.inDevice q = true ∧
      s.store quad dst cells = .error (.refused (.deviceAccess q)) := by
  obtain ⟨q, hq, hd, hrefuse⟩ := refuseDevice_of_mem h
  exact ⟨q, hq, hd, by simp [State.store, hrefuse]⟩

theorem store_of_text {s : State} {dst : List Nat} {cells : List (Nat × Byte)} (quad : Bool)
    (hd : ∀ q ∈ cells.map Prod.fst, s.inDevice q = false) (h : ∃ q ∈ dst, s.inText q = true) :
    ∃ q ∈ dst, s.inText q = true ∧ s.store quad dst cells = .error (.refused (.storeToText q)) := by
  obtain ⟨q, hq, ht, hrefuse⟩ := refuseText_of_mem h
  exact ⟨q, hq, ht, by simp [State.store, (refuseDevice_eq_ok s _ ()).mpr hd, hrefuse]⟩

/-! ## The instruction of an operand -/

/-- An operand is read, by an instruction that is no store, or it is the eight bytes that MOVNTQ or MASKMOVQ writes. -/
theorem memoryOperand_cases {s : State} {i : Instr} {o : Operand} (h : memoryOperand s i = some o) :
    o.kind = .read ∨
      (∃ p dst r, i = .movntq p dst r ∧ o = ⟨operandSeg p dst, effectiveAddress s.cpu dst, 8, .write⟩) ∨
      ∃ p d m, i = .maskmovq p d m ∧ o = ⟨maskmovSeg p, maskmovOffset s.cpu p, 8, .write⟩ := by
  have hsource : ∀ {ρ : Type} (p : Pfx) (n : Nat) (src : RM ρ), sourceOperand s p n src = some o → o.kind = .read := by
    intro ρ p n src hsrc
    cases src with
    | reg r => cases hsrc
    | mem m => rw [← Option.some.inj hsrc]
  cases i with
  | pf2iw p d src | pfnacc p d src | pfpnacc p d src | pi2fw p d src | pswapd p d src | pavgb p d src | pavgw p d src
  | pmaxsw p d src | pmaxub p d src | pminsw p d src | pminub p d src | pmulhuw p d src | psadbw p d src
  | pshufw p d src imm => all_goals exact .inl (hsource p 8 src h)
  | pinsrw p d src imm => exact .inl (hsource p 2 src h)
  | movntq p dst r => exact .inr (.inl ⟨p, dst, r, rfl, (Option.some.inj h).symm⟩)
  | maskmovq p d m => exact .inr (.inr ⟨p, d, m, rfl, (Option.some.inj h).symm⟩)
  | pextrw | pmovmskb | prefetchnta | prefetcht0 | prefetcht1 | prefetcht2 | sfence => all_goals cases h

theorem quadSource_of_memRead_error {s : State} {p : Pfx} {src : RM MmReg} {o : Operand} {e : Stop}
    (ho : sourceOperand s p 8 src = some o) (h : memRead s o.seg o.off o.size = .error e) :
    quadSource s p src = .error e := by
  cases src with
  | reg r => cases ho
  | mem m =>
    rw [← Option.some.inj ho] at h
    simp [quadSource, h]

theorem wordSource_of_memRead_error {s : State} {p : Pfx} {src : RM IntReg} {o : Operand} {e : Stop}
    (ho : sourceOperand s p 2 src = some o) (h : memRead s o.seg o.off o.size = .error e) :
    wordSource s p src = .error e := by
  cases src with
  | reg r => cases ho
  | mem m =>
    rw [← Option.some.inj ho] at h
    simp [wordSource, h]

theorem mmxCompute_of_source_error {s : State} {p : Pfx} {src : RM MmReg} {e : Stop} (hready : MmxReady s)
    (h : quadSource s p src = .error e) (f : Quad → Quad → Quad) (d : MmReg) (last : Nat) :
    mmxCompute f p d src last s = conclude (.error e) := by
  simp [mmxCompute, mmxChecks_ready hready, h]

/-- An instruction that may run stops where the read of its operand stops. -/
theorem exec_of_memRead_error {s : State} {i : Instr} {o : Operand} {e : Stop} (hready : MmxReady s)
    (ho : memoryOperand s i = some o) (hk : o.kind = .read) (h : memRead s o.seg o.off o.size = .error e) :
    exec i s = conclude (.error e) := by
  cases i with
  | pf2iw p d src =>
    simp [exec, execPf2iw, mmxChecks_ready hready, quadSource_of_memRead_error ho h]
  | pfnacc p d src | pfpnacc p d src | pavgb p d src | pavgw p d src
  | pmaxsw p d src | pmaxub p d src | pminsw p d src | pminub p d src | pmulhuw p d src | psadbw p d src =>
    all_goals exact mmxCompute_of_source_error hready (quadSource_of_memRead_error ho h) ..
  | pi2fw p d src =>
    exact mmxCompute_of_source_error hready (quadSource_of_memRead_error ho h) (fun _ v => intsToFloats v) ..
  | pswapd p d src =>
    exact mmxCompute_of_source_error hready (quadSource_of_memRead_error ho h) (fun _ v => swapDwords v) ..
  | pshufw p d src imm =>
    exact mmxCompute_of_source_error hready (quadSource_of_memRead_error ho h) (fun _ v => shuffleWords v imm) ..
  | pinsrw p d src imm =>
    simp [exec, execPinsrw, mmxChecks_ready hready, wordSource_of_memRead_error ho h]
  | movntq | maskmovq =>
    all_goals
      rw [← Option.some.inj ho] at hk
      cases hk
  | pextrw | pmovmskb | prefetchnta | prefetcht0 | prefetcht1 | prefetcht2 | sfence => all_goals cases ho

theorem exec_movntq_of_store_error {s : State} {p : Pfx} {dst : MemRef} {r : MmReg} {ps : List Nat} {e : Stop}
    (hready : MmxReady s)
    (ha : accessCheck s.cpu (operandSeg p dst) (effectiveAddress s.cpu dst) 8 .write = .ok ps)
    (h : s.store (alignedQuad (s.cpu.linear (operandSeg p dst) (effectiveAddress s.cpu dst) 0) 8) ps
      (quadCells ps (s.mm r)) = .error e) :
    exec (.movntq p dst r) s = conclude (.error e) := by
  simp [exec, execMovntq, mmxChecks_ready hready, memWrite, (access_eq_ok ..).mpr ha, h]

/-- MASKMOVQ stops where its store stops, unless its mask is all zero and the parameter says that this does not count
(41_streaming_stores.md R93). -/
theorem exec_maskmovq_of_store_error {s : State} {p : Pfx} {d m : MmReg} {ps : List Nat} {e : Stop}
    (hready : MmxReady s) (ha : accessCheck s.cpu (maskmovSeg p) (maskmovOffset s.cpu p) 8 .write = .ok ps)
    (hc : checkCounts s (.maskmovq p d m) = true)
    (h : s.store false ps (selectedCells (s.mm m) 0 (quadCells ps (s.mm d))) = .error e) :
    exec (.maskmovq p d m) s = conclude (.error e) := by
  have hstore : s.storeSelected (maskmovSeg p) (maskmovOffset s.cpu p) (s.mm d) (s.mm m) = .error e := by
    simp [State.storeSelected, (access_eq_ok ..).mpr ha, h]
  have hwrite := (memWriteMasked_error hstore).trans (if_pos hc)
  simp [exec, execMaskmovq, mmxChecks_ready hready, hwrite]

/-! ## Devices and the program text -/

theorem storedAddresses_movntq {s : State} {p : Pfx} {dst : MemRef} {ps : List Nat} (r : MmReg)
    (ha : accessCheck s.cpu (operandSeg p dst) (effectiveAddress s.cpu dst) 8 .write = .ok ps) :
    storedAddresses s (.movntq p dst r) = (quadCells ps (s.mm r)).map Prod.fst := by
  simp [storedAddresses, ha]

theorem storedAddresses_maskmovq {s : State} {p : Pfx} {ps : List Nat} (d m : MmReg)
    (ha : accessCheck s.cpu (maskmovSeg p) (maskmovOffset s.cpu p) 8 .write = .ok ps) :
    storedAddresses s (.maskmovq p d m) = (selectedCells (s.mm m) 0 (quadCells ps (s.mm d))).map Prod.fst := by
  simp [storedAddresses, ha]

/-- Where MASKMOVQ stores a byte its mask is not all zero, so that what stops it counts. -/
theorem checkCounts_of_stored {s : State} {p : Pfx} {d m : MmReg} {q : Nat}
    (h : q ∈ storedAddresses s (.maskmovq p d m)) : checkCounts s (.maskmovq p d m) = true := by
  have hmask : byteMask (s.mm m) ≠ 0 := fun hzero => by
    rw [storedAddresses_zeroMask p d hzero] at h
    cases h
  simp only [checkCounts, bne_iff_ne.mpr hmask, Bool.true_or]

/-- Settles O32: a read is refused by its devices alone, and each store first by a device under its stored addresses
and then by program text under its destination. -/
theorem devicesAndProgramTextAreRefused : Obligations.DevicesAndProgramTextAreRefused := by
  intro i s o ps hready ho ha touched
  rcases memoryOperand_cases ho with hk | ⟨p, dst, r, rfl, rfl⟩ | ⟨p, d, m, rfl, rfl⟩
  · rw [hk] at ha
    have htouched : touched = ps := if_pos hk
    rw [htouched, hk]
    refine ⟨fun hdevice => ?_, nofun⟩
    obtain ⟨q, hq, hd, hread⟩ := memRead_of_device ha hdevice
    exact ⟨q, hq, hd, exec_of_memRead_error hready ho hk hread⟩
  · have htouched : touched = (quadCells ps (s.mm r)).map Prod.fst := storedAddresses_movntq r ha
    rw [htouched]
    refine ⟨fun hdevice => ?_, fun _ _ hnone htext => ?_⟩
    · obtain ⟨q, hq, hd, hstore⟩ := store_of_device _ ps hdevice
      exact ⟨q, hq, hd, exec_movntq_of_store_error hready ha hstore⟩
    · obtain ⟨q, hq, ht, hstore⟩ := store_of_text _ hnone htext
      exact ⟨q, hq, ht, exec_movntq_of_store_error hready ha hstore⟩
  · have htouched : touched = _ := storedAddresses_maskmovq d m ha
    rw [htouched]
    refine ⟨fun hdevice => ?_, fun _ hcounts hnone htext => ?_⟩
    · obtain ⟨q, hq, hd, hstore⟩ := store_of_device false ps hdevice
      have hcounts := checkCounts_of_stored (storedAddresses_maskmovq d m ha ▸ hq)
      exact ⟨q, hq, hd, exec_maskmovq_of_store_error hready ha hcounts hstore⟩
    · obtain ⟨q, hq, ht, hstore⟩ := store_of_text false hnone htext
      exact ⟨q, hq, ht, exec_maskmovq_of_store_error hready ha hcounts hstore⟩

end Sys2Proof.Machine
end

section
/-! SUPPORT. The segment, page and alignment checks one by one, and what their order answers (20_memory.md R34 to R37,
R39, R41, R42). -/

namespace Sys2Proof.Machine

open Sys2Proof

/-! ## The segment check (20_memory.md R35, R36) -/

theorem segCheck_of_not_protected {a : Agent} (h : a.mode ≠ .protectedMode) (seg : Seg) (off : Dword) (n : Nat)
    (kind : Access) :
    segCheck a seg off n kind = if 0x10000 < off.toNat + n then .error .segmentOverrun else .ok () := by
  unfold segCheck
  cases hm : a.mode with
  | protectedMode => exact absurd hm h
  | realAddress | virtual8086 => all_goals rfl

theorem segCheck_stack {a : Agent} (h : a.mode = .protectedMode) (off : Dword) (n : Nat) (kind : Access) :
    segCheck a .ss off n kind =
      if a.segs.ss.limit.toNat + 1 < off.toNat + n then .error .stackException else .ok () := by
  simp [segCheck, h, SegFile.get]

theorem SegReg.isNull_iff (r : SegReg) : r.isNull = true ↔ r.selector.toNat < 4 := by
  rw [SegReg.isNull, beq_iff_eq, ← BitVec.toNat_inj, BitVec.extractLsb'_toNat, Nat.shiftRight_eq_div_pow]
  have := r.selector.isLt
  change r.selector.toNat / 2 ^ 2 % 2 ^ 14 = 0 ↔ _
  omega

/-- Why the segment check forbids an access through a segment other than SS (20_memory.md R36; log 13). -/
def SegReg.Forbids (r : SegReg) (off : Dword) (n : Nat) (kind : Access) : Prop :=
  r.limit.toNat + 1 < off.toNat + n ∨ r.selector.toNat < 4 ∨ (kind = .read ∧ r.readable = false) ∨
    (kind = .write ∧ r.writable = false)

theorem SegReg.permits_eq_false_iff (r : SegReg) (kind : Access) :
    r.permits kind = false ↔ (kind = .read ∧ r.readable = false) ∨ (kind = .write ∧ r.writable = false) := by
  cases kind <;> simp [SegReg.permits]

theorem segCheck_data {a : Agent} (h : a.mode = .protectedMode) {seg : Seg} (hseg : seg ≠ .ss) (off : Dword) (n : Nat)
    (kind : Access) :
    ((a.segs.get seg).Forbids off n kind ∧ segCheck a seg off n kind = .error .generalProtection) ∨
      ¬ (a.segs.get seg).Forbids off n kind ∧ segCheck a seg off n kind = .ok () := by
  have hiff : (decide (off.toNat + n > (a.segs.get seg).limit.toNat + 1) || (a.segs.get seg).isNull ||
      !(a.segs.get seg).permits kind) = true ↔ (a.segs.get seg).Forbids off n kind := by
    simp [SegReg.Forbids, SegReg.isNull_iff, SegReg.permits_eq_false_iff, or_assoc]
  by_cases hforbids : (a.segs.get seg).Forbids off n kind
  · exact .inl ⟨hforbids, by simp only [segCheck, h, hseg, if_false, if_pos (hiff.mpr hforbids)]⟩
  · exact .inr ⟨hforbids, by simp only [segCheck, h, hseg, if_false, if_neg (mt hiff.mp hforbids)]⟩

/-! ## The page check (20_memory.md R42) -/

theorem pageCheck_ok_of_physical {a : Agent} {seg : Seg} {off : Dword} {kind : Access} {k n : Nat}
    (h : ∀ j, k ≤ j → j < k + n → a.physical kind (a.linear seg off j) ≠ none) :
    ∃ ps, pageCheck a seg off kind k n = .ok ps := by
  cases hpage : pageCheck a seg off kind k n with
  | ok ps => exact ⟨ps, rfl⟩
  | error x =>
    obtain ⟨j, hkj, hjn, hnone, _⟩ := pageCheck_error _ _ _ _ _ _ _ hpage
    exact absurd hnone (h j hkj hjn)

/-- The page check answers a page fault exactly where a byte has no physical address, at the first such byte. -/
theorem pageCheck_eq_error_iff (a : Agent) (seg : Seg) (off : Dword) (kind : Access) (k n : Nat) (x : Exn) :
    pageCheck a seg off kind k n = .error x ↔
      ∃ j, k ≤ j ∧ j < k + n ∧ x = .pageFault (a.linear seg off j) ∧ a.physical kind (a.linear seg off j) = none ∧
        ∀ i, k ≤ i → i < j → a.physical kind (a.linear seg off i) ≠ none := by
  induction n generalizing k with
  | zero =>
    simp only [pageCheck, reduceCtorEq, false_iff]
    rintro ⟨j, hkj, hjk, _⟩
    omega
  | succ n ih =>
    cases hp : a.physical kind (a.linear seg off k) with
    | none =>
      simp only [pageCheck, hp, Except.error.injEq]
      constructor
      · rintro rfl
        exact ⟨k, le_rfl, by omega, rfl, hp, fun i hki hik => absurd hik (not_lt.mpr hki)⟩
      · rintro ⟨j, hkj, _, rfl, _, hfirst⟩
        obtain rfl : j = k := by
          by_contra hne
          exact hfirst k le_rfl (by omega) hp
        rfl
    | some p =>
      have hrest : pageCheck a seg off kind k (n + 1) = .error x ↔ pageCheck a seg off kind (k + 1) n = .error x := by
        simp only [pageCheck, hp]
        cases pageCheck a seg off kind (k + 1) n <;> simp
      rw [hrest, ih]
      constructor
      · rintro ⟨j, hkj, hjn, hx, hnone, hfirst⟩
        refine ⟨j, by omega, by omega, hx, hnone, fun i hki hij => ?_⟩
        rcases hki.eq_or_lt with rfl | hki
        · simp [hp]
        · exact hfirst i hki hij
      · rintro ⟨j, hkj, hjn, hx, hnone, hfirst⟩
        have hne : j ≠ k := fun e => by simp [e ▸ hp] at hnone
        exact ⟨j, by omega, by omega, hx, hnone, fun i hki hij => hfirst i (by omega) hij⟩

/-! ## The checks in their order (20_memory.md R39, R41) -/

theorem translate_of_segCheck_ok {a : Agent} {seg : Seg} {off : Dword} {n : Nat} {kind : Access}
    (h : segCheck a seg off n kind = .ok ()) :
    Machine.translate a seg off n kind = pageCheck a seg off kind 0 n := by
  simp [Machine.translate, h]

theorem translate_of_segCheck_error {a : Agent} {seg : Seg} {off : Dword} {n : Nat} {kind : Access} {x : Exn}
    (h : segCheck a seg off n kind = .error x) : Machine.translate a seg off n kind = .error x := by
  simp [Machine.translate, h]

theorem translate_eq_ok_iff (a : Agent) (seg : Seg) (off : Dword) (n : Nat) (kind : Access) (ps : List Nat) :
    Machine.translate a seg off n kind = .ok ps ↔
      segCheck a seg off n kind = .ok () ∧ pageCheck a seg off kind 0 n = .ok ps := by
  cases h : segCheck a seg off n kind with
  | ok u => simp [translate_of_segCheck_ok h]
  | error x => simp [translate_of_segCheck_error h]

theorem accessCheck_of_translate_ok {a : Agent} {seg : Seg} {off : Dword} {n : Nat} {kind : Access} {ps : List Nat}
    (h : Machine.translate a seg off n kind = .ok ps) :
    accessCheck a seg off n kind =
      if alignFault a (a.linear seg off 0) n then .error .alignmentCheck else .ok ps := by
  simp [accessCheck, h]

/-- What the checks raise is what the first of the three that fails raises. -/
theorem accessCheck_eq_error_iff (a : Agent) (seg : Seg) (off : Dword) (n : Nat) (kind : Access) (x : Exn) :
    accessCheck a seg off n kind = .error x ↔
      segCheck a seg off n kind = .error x ∨
      (segCheck a seg off n kind = .ok () ∧ pageCheck a seg off kind 0 n = .error x) ∨
      ((∃ ps, Machine.translate a seg off n kind = .ok ps) ∧ alignFault a (a.linear seg off 0) n = true ∧
        x = .alignmentCheck) := by
  cases hseg : segCheck a seg off n kind with
  | error y => simp [accessCheck, translate_of_segCheck_error hseg]
  | ok u =>
    have htranslate := translate_of_segCheck_ok hseg
    cases hpage : pageCheck a seg off kind 0 n with
    | error y => simp [accessCheck, htranslate, hpage]
    | ok ps =>
      rw [accessCheck_of_translate_ok (htranslate.trans hpage), htranslate, hpage]
      cases alignFault a (a.linear seg off 0) n <;> simp [eq_comm]

/-- An exception that is no page fault and no alignment check is the segment check's. -/
theorem accessCheck_eq_segment_error (a : Agent) (seg : Seg) (off : Dword) (n : Nat) (kind : Access) {x : Exn}
    (hpage : ∀ lin, x ≠ .pageFault lin) (halign : x ≠ .alignmentCheck) :
    accessCheck a seg off n kind = .error x ↔ segCheck a seg off n kind = .error x := by
  rw [accessCheck_eq_error_iff]
  refine ⟨?_, .inl⟩
  rintro (h | ⟨_, h⟩ | ⟨_, _, h⟩)
  · exact h
  · obtain ⟨j, _, _, _, hx⟩ := pageCheck_error _ _ _ _ _ _ _ h
    exact absurd hx (hpage _)
  · exact absurd h halign

/-- Settles O43: SegmentOverrun is the segment check's, which in these modes compares with 0FFFFh alone. -/
theorem segmentOverrunExactlyOutsideTheRange : Obligations.SegmentOverrunExactlyOutsideTheRange := by
  intro a seg off n kind hm hn
  rw [accessCheck_eq_segment_error (x := .segmentOverrun) a seg off n kind (by simp) (by simp),
    segCheck_of_not_protected hm]
  split
  · exact iff_of_true rfl (by omega)
  · exact iff_of_false nofun (by omega)

/-- Settles O44: both exceptions are the segment check's, one through SS and one through the other segments. -/
theorem protectedModeSegmentChecks : Obligations.ProtectedModeSegmentChecks := by
  intro a seg off n kind hm hn
  rw [accessCheck_eq_segment_error (x := .stackException) a seg off n kind (by simp) (by simp),
    accessCheck_eq_segment_error (x := .generalProtection) a seg off n kind (by simp) (by simp)]
  by_cases hseg : seg = .ss
  · subst hseg
    rw [segCheck_stack hm]
    split
    · exact ⟨iff_of_true rfl ⟨rfl, by omega⟩, by simp⟩
    · exact ⟨iff_of_false nofun fun h => by omega, by simp⟩
  · have hbeyond : (a.segs.get seg).limit.toNat < off.toNat + n - 1 ↔
        (a.segs.get seg).limit.toNat + 1 < off.toNat + n := by omega
    rw [hbeyond]
    rcases segCheck_data hm hseg off n kind with ⟨hforbids, hcheck⟩ | ⟨hforbids, hcheck⟩
    · rw [hcheck]
      exact ⟨by simp [hseg], iff_of_true rfl ⟨hseg, hforbids⟩⟩
    · rw [hcheck]
      exact ⟨by simp [hseg], iff_of_false nofun fun h => hforbids h.2⟩

/-- Settles O46: with the segment check passed only the page check answers a page fault. -/
theorem pageFaultExactlyAtTheFirstUnmappedByte : Obligations.PageFaultExactlyAtTheFirstUnmappedByte := by
  intro a seg off n kind lin hseg
  have hpage : accessCheck a seg off n kind = .error (.pageFault lin) ↔
      pageCheck a seg off kind 0 n = .error (.pageFault lin) := by
    simp [accessCheck_eq_error_iff, hseg]
  rw [hpage, pageCheck_eq_error_iff]
  constructor
  · rintro ⟨k, _, hk, hlin, hnone, hfirst⟩
    obtain rfl := Exn.pageFault.inj hlin
    exact ⟨k, by omega, rfl, hnone, fun j hj => hfirst j (Nat.zero_le j) hj⟩
  · rintro ⟨k, hk, rfl, hnone, hfirst⟩
    exact ⟨k, Nat.zero_le k, by omega, rfl, hnone, fun j _ hj => hfirst j hj⟩

theorem alignFault_iff (a : Agent) (lin : Dword) (n : Nat) :
    alignFault a lin n = true ↔
      a.mode ≠ .realAddress ∧ a.cr0.getLsbD 18 = true ∧ a.cpl = 3 ∧ a.eflagsAc = true ∧ ¬ n ∣ lin.toNat := by
  simp [alignFault, Agent.alignmentChecked, Agent.am, Nat.dvd_iff_mod_eq_zero, and_assoc]

/-- Settles O48: with the other two checks passed only the alignment check is left. -/
theorem alignmentCheckExactlyWhenEnabled : Obligations.AlignmentCheckExactlyWhenEnabled := by
  intro a seg off n kind ps h
  rw [accessCheck_of_translate_ok h, ← alignFault_iff]
  split
  · rename_i hfault
    exact ⟨iff_of_true rfl hfault, fun hne => absurd rfl hne⟩
  · rename_i hfault
    exact ⟨iff_of_false nofun hfault, fun _ => rfl⟩

/-! ## Where the bytes of an operand lie (20_memory.md R34, R41, R42) -/

theorem linear_toNat_eq (a : Agent) (seg : Seg) (off : Dword) (k : Nat) :
    (a.linear seg off k).toNat = ((a.segBase seg).toNat + off.toNat + k) % 2 ^ 32 := by
  simp [Agent.linear]

theorem segBase_of_protected {a : Agent} (h : a.mode = .protectedMode) (seg : Seg) :
    a.segBase seg = (a.segs.get seg).base := by
  simp [Agent.segBase, h]

theorem segBase_of_not_protected {a : Agent} (h : a.mode ≠ .protectedMode) (seg : Seg) :
    (a.segBase seg).toNat = 16 * (a.segs.get seg).selector.toNat := by
  have hbase : a.segBase seg = (a.segs.get seg).selector.setWidth 32 <<< 4 := by
    unfold Agent.segBase
    cases hm : a.mode with
    | protectedMode => exact absurd hm h
    | realAddress | virtual8086 => all_goals rfl
  have := (a.segs.get seg).selector.isLt
  rw [hbase, BitVec.toNat_shiftLeft, BitVec.toNat_setWidth, Nat.shiftLeft_eq]
  omega

/-- Place `k` of a translation is the physical address of byte `k`. -/
theorem translate_getElem? {a : Agent} {seg : Seg} {off : Dword} {n : Nat} {kind : Access} {ps : List Nat}
    (h : Machine.translate a seg off n kind = .ok ps) {k : Nat} (hk : k < n) :
    ps[k]? = a.physical kind (a.linear seg off k) := by
  obtain ⟨_, hpage⟩ := (translate_eq_ok_iff ..).mp h
  have hlen : k < ps.length := pageCheck_length _ _ _ _ _ _ _ hpage ▸ hk
  rw [List.getElem?_eq_getElem hlen, ← pageCheck_physical _ _ _ _ _ _ _ hpage k hlen, Nat.zero_add]

theorem translate_length {a : Agent} {seg : Seg} {off : Dword} {n : Nat} {kind : Access} {ps : List Nat}
    (h : Machine.translate a seg off n kind = .ok ps) : ps.length = n :=
  pageCheck_length _ _ _ _ _ _ _ ((translate_eq_ok_iff ..).mp h).2

theorem translate_ok_of_physical {a : Agent} {seg : Seg} {off : Dword} {n : Nat} {kind : Access}
    (hseg : segCheck a seg off n kind = .ok ()) (h : ∀ k < n, a.physical kind (a.linear seg off k) ≠ none) :
    ∃ ps, Machine.translate a seg off n kind = .ok ps := by
  rw [translate_of_segCheck_ok hseg]
  exact pageCheck_ok_of_physical fun j _ hj => h j (by omega)

/-- Settles O45: each byte of a translation is at the place of its linear address, and where every byte has a place
the page check passes. -/
theorem translationIsPageByPage : Obligations.TranslationIsPageByPage := by
  intro a seg off n kind lin
  have hlin : ∀ k, lin k = (a.linear seg off k).toNat := fun k => (linear_toNat_eq ..).symm
  refine ⟨fun hm => segBase_of_protected hm seg, fun hm => segBase_of_not_protected hm seg, fun ps h => ?_,
    fun hseg hadmits => ?_⟩
  · refine ⟨translate_length h, fun k hk => ?_⟩
    have hlen : k < ps.length := translate_length h ▸ hk
    have hphysical := translate_getElem? h hk
    rw [List.getElem?_eq_getElem hlen] at hphysical
    exact ⟨ps[k], List.getElem?_eq_getElem hlen, hlin k ▸ mapsTo_of_physical hphysical.symm⟩
  · exact translate_ok_of_physical hseg fun k hk => physical_ne_none_of_admits (hlin k ▸ hadmits k hk)

/-- Without paging an operand through a segment with base 0 translates to its offsets, where it ends below `2^32`. -/
theorem translate_of_base_zero {a : Agent} {seg : Seg} {off : Dword} {n : Nat} {kind : Access}
    (hp : a.paging = none) (hbase : a.segBase seg = 0) (hseg : segCheck a seg off n kind = .ok ())
    (hend : off.toNat + n ≤ 2 ^ 32) :
    Machine.translate a seg off n kind = .ok ((List.range n).map (off.toNat + ·)) := by
  have hplace : ∀ k < n, a.physical kind (a.linear seg off k) = some (off.toNat + k) := by
    intro k hk
    rw [physical_of_flat (.inr hp), linear_toNat_eq, hbase, BitVec.ofNat_eq_ofNat, BitVec.toNat_zero, Nat.zero_add,
      Nat.mod_eq_of_lt (by omega)]
  obtain ⟨ps, hps⟩ := translate_ok_of_physical hseg fun k hk => by simp [hplace k hk]
  rw [hps]
  congr 1
  refine List.ext_getElem? fun k => ?_
  by_cases hk : k < n
  · rw [translate_getElem? hps hk, hplace k hk]
    simp [hk]
  · rw [List.getElem?_eq_none (by rw [translate_length hps]; omega), List.getElem?_eq_none (by simpa using hk)]

/-- Settles O47: of a flat segment only the limit can fail. -/
theorem flatProfileTranslatesToOffsets : Obligations.FlatProfileTranslatesToOffsets := by
  intro a seg off n kind hn hm hp hflat
  obtain ⟨hbase, hlimit, hreadable, hwritable, hselector⟩ := hflat seg
  have hlimit' : (a.segs.get seg).limit.toNat + 1 = 2 ^ 32 := by rw [hlimit]; rfl
  have hbase' : a.segBase seg = 0 := (segBase_of_protected hm seg).trans hbase
  by_cases hseg : seg = .ss
  · subst hseg
    have hcheck := segCheck_stack hm off n kind
    rw [show a.segs.ss.limit.toNat + 1 = 2 ^ 32 from hlimit'] at hcheck
    split
    · rw [if_neg (by omega)] at hcheck
      exact translate_of_base_zero hp hbase' hcheck (by omega)
    · rw [if_pos (by omega)] at hcheck
      exact translate_of_segCheck_error hcheck
  · have hforbids : (a.segs.get seg).Forbids off n kind ↔ 2 ^ 32 < off.toNat + n := by
      simp only [SegReg.Forbids, hlimit', hreadable, hwritable, Bool.true_eq_false, and_false, or_false]
      omega
    rw [if_neg hseg]
    rcases segCheck_data hm hseg off n kind with ⟨hf, hcheck⟩ | ⟨hf, hcheck⟩
    · rw [if_neg (by have := hforbids.mp hf; omega)]
      exact translate_of_segCheck_error hcheck
    · have hend := mt hforbids.mpr hf
      rw [if_pos (by omega)]
      exact translate_of_base_zero hp hbase' hcheck (by omega)

end Sys2Proof.Machine
end

section
/-! SUPPORT. The decoder and the encoder are inverse to each other (30_encoding.md R53 to R73): for each parser, what it
accepts is exactly what the encoder writes. -/

namespace Sys2Proof

open Sys2Proof.Machine (bind_eq_ok)

/-! ## Fields (R57, R58, R61) -/

theorem threeFields_eq_iff (top : BitVec 2) (mid low : BitVec 3) (b : Byte) :
    threeFields top mid low = b ↔ fieldTop b = top ∧ fieldMid b = mid ∧ fieldLow b = low := by
  constructor
  · rintro rfl
    simp
  · rintro ⟨rfl, rfl, rfl⟩
    exact threeFields_fields b

theorem intRegBits_eq_four_iff (r : IntReg) : intRegBits r = 4 ↔ r = .esp := by cases r <;> decide

theorem intRegBits_eq_five_iff (r : IntReg) : intRegBits r = 5 ↔ r = .ebp := by cases r <;> decide

theorem base16Bits_eq_six_iff (b : Base16) : base16Bits b = 6 ↔ b = .bp := by cases b <;> decide

theorem intRegOfBits_eq_esp_iff (b : BitVec 3) : intRegOfBits b = .esp ↔ b = 4 := by
  rw [← intRegBits_eq_four_iff, intRegBits_intRegOfBits]

theorem intRegOfBits_eq_ebp_iff (b : BitVec 3) : intRegOfBits b = .ebp ↔ b = 5 := by
  rw [← intRegBits_eq_five_iff, intRegBits_intRegOfBits]

theorem base16OfBits_eq_bp_iff (b : BitVec 3) : base16OfBits b = .bp ↔ b = 6 := by
  rw [← base16Bits_eq_six_iff, base16Bits_base16OfBits]

/-! ## Values and displacements (R60, R62, R64) -/

theorem bytes2_append (b1 b0 : Byte) : bytes2 (b1 ++ b0) = [b0, b1] := by
  rw [bytes2, BitVec.extractLsb'_append_eq_right, BitVec.extractLsb'_append_eq_left]

theorem bytes4_append (b3 b2 b1 b0 : Byte) : bytes4 (b3 ++ b2 ++ b1 ++ b0) = [b0, b1, b2, b3] := by
  rw [bytes4, BitVec.extractLsb'_append_eq_right,
    BitVec.extractLsb'_append_eq_of_le (start := 8) (by decide), BitVec.extractLsb'_append_eq_right,
    BitVec.extractLsb'_append_eq_of_le (start := 16) (by decide),
    BitVec.extractLsb'_append_eq_of_le (start := 16 - 8) (by decide), BitVec.extractLsb'_append_eq_right,
    BitVec.extractLsb'_append_eq_of_le (start := 24) (by decide),
    BitVec.extractLsb'_append_eq_of_le (start := 24 - 8) (by decide), BitVec.extractLsb'_append_eq_left]

theorem take1_eq_ok_iff (bs : List Byte) (b : Byte) (r : List Byte) : take1 bs = .ok (b, r) ↔ b :: r = bs := by
  cases bs <;> simp [take1, eq_comm]

theorem take2_eq_ok_iff (bs : List Byte) (v : Word16) (r : List Byte) :
    take2 bs = .ok (v, r) ↔ bytes2 v ++ r = bs := by
  constructor
  · intro h
    match bs, h with
    | b0 :: b1 :: bs, h =>
      obtain ⟨rfl, rfl⟩ : b1 ++ b0 = v ∧ bs = r := by simpa [take2] using h
      rw [bytes2_append]
      rfl
  · rintro rfl
    exact take2_bytes2 v r

theorem take4_eq_ok_iff (bs : List Byte) (v : Dword) (r : List Byte) :
    take4 bs = .ok (v, r) ↔ bytes4 v ++ r = bs := by
  constructor
  · intro h
    match bs, h with
    | b0 :: b1 :: b2 :: b3 :: bs, h =>
      obtain ⟨rfl, rfl⟩ : b3 ++ b2 ++ b1 ++ b0 = v ∧ bs = r := by simpa [take4] using h
      rw [bytes4_append]
      rfl
  · rintro rfl
    exact take4_bytes4 v r

@[simp] theorem disp32Mod_ne_three (d : Disp32) : disp32Mod d ≠ 3 := by cases d <;> simp [disp32Mod]

@[simp] theorem disp16Mod_ne_three (d : Disp16) : disp16Mod d ≠ 3 := by cases d <;> simp [disp16Mod]

theorem disp32Mod_eq_zero_iff (d : Disp32) : disp32Mod d = 0 ↔ d = .none := by cases d <;> simp [disp32Mod]

theorem disp16Mod_eq_zero_iff (d : Disp16) : disp16Mod d = 0 ↔ d = .none := by cases d <;> simp [disp16Mod]

theorem mod_cases {mod : BitVec 2} (h : mod ≠ 3) : mod = 0 ∨ mod = 1 ∨ mod = 2 := by
  revert mod
  decide

theorem parseDisp32_eq_ok_iff {mod : BitVec 2} (hmod : mod ≠ 3) (bs : List Byte) (d : Disp32) (r : List Byte) :
    parseDisp32 mod bs = .ok (d, r) ↔ disp32Mod d = mod ∧ disp32Bytes d ++ r = bs := by
  rcases mod_cases hmod with rfl | rfl | rfl
  · cases d <;> simp [parseDisp32, disp32Mod, disp32Bytes, eq_comm]
  · cases d <;> simp [parseDisp32, disp32Mod, disp32Bytes, bind_eq_ok, take1_eq_ok_iff]
  · cases d <;> simp [parseDisp32, disp32Mod, disp32Bytes, bind_eq_ok, take4_eq_ok_iff]

theorem parseDisp16_eq_ok_iff {mod : BitVec 2} (hmod : mod ≠ 3) (bs : List Byte) (d : Disp16) (r : List Byte) :
    parseDisp16 mod bs = .ok (d, r) ↔ disp16Mod d = mod ∧ disp16Bytes d ++ r = bs := by
  rcases mod_cases hmod with rfl | rfl | rfl
  · cases d <;> simp [parseDisp16, disp16Mod, disp16Bytes, eq_comm]
  · cases d <;> simp [parseDisp16, disp16Mod, disp16Bytes, bind_eq_ok, take1_eq_ok_iff]
  · cases d <;> simp [parseDisp16, disp16Mod, disp16Bytes, bind_eq_ok, take2_eq_ok_iff]

theorem parseDisp32_disp32Bytes (d : Disp32) (r : List Byte) :
    parseDisp32 (disp32Mod d) (disp32Bytes d ++ r) = .ok (d, r) :=
  (parseDisp32_eq_ok_iff (disp32Mod_ne_three d) ..).mpr ⟨rfl, rfl⟩

theorem parseDisp16_disp16Bytes (d : Disp16) (r : List Byte) :
    parseDisp16 (disp16Mod d) (disp16Bytes d ++ r) = .ok (d, r) :=
  (parseDisp16_eq_ok_iff (disp16Mod_ne_three d) ..).mpr ⟨rfl, rfl⟩

/-! ## The operands that stand for an encoding (R60, R61, R64) -/

theorem Mem32.wf_reg_iff (base : IntReg) (disp : Disp32) :
    (Mem32.reg base disp).wf = true ↔ base ≠ .esp ∧ ¬ (base = .ebp ∧ disp = .none) := by
  simp [Mem32.wf, -not_and, not_and_or]

theorem Mem32.wf_sib_iff (base index : IntReg) (scale : BitVec 2) (disp : Disp32) :
    (Mem32.sib base index scale disp).wf = true ↔ ¬ (base = .ebp ∧ disp = .none) := by
  simp [Mem32.wf, -not_and, not_and_or]

theorem Mem16.wf_based_iff (base : Base16) (disp : Disp16) :
    (Mem16.based base disp).wf = true ↔ ¬ (base = .bp ∧ disp = .none) := by
  simp [Mem16.wf, -not_and, not_and_or]

/-! ## Memory operands: what is encoded is read back (R60, R61, R64) -/

theorem parseMem32_encodeMem32 {m : Mem32} (hwf : m.wf = true) (reg : BitVec 3) (r : List Byte) :
    ∃ mod rm bs, mod ≠ 3 ∧ encodeMem32 reg m ++ r = threeFields mod reg rm :: bs ∧
      parseMem32 mod rm bs = .ok (m, r) := by
  cases m with
  | reg base disp =>
    obtain ⟨hesp, hebp⟩ := (Mem32.wf_reg_iff ..).mp hwf
    refine ⟨disp32Mod disp, intRegBits base, disp32Bytes disp ++ r, disp32Mod_ne_three disp, rfl, ?_⟩
    rw [parseMem32, if_neg (by rwa [intRegBits_eq_four_iff]),
      if_neg (by rwa [intRegBits_eq_five_iff, disp32Mod_eq_zero_iff]), parseDisp32_disp32Bytes]
    simp
  | abs d =>
    refine ⟨0, 5, bytes4 d ++ r, by decide, rfl, ?_⟩
    simp [parseMem32, take4_bytes4]
  | sib base index scale disp =>
    have hebp := (Mem32.wf_sib_iff ..).mp hwf
    refine ⟨disp32Mod disp, 4, threeFields scale (intRegBits index) (intRegBits base) :: (disp32Bytes disp ++ r),
      disp32Mod_ne_three disp, rfl, ?_⟩
    simp only [parseMem32, if_pos, take1_cons, Machine.except_bind_ok]
    rw [if_neg (by rwa [fieldLow_threeFields, intRegBits_eq_five_iff, disp32Mod_eq_zero_iff]), parseDisp32_disp32Bytes]
    simp
  | sibAbs index scale d =>
    refine ⟨0, 4, _, by decide, rfl, ?_⟩
    simp [parseMem32, take4_bytes4]

theorem parseMem16_encodeMem16 {m : Mem16} (hwf : m.wf = true) (reg : BitVec 3) (r : List Byte) :
    ∃ mod rm bs, mod ≠ 3 ∧ encodeMem16 reg m ++ r = threeFields mod reg rm :: bs ∧
      parseMem16 mod rm bs = .ok (m, r) := by
  cases m with
  | based base disp =>
    have hbp := (Mem16.wf_based_iff ..).mp hwf
    refine ⟨disp16Mod disp, base16Bits base, disp16Bytes disp ++ r, disp16Mod_ne_three disp, rfl, ?_⟩
    rw [parseMem16, if_neg (by rwa [base16Bits_eq_six_iff, disp16Mod_eq_zero_iff]), parseDisp16_disp16Bytes]
    simp
  | abs d =>
    refine ⟨0, 6, bytes2 d ++ r, by decide, rfl, ?_⟩
    simp [parseMem16, take2_bytes2]

theorem parseMem_encodeMem {size : AddrSize} {m : MemRef} (hwf : m.wf size = true) (reg : BitVec 3)
    (r : List Byte) :
    ∃ modrm bs, encodeMem reg m ++ r = modrm :: bs ∧ fieldMid modrm = reg ∧ fieldTop modrm ≠ 3 ∧
      parseMem size (fieldTop modrm) (fieldLow modrm) bs = .ok (m, r) := by
  cases m with
  | m32 m =>
    obtain ⟨rfl, hwf⟩ : size = .a32 ∧ m.wf = true := by simpa [MemRef.wf] using hwf
    obtain ⟨mod, rm, bs, hmod, hbytes, hparse⟩ := parseMem32_encodeMem32 hwf reg r
    exact ⟨threeFields mod reg rm, bs, hbytes, by simp, by simpa, by simp [parseMem, hparse]⟩
  | m16 m =>
    obtain ⟨rfl, hwf⟩ : size = .a16 ∧ m.wf = true := by simpa [MemRef.wf] using hwf
    obtain ⟨mod, rm, bs, hmod, hbytes, hparse⟩ := parseMem16_encodeMem16 hwf reg r
    exact ⟨threeFields mod reg rm, bs, hbytes, by simp, by simpa, by simp [parseMem, hparse]⟩

theorem parseMemOnly_encodeMem {size : AddrSize} {m : MemRef} (hwf : m.wf size = true) (op2 : Byte)
    (reg : BitVec 3) (r : List Byte) :
    ∃ modrm bs, encodeMem reg m ++ r = modrm :: bs ∧ fieldMid modrm = reg ∧
      parseMemOnly size op2 modrm bs = .ok (m, r) := by
  obtain ⟨modrm, bs, hbytes, hreg, htop, hparse⟩ := parseMem_encodeMem hwf reg r
  exact ⟨modrm, bs, hbytes, hreg, by rw [parseMemOnly, if_neg htop, hparse]⟩

theorem parseRegOnly_threeFields (op2 : Byte) (reg : BitVec 3) (r : MmReg) :
    parseRegOnly op2 (threeFields 3 reg (mmRegBits r)) = .ok r := by
  simp [parseRegOnly]

theorem parseRM_encodeRM {ρ : Type} {ofBits : BitVec 3 → ρ} {bits : ρ → BitVec 3}
    (hbits : ∀ x, ofBits (bits x) = x) {size : AddrSize} {src : RM ρ} (hwf : src.wf size = true)
    (reg : BitVec 3) (r : List Byte) :
    ∃ modrm bs, encodeRM bits reg src ++ r = modrm :: bs ∧ fieldMid modrm = reg ∧
      parseRM ofBits size modrm bs = .ok (src, r) := by
  cases src with
  | reg x => exact ⟨threeFields 3 reg (bits x), r, rfl, by simp, by simp [parseRM, hbits]⟩
  | mem m =>
    obtain ⟨modrm, bs, hbytes, hreg, htop, hparse⟩ := parseMem_encodeMem hwf reg r
    exact ⟨modrm, bs, hbytes, hreg, by rw [parseRM, if_neg htop, hparse]; rfl⟩

/-! ## Memory operands: what is read was encoded so (R60, R61, R64) -/

theorem encodeMem32_of_parseMem32 {mod : BitVec 2} (hmod : mod ≠ 3) {rm : BitVec 3} {bs r : List Byte} {m : Mem32}
    (h : parseMem32 mod rm bs = .ok (m, r)) (reg : BitVec 3) :
    m.wf = true ∧ encodeMem32 reg m ++ r = threeFields mod reg rm :: bs := by
  unfold parseMem32 at h
  split at h
  next hrm =>
    subst hrm
    obtain ⟨⟨sib, bs'⟩, hsib, hrest⟩ := (bind_eq_ok ..).mp h
    obtain rfl := (take1_eq_ok_iff ..).mp hsib
    simp only at hrest
    split at hrest
    next habs =>
      obtain ⟨hlow, rfl⟩ := habs
      obtain ⟨⟨d, r'⟩, hd, ⟨⟩⟩ := (bind_eq_ok ..).mp hrest
      obtain rfl := (take4_eq_ok_iff ..).mp hd
      simp [Mem32.wf, encodeMem32, threeFields_eq_iff, hlow]
    next hbase =>
      obtain ⟨⟨d, r'⟩, hd, ⟨⟩⟩ := (bind_eq_ok ..).mp hrest
      obtain ⟨rfl, rfl⟩ := (parseDisp32_eq_ok_iff hmod ..).mp hd
      rw [disp32Mod_eq_zero_iff, ← intRegOfBits_eq_ebp_iff] at hbase
      exact ⟨(Mem32.wf_sib_iff ..).mpr hbase, by simp [encodeMem32]⟩
  next hrm =>
    split at h
    next habs =>
      obtain ⟨rfl, rfl⟩ := habs
      obtain ⟨⟨d, r'⟩, hd, ⟨⟩⟩ := (bind_eq_ok ..).mp h
      obtain rfl := (take4_eq_ok_iff ..).mp hd
      simp [Mem32.wf, encodeMem32]
    next hbase =>
      obtain ⟨⟨d, r'⟩, hd, ⟨⟩⟩ := (bind_eq_ok ..).mp h
      obtain ⟨rfl, rfl⟩ := (parseDisp32_eq_ok_iff hmod ..).mp hd
      rw [← intRegOfBits_eq_esp_iff] at hrm
      rw [disp32Mod_eq_zero_iff, ← intRegOfBits_eq_ebp_iff] at hbase
      exact ⟨(Mem32.wf_reg_iff ..).mpr ⟨hrm, hbase⟩, by simp [encodeMem32]⟩

theorem encodeMem16_of_parseMem16 {mod : BitVec 2} (hmod : mod ≠ 3) {rm : BitVec 3} {bs r : List Byte} {m : Mem16}
    (h : parseMem16 mod rm bs = .ok (m, r)) (reg : BitVec 3) :
    m.wf = true ∧ encodeMem16 reg m ++ r = threeFields mod reg rm :: bs := by
  unfold parseMem16 at h
  split at h
  next habs =>
    obtain ⟨rfl, rfl⟩ := habs
    obtain ⟨⟨d, r'⟩, hd, ⟨⟩⟩ := (bind_eq_ok ..).mp h
    obtain rfl := (take2_eq_ok_iff ..).mp hd
    simp [Mem16.wf, encodeMem16]
  next hbase =>
    obtain ⟨⟨d, r'⟩, hd, ⟨⟩⟩ := (bind_eq_ok ..).mp h
    obtain ⟨rfl, rfl⟩ := (parseDisp16_eq_ok_iff hmod ..).mp hd
    rw [disp16Mod_eq_zero_iff, ← base16OfBits_eq_bp_iff] at hbase
    exact ⟨(Mem16.wf_based_iff ..).mpr hbase, by simp [encodeMem16]⟩

theorem encodeMem_of_parseMem {size : AddrSize} {modrm : Byte} (htop : fieldTop modrm ≠ 3) {bs r : List Byte}
    {m : MemRef} (h : parseMem size (fieldTop modrm) (fieldLow modrm) bs = .ok (m, r)) :
    m.wf size = true ∧ encodeMem (fieldMid modrm) m ++ r = modrm :: bs := by
  cases size with
  | a32 =>
    obtain ⟨⟨m', r'⟩, hm, ⟨⟩⟩ := (bind_eq_ok ..).mp h
    simpa [MemRef.wf, encodeMem] using encodeMem32_of_parseMem32 htop hm (fieldMid modrm)
  | a16 =>
    obtain ⟨⟨m', r'⟩, hm, ⟨⟩⟩ := (bind_eq_ok ..).mp h
    simpa [MemRef.wf, encodeMem] using encodeMem16_of_parseMem16 htop hm (fieldMid modrm)

theorem encodeMem_of_parseMemOnly {size : AddrSize} {op2 modrm : Byte} {bs r : List Byte} {m : MemRef}
    (h : parseMemOnly size op2 modrm bs = .ok (m, r)) :
    m.wf size = true ∧ encodeMem (fieldMid modrm) m ++ r = modrm :: bs := by
  unfold parseMemOnly at h
  split at h
  next => cases h
  next htop => exact encodeMem_of_parseMem htop h

theorem threeFields_of_parseRegOnly {op2 modrm : Byte} {x : MmReg} (h : parseRegOnly op2 modrm = .ok x) :
    threeFields 3 (fieldMid modrm) (mmRegBits x) = modrm := by
  unfold parseRegOnly at h
  split at h
  next htop =>
    cases h
    simp [threeFields_eq_iff, htop]
  next => cases h

theorem encodeRM_of_parseRM {ρ : Type} {ofBits : BitVec 3 → ρ} {bits : ρ → BitVec 3}
    (hbits : ∀ b, bits (ofBits b) = b) {size : AddrSize} {modrm : Byte} {bs r : List Byte} {src : RM ρ}
    (h : parseRM ofBits size modrm bs = .ok (src, r)) :
    src.wf size = true ∧ encodeRM bits (fieldMid modrm) src ++ r = modrm :: bs := by
  unfold parseRM at h
  split at h
  next htop =>
    cases h
    simp [RM.wf, encodeRM, threeFields_eq_iff, htop, hbits]
  next htop =>
    obtain ⟨⟨m, r'⟩, hm, ⟨⟩⟩ := (bind_eq_ok ..).mp h
    exact encodeMem_of_parseMem htop hm

end Sys2Proof
end

section
/-! SUPPORT. What the decoder does with the bytes before `0Fh`, and what it accepts after them (30_encoding.md R53 to R73),
and the proofs that decoder and encoder are inverse. -/

namespace Sys2Proof

open Sys2Proof.Machine (bind_eq_ok)

theorem eq_ofNat_of_toNat_eq {w n : Nat} {b : BitVec w} (h : b.toNat = n) : b = BitVec.ofNat w n := by
  subst h
  simp

/-- Where an operand stands in its instruction (R54). -/
theorem operand_append {operand rest bs : List Byte} {modrm : Byte} (h : operand ++ rest = modrm :: bs) (p : Pfx)
    (op2 : Byte) : pfxBytes p ++ [0x0F, op2] ++ operand ++ rest = pfxBytes p ++ 0x0F :: op2 :: modrm :: bs := by
  rw [List.append_assoc, h, List.append_assoc]
  rfl

/-! ## The bytes before `0Fh` (R67, R68) -/

@[simp] theorem pfxByte_segByte (g : Seg) : pfxByte (segByte g) = .override g := by cases g <;> rfl

theorem decodeFrom_cons_of_ne_opcode {b : Byte} (hb : pfxByte b ≠ .opcode) (dflt : AddrSize) (p : Pfx)
    (bs : List Byte) : decodeFrom dflt p (b :: bs) = addPfx p (pfxByte b) b >>= fun p' => decodeFrom dflt p' bs := by
  rw [decodeFrom]
  cases hk : pfxByte b with
  | opcode => exact absurd hk hb
  | override _ | addrSize | refused => all_goals cases h : addPfx p _ b <;> simp [h]

theorem decodeFrom_segByte (dflt : AddrSize) (p : Pfx) (g : Seg) (bs : List Byte) :
    decodeFrom dflt p (segByte g :: bs) =
      addPfx p (.override g) (segByte g) >>= fun p' => decodeFrom dflt p' bs := by
  rw [decodeFrom_cons_of_ne_opcode (by simp), pfxByte_segByte]

theorem decodeFrom_0x67 (dflt : AddrSize) (p : Pfx) (bs : List Byte) :
    decodeFrom dflt p (0x67 :: bs) = addPfx p .addrSize 0x67 >>= fun p' => decodeFrom dflt p' bs :=
  decodeFrom_cons_of_ne_opcode (by decide) ..

/-- The decoder takes in all admitted bytes before `0Fh`. -/
theorem decode_pfxBytes_append (dflt : AddrSize) (p : Pfx) (bs : List Byte) :
    decode dflt (pfxBytes p ++ bs) = decodeFrom dflt p bs := by
  unfold decode
  cases p with
  | plain => rfl
  | seg g => exact decodeFrom_segByte ..
  | addr => exact decodeFrom_0x67 ..
  | segAddr g => exact (decodeFrom_segByte ..).trans (decodeFrom_0x67 dflt (.seg g) bs)
  | addrSeg g => exact (decodeFrom_0x67 ..).trans (decodeFrom_segByte dflt .addr g bs)

/-- After `0Fh`, `op2` and ModR/M the opcode map decides (R53, R56). -/
theorem decode_opcode (dflt : AddrSize) (p : Pfx) (op2 modrm : Byte) (bs : List Byte) :
    decode dflt (pfxBytes p ++ 0x0F :: op2 :: modrm :: bs) = decodeOpcode (pfxAddrSize dflt p) p op2 modrm bs :=
  decode_pfxBytes_append ..

theorem segByte_of_pfxByte {b : Byte} {g : Seg} (h : pfxByte b = .override g) : segByte g = b := by
  unfold pfxByte at h
  split at h <;> cases h
  all_goals
    rename_i hb
    obtain rfl := eq_ofNat_of_toNat_eq hb
    rfl

theorem eq_of_pfxByte_addrSize {b : Byte} (h : pfxByte b = .addrSize) : b = 0x67 := by
  unfold pfxByte at h
  split at h <;> cases h
  next hb => exact eq_ofNat_of_toNat_eq hb

/-- An override or 67h that is taken in stands after those taken in before. -/
theorem pfxBytes_of_addPfx {p p' : Pfx} {b : Byte} (h : addPfx p (pfxByte b) b = .ok p') :
    pfxBytes p' = pfxBytes p ++ [b] := by
  cases hb : pfxByte b with
  | override g =>
    obtain rfl := segByte_of_pfxByte hb
    rw [hb] at h
    cases p <;> cases h <;> rfl
  | addrSize =>
    obtain rfl := eq_of_pfxByte_addrSize hb
    rw [hb] at h
    cases p <;> cases h <;> rfl
  | refused | opcode =>
    all_goals
      rw [hb] at h
      cases p <;> cases h

/-- What the decoder accepts is admitted bytes, `0Fh`, `op2` and ModR/M, and what the opcode map accepts after them. -/
theorem decodeFrom_eq_ok {dflt : AddrSize} {p : Pfx} {bs : List Byte} {x : Instr × List Byte}
    (h : decodeFrom dflt p bs = .ok x) :
    ∃ q op2 modrm tail, pfxBytes p ++ bs = pfxBytes q ++ 0x0F :: op2 :: modrm :: tail ∧
      decodeOpcode (pfxAddrSize dflt q) q op2 modrm tail = .ok x := by
  induction bs generalizing p with
  | nil => cases h
  | cons b bs ih =>
    unfold decodeFrom at h
    split at h
    next =>
      split at h
      next hb =>
        subst hb
        match bs, h with
        | op2 :: modrm :: tail, h => exact ⟨p, op2, modrm, tail, rfl, h⟩
      next => cases h
    next =>
      split at h
      next p' hadd =>
        obtain ⟨q, op2, modrm, tail, hbytes, hop⟩ := ih h
        refine ⟨q, op2, modrm, tail, ?_, hop⟩
        rw [← hbytes, pfxBytes_of_addPfx hadd, List.append_assoc]
        rfl
      next => cases h

/-! ## The opcode map (R56, R69, R72) -/

/-- What the opcode map accepts (R56): `OpcodeAccepts size p op2 modrm bs i r` says that `op2`, ModR/M and the first of
the bytes `bs` are the instruction `i`, which the bytes of `p` come before, and that `r` is what is left of `bs`. -/
inductive OpcodeAccepts (size : AddrSize) (p : Pfx) : Byte → Byte → List Byte → Instr → List Byte → Prop where
  | threeDNow {modrm op3 : Byte} {bs r : List Byte} {f : Pfx → MmReg → RM MmReg → Instr} {d : MmReg} {src : RM MmReg}
      (hf : threeDNowForm op3 = some f) (hd : fieldMid modrm = mmRegBits d)
      (hsrc : parseRM mmRegOfBits size modrm bs = .ok (src, op3 :: r)) :
      OpcodeAccepts size p 0x0F modrm bs (f p d src) r
  | prefetch {modrm : Byte} {bs r : List Byte} {f : Pfx → MemRef → Instr} {m : MemRef}
      (hf : prefetchForm (fieldMid modrm) = some f) (hm : parseMemOnly size 0x18 modrm bs = .ok (m, r)) :
      OpcodeAccepts size p 0x18 modrm bs (f p m) r
  | sfence {r : List Byte} : OpcodeAccepts size p 0xAE 0xF8 r (.sfence p) r
  | pshufw {modrm imm : Byte} {bs r : List Byte} {d : MmReg} {src : RM MmReg} (hd : fieldMid modrm = mmRegBits d)
      (hsrc : parseRM mmRegOfBits size modrm bs = .ok (src, imm :: r)) :
      OpcodeAccepts size p 0x70 modrm bs (.pshufw p d src imm) r
  | pinsrw {modrm imm : Byte} {bs r : List Byte} {d : MmReg} {src : RM IntReg} (hd : fieldMid modrm = mmRegBits d)
      (hsrc : parseRM intRegOfBits size modrm bs = .ok (src, imm :: r)) :
      OpcodeAccepts size p 0xC4 modrm bs (.pinsrw p d src imm) r
  | pextrw {modrm imm : Byte} {r : List Byte} {d : IntReg} {s : MmReg}
      (hmodrm : threeFields 3 (intRegBits d) (mmRegBits s) = modrm) :
      OpcodeAccepts size p 0xC5 modrm (imm :: r) (.pextrw p d s imm) r
  | pmovmskb {modrm : Byte} {r : List Byte} {d : IntReg} {s : MmReg}
      (hmodrm : threeFields 3 (intRegBits d) (mmRegBits s) = modrm) :
      OpcodeAccepts size p 0xD7 modrm r (.pmovmskb p d s) r
  | movntq {modrm : Byte} {bs r : List Byte} {m : MemRef} {s : MmReg} (hs : fieldMid modrm = mmRegBits s)
      (hm : parseMemOnly size 0xE7 modrm bs = .ok (m, r)) : OpcodeAccepts size p 0xE7 modrm bs (.movntq p m s) r
  | maskmovq {modrm : Byte} {r : List Byte} {d m : MmReg}
      (hmodrm : threeFields 3 (mmRegBits d) (mmRegBits m) = modrm) :
      OpcodeAccepts size p 0xF7 modrm r (.maskmovq p d m) r
  | rm {op2 modrm : Byte} {bs r : List Byte} {f : Pfx → MmReg → RM MmReg → Instr} {d : MmReg} {src : RM MmReg}
      (hf : rmForm op2 = some f) (hd : fieldMid modrm = mmRegBits d)
      (hsrc : parseRM mmRegOfBits size modrm bs = .ok (src, r)) : OpcodeAccepts size p op2 modrm bs (f p d src) r

section

variable {size : AddrSize} {p : Pfx} {op2 modrm : Byte} {bs r : List Byte} {i : Instr}

theorem decodeOpcode_of_rmForm {f : Pfx → MmReg → RM MmReg → Instr} (hf : rmForm op2 = some f) {src : RM MmReg}
    (hsrc : parseRM mmRegOfBits size modrm bs = .ok (src, r)) :
    decodeOpcode size p op2 modrm bs = .ok (f p (mmRegOfBits (fieldMid modrm)) src, r) := by
  unfold rmForm at hf
  split at hf <;> cases hf
  all_goals
    rename_i hop2
    simp [decodeOpcode, rmForm, hop2, hsrc]

theorem OpcodeAccepts.decodeOpcode_eq (h : OpcodeAccepts size p op2 modrm bs i r) :
    decodeOpcode size p op2 modrm bs = .ok (i, r) := by
  cases h with
  | threeDNow hf hd hsrc => simp [decodeOpcode, hsrc, hf, hd]
  | prefetch hf hm => simp only [decodeOpcode, BitVec.reduceToNat, hf, hm, Machine.except_bind_ok]
  | sfence => rfl
  | pshufw hd hsrc => simp [decodeOpcode, hsrc, hd]
  | pinsrw hd hsrc => simp [decodeOpcode, hsrc, hd]
  | pextrw hmodrm =>
    subst hmodrm
    simp only [decodeOpcode, BitVec.reduceToNat, parseRegOnly_threeFields, take1_cons, Machine.except_bind_ok,
      fieldMid_threeFields, intRegOfBits_intRegBits]
  | pmovmskb hmodrm =>
    subst hmodrm
    simp only [decodeOpcode, BitVec.reduceToNat, parseRegOnly_threeFields, Machine.except_bind_ok,
      fieldMid_threeFields, intRegOfBits_intRegBits]
  | movntq hs hm =>
    simp only [decodeOpcode, BitVec.reduceToNat, hm, hs, Machine.except_bind_ok, mmRegOfBits_mmRegBits]
  | maskmovq hmodrm =>
    subst hmodrm
    simp only [decodeOpcode, BitVec.reduceToNat, parseRegOnly_threeFields, Machine.except_bind_ok,
      fieldMid_threeFields, mmRegOfBits_mmRegBits]
  | rm hf hd hsrc => rw [decodeOpcode_of_rmForm hf hsrc, hd, mmRegOfBits_mmRegBits]

theorem opcodeAccepts_of_decodeOpcode (h : decodeOpcode size p op2 modrm bs = .ok (i, r)) :
    OpcodeAccepts size p op2 modrm bs i r := by
  have hmmReg : fieldMid modrm = mmRegBits (mmRegOfBits (fieldMid modrm)) := (mmRegBits_mmRegOfBits _).symm
  have hintReg : fieldMid modrm = intRegBits (intRegOfBits (fieldMid modrm)) := (intRegBits_intRegOfBits _).symm
  unfold decodeOpcode at h
  simp only at h
  split at h
  next hop2 =>
    obtain rfl : op2 = 0x0F := eq_ofNat_of_toNat_eq hop2
    obtain ⟨⟨src, r'⟩, hsrc, hlast⟩ := (bind_eq_ok ..).mp h
    obtain ⟨⟨op3, r''⟩, hop3, hform⟩ := (bind_eq_ok ..).mp hlast
    obtain rfl := (take1_eq_ok_iff ..).mp hop3
    simp only at hform
    split at hform <;> cases hform
    next f hf => exact .threeDNow hf hmmReg hsrc
  next hop2 =>
    obtain rfl : op2 = 0x18 := eq_ofNat_of_toNat_eq hop2
    split at h
    next f hf =>
      obtain ⟨⟨m, r'⟩, hm, ⟨⟩⟩ := (bind_eq_ok ..).mp h
      exact .prefetch hf hm
    next => cases h
  next hop2 =>
    obtain rfl : op2 = 0xAE := eq_ofNat_of_toNat_eq hop2
    split at h <;> cases h
    next hmodrm => exact hmodrm ▸ .sfence
  next hop2 =>
    obtain rfl : op2 = 0x70 := eq_ofNat_of_toNat_eq hop2
    obtain ⟨⟨src, r'⟩, hsrc, hlast⟩ := (bind_eq_ok ..).mp h
    obtain ⟨⟨imm, r''⟩, himm, ⟨⟩⟩ := (bind_eq_ok ..).mp hlast
    obtain rfl := (take1_eq_ok_iff ..).mp himm
    exact .pshufw hmmReg hsrc
  next hop2 =>
    obtain rfl : op2 = 0xC4 := eq_ofNat_of_toNat_eq hop2
    obtain ⟨⟨src, r'⟩, hsrc, hlast⟩ := (bind_eq_ok ..).mp h
    obtain ⟨⟨imm, r''⟩, himm, ⟨⟩⟩ := (bind_eq_ok ..).mp hlast
    obtain rfl := (take1_eq_ok_iff ..).mp himm
    exact .pinsrw hmmReg hsrc
  next hop2 =>
    obtain rfl : op2 = 0xC5 := eq_ofNat_of_toNat_eq hop2
    obtain ⟨s, hs, hlast⟩ := (bind_eq_ok ..).mp h
    obtain ⟨⟨imm, r'⟩, himm, ⟨⟩⟩ := (bind_eq_ok ..).mp hlast
    obtain rfl := (take1_eq_ok_iff ..).mp himm
    exact .pextrw (hintReg ▸ threeFields_of_parseRegOnly hs)
  next hop2 =>
    obtain rfl : op2 = 0xD7 := eq_ofNat_of_toNat_eq hop2
    obtain ⟨s, hs, ⟨⟩⟩ := (bind_eq_ok ..).mp h
    exact .pmovmskb (hintReg ▸ threeFields_of_parseRegOnly hs)
  next hop2 =>
    obtain rfl : op2 = 0xE7 := eq_ofNat_of_toNat_eq hop2
    obtain ⟨⟨m, r'⟩, hm, ⟨⟩⟩ := (bind_eq_ok ..).mp h
    exact .movntq hmmReg hm
  next hop2 =>
    obtain rfl : op2 = 0xF7 := eq_ofNat_of_toNat_eq hop2
    obtain ⟨s, hs, ⟨⟩⟩ := (bind_eq_ok ..).mp h
    exact .maskmovq (hmmReg ▸ threeFields_of_parseRegOnly hs)
  next =>
    split at h
    next f hf =>
      obtain ⟨⟨src, r'⟩, hsrc, ⟨⟩⟩ := (bind_eq_ok ..).mp h
      exact .rm hf hmmReg hsrc
    next => cases h

end

/-- The encoding and the operand check of the two-operand `RM` instructions (R56). -/
theorem encode_of_rmForm {op2 : Byte} {f : Pfx → MmReg → RM MmReg → Instr} (hf : rmForm op2 = some f)
    (dflt : AddrSize) (p : Pfx) (d : MmReg) (src : RM MmReg) :
    encode (f p d src) = encodeRMForm p op2 d src ∧ (f p d src).wf dflt = src.wf (pfxAddrSize dflt p) := by
  unfold rmForm at hf
  split at hf <;> cases hf
  all_goals
    rename_i hop2
    obtain rfl := eq_ofNat_of_toNat_eq hop2
    exact ⟨rfl, rfl⟩

theorem encode_of_threeDNowForm {op3 : Byte} {f : Pfx → MmReg → RM MmReg → Instr} (hf : threeDNowForm op3 = some f)
    (dflt : AddrSize) (p : Pfx) (d : MmReg) (src : RM MmReg) :
    encode (f p d src) = encode3DN p op3 d src ∧ (f p d src).wf dflt = src.wf (pfxAddrSize dflt p) := by
  unfold threeDNowForm at hf
  split at hf <;> cases hf
  all_goals
    rename_i hop3
    obtain rfl := eq_ofNat_of_toNat_eq hop3
    exact ⟨rfl, rfl⟩

theorem encode_of_prefetchForm {ext : BitVec 3} {f : Pfx → MemRef → Instr} (hf : prefetchForm ext = some f)
    (dflt : AddrSize) (p : Pfx) (m : MemRef) :
    encode (f p m) = encodePrefetch p ext m ∧ (f p m).wf dflt = m.wf (pfxAddrSize dflt p) := by
  unfold prefetchForm at hf
  split at hf <;> cases hf
  all_goals
    rename_i hext
    obtain rfl := eq_ofNat_of_toNat_eq hext
    exact ⟨rfl, rfl⟩

/-! ## What is encoded is decoded -/

theorem decode_of_opcodeAccepts {dflt : AddrSize} {p : Pfx} {op2 modrm : Byte} {bs r : List Byte} {i : Instr}
    (h : OpcodeAccepts (pfxAddrSize dflt p) p op2 modrm bs i r) :
    decode dflt (pfxBytes p ++ 0x0F :: op2 :: modrm :: bs) = .ok (i, r) :=
  (decode_opcode ..).trans h.decodeOpcode_eq

theorem decode_operand_of_opcodeAccepts {dflt : AddrSize} {p : Pfx} {op2 modrm : Byte} {operand bs r rest : List Byte}
    {i : Instr} (hbytes : operand ++ rest = modrm :: bs)
    (h : OpcodeAccepts (pfxAddrSize dflt p) p op2 modrm bs i r) :
    decode dflt (pfxBytes p ++ [0x0F, op2] ++ operand ++ rest) = .ok (i, r) := by
  rw [operand_append hbytes, decode_of_opcodeAccepts h]

section

variable {dflt : AddrSize} {p : Pfx}

theorem decode_encodeRMForm {op2 : Byte} {f : Pfx → MmReg → RM MmReg → Instr} (hf : rmForm op2 = some f)
    {src : RM MmReg} (hwf : src.wf (pfxAddrSize dflt p) = true) (d : MmReg) (rest : List Byte) :
    decode dflt (encodeRMForm p op2 d src ++ rest) = .ok (f p d src, rest) := by
  obtain ⟨modrm, bs, hbytes, hreg, hparse⟩ := parseRM_encodeRM mmRegOfBits_mmRegBits hwf (mmRegBits d) rest
  exact decode_operand_of_opcodeAccepts hbytes (.rm hf hreg hparse)

theorem decode_encode3DN {op3 : Byte} {f : Pfx → MmReg → RM MmReg → Instr} (hf : threeDNowForm op3 = some f)
    {src : RM MmReg} (hwf : src.wf (pfxAddrSize dflt p) = true) (d : MmReg) (rest : List Byte) :
    decode dflt (encode3DN p op3 d src ++ rest) = .ok (f p d src, rest) := by
  obtain ⟨modrm, bs, hbytes, hreg, hparse⟩ := parseRM_encodeRM mmRegOfBits_mmRegBits hwf (mmRegBits d) (op3 :: rest)
  rw [encode3DN, List.append_assoc]
  exact decode_operand_of_opcodeAccepts hbytes (.threeDNow hf hreg hparse)

theorem decode_encodePrefetch {ext : BitVec 3} {f : Pfx → MemRef → Instr} (hf : prefetchForm ext = some f)
    {m : MemRef} (hwf : m.wf (pfxAddrSize dflt p) = true) (rest : List Byte) :
    decode dflt (encodePrefetch p ext m ++ rest) = .ok (f p m, rest) := by
  obtain ⟨modrm, bs, hbytes, rfl, hparse⟩ := parseMemOnly_encodeMem hwf 0x18 ext rest
  exact decode_operand_of_opcodeAccepts hbytes (.prefetch hf hparse)

theorem decode_encode_movntq {dst : MemRef} (hwf : dst.wf (pfxAddrSize dflt p) = true) (r : MmReg)
    (rest : List Byte) : decode dflt (encode (.movntq p dst r) ++ rest) = .ok (.movntq p dst r, rest) := by
  obtain ⟨modrm, bs, hbytes, hreg, hparse⟩ := parseMemOnly_encodeMem hwf 0xE7 (mmRegBits r) rest
  exact decode_operand_of_opcodeAccepts hbytes (.movntq hreg hparse)

theorem decode_encode_pshufw {src : RM MmReg} (hwf : src.wf (pfxAddrSize dflt p) = true) (d : MmReg) (imm : Byte)
    (rest : List Byte) : decode dflt (encode (.pshufw p d src imm) ++ rest) = .ok (.pshufw p d src imm, rest) := by
  obtain ⟨modrm, bs, hbytes, hreg, hparse⟩ := parseRM_encodeRM mmRegOfBits_mmRegBits hwf (mmRegBits d) (imm :: rest)
  rw [encode, List.append_assoc]
  exact decode_operand_of_opcodeAccepts hbytes (.pshufw hreg hparse)

theorem decode_encode_pinsrw {src : RM IntReg} (hwf : src.wf (pfxAddrSize dflt p) = true) (d : MmReg) (imm : Byte)
    (rest : List Byte) : decode dflt (encode (.pinsrw p d src imm) ++ rest) = .ok (.pinsrw p d src imm, rest) := by
  obtain ⟨modrm, bs, hbytes, hreg, hparse⟩ :=
    parseRM_encodeRM intRegOfBits_intRegBits hwf (mmRegBits d) (imm :: rest)
  rw [encode, List.append_assoc]
  exact decode_operand_of_opcodeAccepts hbytes (.pinsrw hreg hparse)

theorem decode_encode_pextrw (d : IntReg) (s : MmReg) (imm : Byte) (rest : List Byte) :
    decode dflt (encode (.pextrw p d s imm) ++ rest) = .ok (.pextrw p d s imm, rest) := by
  rw [encode, List.append_assoc]
  exact decode_of_opcodeAccepts (.pextrw rfl)

theorem decode_encode_pmovmskb (d : IntReg) (s : MmReg) (rest : List Byte) :
    decode dflt (encode (.pmovmskb p d s) ++ rest) = .ok (.pmovmskb p d s, rest) := by
  rw [encode, List.append_assoc]
  exact decode_of_opcodeAccepts (.pmovmskb rfl)

theorem decode_encode_maskmovq (d m : MmReg) (rest : List Byte) :
    decode dflt (encode (.maskmovq p d m) ++ rest) = .ok (.maskmovq p d m, rest) :=
  decode_operand_of_opcodeAccepts (operand := [_]) rfl (.maskmovq rfl)

theorem decode_encode_sfence (rest : List Byte) :
    decode dflt (encode (.sfence p) ++ rest) = .ok (.sfence p, rest) := by
  rw [encode, List.append_assoc]
  exact decode_of_opcodeAccepts .sfence

end

/-- Settles O1: each format's operand is read back from the bytes after `op2`, and the opcode map names the
instruction again. -/
theorem decodeOfEncodeIsTheInstruction : Obligations.DecodeOfEncodeIsTheInstruction := by
  intro dflt i rest hwf
  match i with
  | .pf2iw .. | .pfnacc .. | .pfpnacc .. | .pi2fw .. | .pswapd .. => exact decode_encode3DN rfl hwf ..
  | .pavgb .. | .pavgw .. | .pmaxsw .. | .pmaxub .. | .pminsw .. | .pminub .. | .pmulhuw .. | .psadbw .. =>
    exact decode_encodeRMForm rfl hwf ..
  | .prefetchnta .. | .prefetcht0 .. | .prefetcht1 .. | .prefetcht2 .. => exact decode_encodePrefetch rfl hwf ..
  | .movntq .. => exact decode_encode_movntq hwf ..
  | .pshufw .. => exact decode_encode_pshufw hwf ..
  | .pinsrw .. => exact decode_encode_pinsrw hwf ..
  | .pextrw .. => exact decode_encode_pextrw ..
  | .pmovmskb .. => exact decode_encode_pmovmskb ..
  | .maskmovq .. => exact decode_encode_maskmovq ..
  | .sfence .. => exact decode_encode_sfence ..

/-! ## What is decoded was encoded so -/

theorem encode_of_opcodeAccepts {dflt : AddrSize} {p : Pfx} {op2 modrm : Byte} {bs rest : List Byte} {i : Instr}
    (h : OpcodeAccepts (pfxAddrSize dflt p) p op2 modrm bs i rest) :
    i.wf dflt = true ∧ encode i ++ rest = pfxBytes p ++ 0x0F :: op2 :: modrm :: bs := by
  cases h with
  | @threeDNow _ op3 _ _ f d src hf hd hsrc =>
    obtain ⟨henc, hiwf⟩ := encode_of_threeDNowForm hf dflt p d src
    obtain ⟨hwf, hbytes⟩ := encodeRM_of_parseRM mmRegBits_mmRegOfBits hsrc
    refine ⟨hiwf.trans hwf, ?_⟩
    rw [henc, encode3DN, List.append_assoc]
    exact operand_append (hd ▸ hbytes) ..
  | @prefetch _ _ _ f m hf hm =>
    obtain ⟨henc, hiwf⟩ := encode_of_prefetchForm hf dflt p m
    obtain ⟨hwf, hbytes⟩ := encodeMem_of_parseMemOnly hm
    exact ⟨hiwf.trans hwf, henc ▸ operand_append hbytes ..⟩
  | sfence => exact ⟨rfl, List.append_assoc ..⟩
  | pshufw hd hsrc =>
    obtain ⟨hwf, hbytes⟩ := encodeRM_of_parseRM mmRegBits_mmRegOfBits hsrc
    exact ⟨hwf, (List.append_assoc ..).trans (operand_append (hd ▸ hbytes) ..)⟩
  | pinsrw hd hsrc =>
    obtain ⟨hwf, hbytes⟩ := encodeRM_of_parseRM intRegBits_intRegOfBits hsrc
    exact ⟨hwf, (List.append_assoc ..).trans (operand_append (hd ▸ hbytes) ..)⟩
  | pextrw hmodrm => exact ⟨rfl, hmodrm ▸ List.append_assoc ..⟩
  | pmovmskb hmodrm => exact ⟨rfl, hmodrm ▸ List.append_assoc ..⟩
  | movntq hs hm =>
    obtain ⟨hwf, hbytes⟩ := encodeMem_of_parseMemOnly hm
    exact ⟨hwf, operand_append (hs ▸ hbytes) ..⟩
  | maskmovq hmodrm => exact ⟨rfl, operand_append (hmodrm ▸ rfl) ..⟩
  | @rm _ _ _ _ f d src hf hd hsrc =>
    obtain ⟨henc, hiwf⟩ := encode_of_rmForm hf dflt p d src
    obtain ⟨hwf, hbytes⟩ := encodeRM_of_parseRM mmRegBits_mmRegOfBits hsrc
    exact ⟨hiwf.trans hwf, henc ▸ operand_append (hd ▸ hbytes) ..⟩

/-- Settles O2: the bytes before `0Fh` that the decoder takes in are the instruction's, and what the opcode map accepts
is what that instruction's format writes. -/
theorem encodeOfDecodeIsTheBytes : Obligations.EncodeOfDecodeIsTheBytes := by
  intro dflt bs rest i h
  obtain ⟨p, op2, modrm, tail, hbytes, hop⟩ := decodeFrom_eq_ok h
  rw [show bs = pfxBytes p ++ 0x0F :: op2 :: modrm :: tail from hbytes]
  exact encode_of_opcodeAccepts (opcodeAccepts_of_decodeOpcode hop)

end Sys2Proof
end

section
/-! SUPPORT. How long a decoded instruction is (30_encoding.md R55), and what the decoder refuses (R68, R71 to R73). -/

namespace Sys2Proof

open Sys2Proof.Machine (length_encode segOverride)

/-! ## Length (R55) -/

theorem memLength_le (m : MemRef) : memLength m ≤ 5 := by
  rcases m with (⟨_, d⟩ | _ | ⟨_, _, _, d⟩ | _) | (⟨_, d⟩ | _)
  case m32.reg | m32.sib => all_goals cases d <;> simp [memLength, disp32Length]
  case m16.based => cases d <;> simp [memLength, disp16Length]
  all_goals simp [memLength]

theorem rmLength_le {ρ : Type} (src : RM ρ) : rmLength src ≤ 5 := by
  cases src with
  | reg _ => exact Nat.zero_le 5
  | mem m => exact memLength_le m

theorem lengthOf_bounds (p : Pfx) {operand last : Nat} (hoperand : operand ≤ 5) (hlast : last ≤ 1) :
    3 ≤ lengthOf p operand last ∧ lengthOf p operand last ≤ 11 := by
  have hp : pfxLength p ≤ 2 := by cases p <;> simp [pfxLength]
  simp only [lengthOf]
  omega

theorem instrLength_bounds : ∀ i : Instr, 3 ≤ instrLength i ∧ instrLength i ≤ 11
  | .pf2iw .. | .pfnacc .. | .pfpnacc .. | .pi2fw .. | .pswapd .. | .pinsrw .. | .pshufw .. =>
    lengthOf_bounds _ (rmLength_le _) (by decide)
  | .pavgb .. | .pavgw .. | .pmaxsw .. | .pmaxub .. | .pminsw .. | .pminub .. | .pmulhuw .. | .psadbw .. =>
    lengthOf_bounds _ (rmLength_le _) (by decide)
  | .movntq .. | .prefetchnta .. | .prefetcht0 .. | .prefetcht1 .. | .prefetcht2 .. =>
    lengthOf_bounds _ (memLength_le _) (by decide)
  | .maskmovq .. | .pextrw .. | .pmovmskb .. | .sfence .. => lengthOf_bounds _ (by decide) (by decide)

/-- Settles O3: the bytes taken are those of the encoder, which the length formula counts. -/
theorem decodedLengthIsThreeToEleven : Obligations.DecodedLengthIsThreeToEleven := by
  intro dflt bs rest i h
  obtain ⟨_, hbytes⟩ := encodeOfDecodeIsTheBytes dflt bs rest i h
  refine ⟨?_, instrLength_bounds i⟩
  rw [← hbytes, List.length_append, length_encode]

/-! ## Refused bytes before `0Fh` (R68) -/

theorem pfxByte_eq_refused {b : Byte} (h : b ∈ ([0x66, 0xF0, 0xF2, 0xF3] : List Byte)) : pfxByte b = .refused := by
  revert b
  decide

theorem exists_segByte_eq {b : Byte} (h : b ∈ ([0x26, 0x2E, 0x36, 0x3E, 0x64, 0x65] : List Byte)) :
    ∃ g, segByte g = b := by
  simp only [List.mem_cons, List.not_mem_nil, or_false] at h
  rcases h with rfl | rfl | rfl | rfl | rfl | rfl
  exacts [⟨.es, rfl⟩, ⟨.cs, rfl⟩, ⟨.ss, rfl⟩, ⟨.ds, rfl⟩, ⟨.fs, rfl⟩, ⟨.gs, rfl⟩]

theorem segByte_ne_0x67 (g : Seg) : segByte g ≠ 0x67 := by cases g <;> decide

theorem addPfx_refused (p : Pfx) (b : Byte) : addPfx p .refused b = .error (.refusedPfx b) := by cases p <;> rfl

theorem addPfx_second_override {p : Pfx} (h : (segOverride p).isSome = true) (g : Seg) (b : Byte) :
    addPfx p (.override g) b = .error (.repeatedPfx b) := by
  cases p with
  | plain | addr => cases h
  | seg _ | segAddr _ | addrSeg _ => all_goals rfl

theorem addPfx_second_0x67 {p : Pfx} (h : (0x67 : Byte) ∈ pfxBytes p) (b : Byte) :
    addPfx p .addrSize b = .error (.repeatedPfx b) := by
  cases p with
  | plain => cases h
  | seg g => exact absurd (List.mem_singleton.mp h).symm (segByte_ne_0x67 g)
  | addr | segAddr _ | addrSeg _ => all_goals rfl

/-- Settles O4: after the admitted bytes `addPfx` refuses each of these. -/
theorem refusedPrefixesAreRefused : Obligations.RefusedPrefixesAreRefused := by
  intro dflt p b rest
  refine ⟨fun hb => ?_, fun hp hb => ?_, fun hp => ?_⟩
  · have hk := pfxByte_eq_refused hb
    rw [decode_pfxBytes_append, decodeFrom_cons_of_ne_opcode (by simp [hk]), hk, addPfx_refused]
    rfl
  · obtain ⟨g, rfl⟩ := exists_segByte_eq hb
    rw [decode_pfxBytes_append, decodeFrom_segByte, addPfx_second_override hp]
    rfl
  · rw [decode_pfxBytes_append, decodeFrom_0x67, addPfx_second_0x67 hp]
    rfl

/-! ## Refused `mod` values and group members (R71 to R73) -/

theorem parseRegOnly_of_ne {modrm : Byte} (h : fieldTop modrm ≠ 3) (op2 : Byte) :
    parseRegOnly op2 modrm = .error (.needsRegister op2) := if_neg h

theorem parseMemOnly_of_eq {modrm : Byte} (h : fieldTop modrm = 3) (size : AddrSize) (op2 : Byte) (bs : List Byte) :
    parseMemOnly size op2 modrm bs = .error (.needsMemory op2) := if_pos h

theorem prefetchForm_eq_none_iff (reg : BitVec 3) : prefetchForm reg = none ↔ 4 ≤ reg.toNat := by
  rw [← Option.isNone_iff_eq_none]
  revert reg
  decide

/-- Settles O5: the opcode map asks `mod` and the group member before it reads any byte after ModR/M. -/
theorem forbiddenModAndGroupMembersAreRefused : Obligations.ForbiddenModAndGroupMembersAreRefused := by
  intro dflt p modrm rest
  refine ⟨fun op2 hop2 htop => ?_, fun htop => ?_, fun htop hreg => ?_, fun hreg => ?_, fun hmodrm => ?_⟩
  · rw [decode_opcode]
    simp only [List.mem_cons, List.not_mem_nil, or_false] at hop2
    rcases hop2 with rfl | rfl | rfl
    all_goals simp only [decodeOpcode, BitVec.reduceToNat, parseRegOnly_of_ne htop, Machine.except_bind_error]
  · rw [decode_opcode]
    simp only [decodeOpcode, BitVec.reduceToNat, parseMemOnly_of_eq htop, Machine.except_bind_error]
  · obtain ⟨f, hf⟩ : ∃ f, prefetchForm (fieldMid modrm) = some f :=
      Option.ne_none_iff_exists'.mp fun h => absurd ((prefetchForm_eq_none_iff _).mp h) (by omega)
    rw [decode_opcode]
    simp only [decodeOpcode, BitVec.reduceToNat, hf, parseMemOnly_of_eq htop, Machine.except_bind_error]
  · rw [decode_opcode]
    simp only [decodeOpcode, BitVec.reduceToNat, (prefetchForm_eq_none_iff _).mpr hreg]
  · rw [decode_opcode]
    simp only [decodeOpcode, BitVec.reduceToNat, if_neg hmodrm]

/-- Settles O6: each word is evaluated. -/
theorem sampleEncodingsDecode : Obligations.SampleEncodingsDecode := by
  unfold Obligations.SampleEncodingsDecode
  decide

end Sys2Proof
end

section
/-! SUPPORT. How the bytes at `pc` end an agent's run (30_encoding.md R74, 10_state.md R18, 70_reset_and_hazards.md
R158). -/

namespace Sys2Proof.Machine

open Sys2Proof

/-! ## Instructions that are refused before they execute -/

section

variable {s : State}

theorem runInstruction_of_undefined {e : DecodeError} (hd : decode (defaultAddrSize s.cpu) s.fetch.1 = .error e)
    (he : e ≠ .truncated) : s.runInstruction = .refused (.undefinedEncoding e) := by
  unfold State.runInstruction
  rw [hd]
  cases e with
  | truncated => exact absurd rfl he
  | _ => rfl

theorem runInstruction_of_truncated {r : Refusal}
    (hd : decode (defaultAddrSize s.cpu) s.fetch.1 = .error .truncated) (hr : s.fetch.2 = some r) :
    s.runInstruction = .refused r := by
  simp [State.runInstruction, hd, hr]

theorem runInstruction_of_pcOverflow {i : Instr} {rest : List Byte}
    (hd : decode (defaultAddrSize s.cpu) s.fetch.1 = .ok (i, rest))
    (hp : lastCodeOffset s.cpu < s.cpu.pc.toNat + instrLength i) : s.runInstruction = .refused .pcOverflow := by
  simp [State.runInstruction, hd, hp]

/-! ## Where the program ends -/

theorem textEnds_iff (s : State) :
    s.textEnds = true ↔ s.cpu.endAt = none ∧ s.fetch.2 = some .outsideProgram ∧ s.fetch.1 = [] := by
  simp [State.textEnds, Prod.ext_iff, and_comm]

/-- Where the decoder does not run out of bytes, the program text does not end. -/
theorem textEnds_of_decode (hd : decode (defaultAddrSize s.cpu) s.fetch.1 ≠ .error .truncated) :
    s.textEnds = false :=
  textEnds_of_fetch fun hnil => hd (by rw [hnil, decode_nil])

theorem nextEnding_of_atEnd (h : s.cpu.endAt = some s.cpu.pc) : s.nextEnding = some .programEnd := by
  simp [State.nextEnding, State.atEnd, h]

theorem nextEnding_of_textEnds (h : s.textEnds = true) : s.nextEnding = some .programEnd := by
  simp [State.nextEnding, h]

theorem nextEnding_of_refused {r : Refusal} (hend : s.cpu.endAt ≠ some s.cpu.pc) (ht : s.textEnds = false)
    (h : s.runInstruction = .refused r) : s.nextEnding = some (.refused r) := by
  rw [nextEnding_of_not_atEnd ((atEnd_eq_false_iff s).mpr hend) ht, h]
  rfl

/-- How the agent's run ends where the decoder runs out of bytes. -/
theorem nextEnding_of_truncated {r : Refusal} (hend : s.cpu.endAt ≠ some s.cpu.pc)
    (hd : decode (defaultAddrSize s.cpu) s.fetch.1 = .error .truncated) (hr : s.fetch.2 = some r) :
    s.nextEnding =
      if s.cpu.endAt = none ∧ r = .outsideProgram ∧ s.fetch.1 = [] then some .programEnd else some (.refused r) := by
  have htext : s.textEnds = true ↔ s.cpu.endAt = none ∧ r = .outsideProgram ∧ s.fetch.1 = [] := by
    rw [textEnds_iff, hr, Option.some.injEq]
  split
  next h => exact nextEnding_of_textEnds (htext.mpr h)
  next h =>
    exact nextEnding_of_refused hend (Bool.eq_false_iff.mpr (mt htext.mp h)) (runInstruction_of_truncated hd hr)

/-- Where the decoder runs out of bytes the fetch has ended early, with `codeLimit` at the first byte outside the code
segment. -/
theorem fetch_of_truncated (hd : decode (defaultAddrSize s.cpu) s.fetch.1 = .error .truncated) :
    ∃ r, s.fetch.2 = some r ∧
      (r = .codeLimit ↔ lastCodeOffset s.cpu < s.cpu.pc.toNat + s.fetch.1.length ∨
        s.cpu.segs.cs.limit.toNat < s.cpu.pc.toNat + s.fetch.1.length) := by
  obtain ⟨_, _, hnone, _, hearly⟩ := fetchReadsTheCodeSegment s
  have hlen := decode_truncated _ _ hd
  obtain ⟨r, hr⟩ := Option.ne_none_iff_exists'.mp (mt hnone.mp hlen.ne)
  obtain ⟨hlimit, _⟩ := hearly hlen
  refine ⟨r, hr, ?_⟩
  rwa [hr, Option.some.injEq, not_and_or, not_le, not_le] at hlimit

end

/-- Settles O8: each clause says how `nextEnding` answers in the state whose turn is taken off the schedule. -/
theorem stepRefusesWhatItCannotRun : Obligations.StepRefusesWhatItCannotRun := by
  intro s he hs
  have hends : ∀ e, State.nextEnding { s with schedule := s.schedule.tail } = some e → StepEnds s e e.outcome :=
    fun e => stepEnds_of_nextEnding he hs
  have hcpu : s.cpu = State.cpu { s with schedule := s.schedule.tail } := rfl
  have hfetch : s.fetch = State.fetch { s with schedule := s.schedule.tail } := (s.fetch_withSchedule _).symm
  generalize ({ s with schedule := s.schedule.tail } : State) = u at hends hcpu hfetch
  rw [hcpu, hfetch]
  refine ⟨fun hend => ?_, fun hend => ⟨fun e hd hne => ?_, fun hd => ?_, fun i rest hd hp => ?_⟩⟩
  · exact hends _ (nextEnding_of_atEnd hend)
  · exact hends _
      (nextEnding_of_refused hend (textEnds_of_decode (by simp [hd, hne])) (runInstruction_of_undefined hd hne))
  · obtain ⟨r, hr, hlimit⟩ := fetch_of_truncated hd
    refine ⟨r, hr, ?_, hlimit⟩
    have hnext := nextEnding_of_truncated hend hd hr
    split
    next h => exact hends _ (hnext.trans (if_pos h))
    next h => exact hends _ (hnext.trans (if_neg h))
  · exact hends _
      (nextEnding_of_refused hend (textEnds_of_decode (by simp [hd])) (runInstruction_of_pcOverflow hd hp))

end Sys2Proof.Machine
end

section
/-! SUPPORT. Effective addresses as sums, and the segments of operands (30_encoding.md R60 to R67). -/

namespace Sys2Proof.Machine

open Sys2Proof

/-! ## Displacements (R62) -/

theorem toNat_eq_toInt_emod {w : Nat} (x : BitVec w) : (x.toNat : Int) = x.toInt % 2 ^ w := by
  have hlt : (x.toNat : Int) < 2 ^ w := by exact_mod_cast x.isLt
  have hmod := Int.bmod_emod (x := x.toNat) (m := 2 ^ w)
  push_cast at hmod
  rw [BitVec.toInt_eq_toNat_bmod, hmod, Int.emod_eq_of_lt (Int.natCast_nonneg _) hlt]

theorem toNat_signExtend_byte (d : Byte) {w : Nat} (hw : 8 ≤ w) :
    ((d.signExtend w).toNat : Int) = d.toInt % 2 ^ w := by
  rw [toNat_eq_toInt_emod, BitVec.toInt_signExtend_of_le hw]

/-- The value that is added stands for the displacement modulo `2^32`. -/
theorem disp32Value_toNat (d : Disp32) : ((disp32Value d).toNat : Int) = disp32Number d % 2 ^ 32 := by
  cases d with
  | none => rfl
  | d8 d => exact toNat_signExtend_byte d (by decide)
  | d32 d => exact (Int.emod_eq_of_lt (Int.natCast_nonneg _) (by exact_mod_cast d.isLt)).symm

theorem disp16Value_toNat (d : Disp16) : ((disp16Value d).toNat : Int) = disp16Number d % 2 ^ 16 := by
  cases d with
  | none => rfl
  | d8 d => exact toNat_signExtend_byte d (by decide)
  | d16 d => exact (Int.emod_eq_of_lt (Int.natCast_nonneg _) (by exact_mod_cast d.isLt)).symm

/-! ## 32-bit operands (R60, R61) -/

theorem indexPart_toNat (a : Agent) (index : IntReg) (scale : BitVec 2) :
    (indexPart a index scale).toNat =
      (if index = .esp then 0 else (a.x.get index).toNat * 2 ^ scale.toNat) % 2 ^ 32 := by
  unfold indexPart
  split
  · rfl
  · rw [BitVec.toNat_shiftLeft, Nat.shiftLeft_eq]

/-- Settles O11: each summand stands for its number modulo `2^32`, and so does the sum. -/
theorem address32IsTheSum : Obligations.Address32IsTheSum := by
  intro a
  refine ⟨fun base disp => ?_, fun d => rfl, fun base index scale disp => ?_, fun index scale d => ?_⟩
  · have hdisp := disp32Value_toNat disp
    rw [effectiveAddress, address32, BitVec.toNat_add]
    omega
  · have hdisp := disp32Value_toNat disp
    have hindex := indexPart_toNat a index scale
    rw [effectiveAddress, address32, BitVec.toNat_add, BitVec.toNat_add, hindex]
    push_cast
    omega
  · rw [effectiveAddress, address32, BitVec.toNat_add, indexPart_toNat]
    push_cast
    omega

/-! ## 16-bit operands (R64) -/

theorem lowWord_toNat (a : Agent) (r : IntReg) : (lowWord a r).toNat = (a.x.get r).toNat % 2 ^ 16 :=
  BitVec.toNat_setWidth ..

theorem effectiveAddress_m16_toNat (a : Agent) (m : Mem16) :
    (effectiveAddress a (.m16 m)).toNat = (address16 a m).toNat :=
  BitVec.toNat_setWidth_of_le (by decide)

theorem based16_toNat (a : Agent) (base : Base16) (disp : Disp16) :
    ((effectiveAddress a (.m16 (.based base disp))).toNat : Int) =
      ((base16Value a base).toNat + disp16Number disp) % 2 ^ 16 := by
  have hdisp := disp16Value_toNat disp
  rw [effectiveAddress_m16_toNat, address16, BitVec.toNat_add]
  omega

theorem lowWord_add_toNat (a : Agent) (r r' : IntReg) :
    (lowWord a r + lowWord a r').toNat =
      ((a.x.get r).toNat % 2 ^ 16 + (a.x.get r').toNat % 2 ^ 16) % 2 ^ 16 := by
  rw [BitVec.toNat_add, lowWord_toNat, lowWord_toNat]

/-- Settles O12: the sum of the low words stands for itself modulo `2^16`, with the displacement added too. -/
theorem address16IsTheSum : Obligations.Address16IsTheSum := by
  intro a disp w ea
  have hone : ∀ base r, base16Value a base = lowWord a r → ea base = (w r + disp16Number disp) % 2 ^ 16 := by
    intro base r hbase
    exact (based16_toNat a base disp).trans (by rw [hbase, lowWord_toNat])
  have htwo : ∀ base r r', base16Value a base = lowWord a r + lowWord a r' →
      ea base = (w r + w r' + disp16Number disp) % 2 ^ 16 := by
    intro base r r' hbase
    refine (based16_toNat a base disp).trans ?_
    rw [hbase, lowWord_add_toNat, Int.natCast_emod, Nat.cast_add]
    exact Int.emod_add_emod ..
  exact ⟨htwo _ _ _ rfl, htwo _ _ _ rfl, htwo _ _ _ rfl, htwo _ _ _ rfl, hone _ _ rfl, hone _ _ rfl, hone _ _ rfl,
    hone _ _ rfl, fun d => effectiveAddress_m16_toNat ..⟩

/-! ## Segments (R63, R65 to R67) -/

theorem operandSeg_of_override {p : Pfx} {g : Seg} (h : segOverride p = some g) (m : MemRef) : operandSeg p m = g := by
  rw [operandSeg, h, Option.getD_some]

theorem operandSeg_of_no_override {p : Pfx} (h : segOverride p = none) (m : MemRef) :
    operandSeg p m = defaultSeg m := by
  rw [operandSeg, h, Option.getD_none]

/-- 67h exchanges the address size with the other one (R67). -/
theorem pfxAddrSize_eq (dflt : AddrSize) (p : Pfx) :
    pfxAddrSize dflt p = if (0x67 : Byte) ∈ pfxBytes p then dflt.opposite else dflt := by
  cases p with
  | plain | addr => all_goals rfl
  | seg g => cases g <;> rfl
  | segAddr g | addrSeg g => all_goals simp [pfxAddrSize, pfxBytes]

theorem defaultAddrSize_eq (a : Agent) :
    defaultAddrSize a = if a.mode = .protectedMode ∧ a.segs.cs.big = true then .a32 else .a16 := by
  unfold defaultAddrSize
  cases a.mode <;> simp

/-- The address size is 32 exactly when one of the two holds: the code segment is 32-bit, 67h is there. -/
theorem ite_opposite_eq_a32_iff (big override : Prop) [Decidable big] [Decidable override] :
    (if override then (if big then AddrSize.a32 else .a16).opposite else if big then .a32 else .a16) = .a32 ↔
      (decide big != decide override) = true := by
  by_cases hbig : big <;> by_cases hover : override <;> simp [hbig, hover, AddrSize.opposite]

theorem maskmovOffset_toNat (a : Agent) (p : Pfx) :
    (maskmovOffset a p).toNat =
      if pfxAddrSize (defaultAddrSize a) p = .a32 then (a.x.get .edi).toNat else (a.x.get .edi).toNat % 2 ^ 16 := by
  unfold maskmovOffset
  cases pfxAddrSize (defaultAddrSize a) p with
  | a32 => rfl
  | a16 => exact (BitVec.toNat_setWidth_of_le (by decide)).trans (lowWord_toNat ..)

/-- Settles O13: without an override the segment is `defaultSeg`'s, and MASKMOVQ's address size is that of the code
segment, exchanged by 67h. -/
theorem operandsAreInTheirSegments : Obligations.OperandsAreInTheirSegments := by
  refine ⟨fun g p hp => ?_, fun p hp => ?_, fun a p => ?_⟩
  · have hover : segOverride p = some g := by
      simp only [List.mem_cons, List.not_mem_nil, or_false] at hp
      rcases hp with rfl | rfl | rfl <;> rfl
    exact ⟨by rw [maskmovSeg, hover, Option.getD_some], operandSeg_of_override hover⟩
  · have hover : segOverride p = none := by
      simp only [List.mem_cons, List.not_mem_nil, or_false] at hp
      rcases hp with rfl | rfl <;> rfl
    have hseg := operandSeg_of_no_override hover
    refine ⟨by rw [maskmovSeg, hover, Option.getD_none], fun _ _ => hseg _, fun _ => hseg _, fun _ _ _ _ => hseg _,
      fun _ _ _ => hseg _, fun base disp => ?_, fun _ => hseg _⟩
    simp [hseg, defaultSeg]
  · intro big override
    have hsize : pfxAddrSize (defaultAddrSize a) p = .a32 ↔ (big != override) = true := by
      rw [pfxAddrSize_eq, defaultAddrSize_eq]
      exact ite_opposite_eq_a32_iff ..
    rw [maskmovOffset_toNat]
    simp only [hsize]

end Sys2Proof.Machine
end

section
/-! SUPPORT. The fields of a single-precision pattern and the number it stands for (40_3dnow_ext.md R79), exact
encoding (R80), and the two lane conversions (R82, R86). -/

namespace Sys2Proof.Machine

open Sys2Proof

/-! ## A pattern and its fields (R79) -/

/-- The pattern with this sign, biased exponent and fraction. -/
def f32Fields (neg : Bool) (e f : Nat) : Dword := BitVec.ofBool neg ++ BitVec.ofNat 8 e ++ BitVec.ofNat 23 f

@[simp] theorem f32Sign_f32Fields (neg : Bool) (e f : Nat) : f32Sign (f32Fields neg e f) = neg := by
  rw [f32Sign, f32Fields, BitVec.getLsbD_append, if_neg (by decide), BitVec.getLsbD_append, if_neg (by decide)]
  simp

theorem f32Exp_f32Fields (neg : Bool) {e : Nat} (f : Nat) (he : e < 2 ^ 8) : f32Exp (f32Fields neg e f) = e := by
  rw [f32Exp, f32Fields, BitVec.extractLsb'_append_eq_of_le (by decide), BitVec.extractLsb'_append_eq_right,
    BitVec.toNat_ofNat, Nat.mod_eq_of_lt he]

theorem f32Frac_f32Fields (neg : Bool) (e : Nat) {f : Nat} (hf : f < 2 ^ 23) : f32Frac (f32Fields neg e f) = f := by
  rw [f32Frac, f32Fields, BitVec.extractLsb'_append_eq_right, BitVec.toNat_ofNat, Nat.mod_eq_of_lt hf]

/-- A pattern is its three fields. -/
theorem f32Fields_fields (v : Dword) : f32Fields (f32Sign v) (f32Exp v) (f32Frac v) = v := by
  simp only [f32Fields, f32Sign, f32Exp, f32Frac, BitVec.ofNat_toNat, BitVec.setWidth_eq]
  refine BitVec.eq_of_getLsbD_eq fun i hi => ?_
  simp only [BitVec.getLsbD_append, BitVec.getLsbD_extractLsb']
  obtain hfrac | ⟨hlow, hexp⟩ | rfl : i < 23 ∨ (23 ≤ i ∧ i < 31) ∨ i = 31 := by omega
  · simp [hfrac]
  · simp [Nat.not_lt.mpr hlow, show i - 23 < 8 by omega, Nat.add_sub_cancel' hlow]
  · simp

theorem f32Exp_lt (v : Dword) : f32Exp v < 2 ^ 8 := (v.extractLsb' 23 8).isLt

theorem f32Frac_lt (v : Dword) : f32Frac v < 2 ^ 23 := (v.extractLsb' 0 23).isLt

theorem f32Class_eq_normal_iff (v : Dword) : f32Class v = .normal ↔ f32Exp v ≠ 0 ∧ f32Exp v ≠ 255 := by
  grind [f32Class]

theorem f32Exp_of_infinity {v : Dword} (h : f32Class v = .infinity) : f32Exp v = 255 := by
  grind [f32Class]

theorem f32Exp_of_nan {v : Dword} (h : f32Class v = .nan) : f32Exp v = 255 := by
  grind [f32Class]

/-- The number that a pattern with a nonzero exponent stands for. -/
theorem f32Scaled_of_exp_ne_zero {v : Dword} (h : f32Exp v ≠ 0) :
    f32Scaled v =
      if f32Sign v then -(((2 ^ 23 + f32Frac v) * 2 ^ (f32Exp v - 1) : Nat) : Int)
      else ((2 ^ 23 + f32Frac v) * 2 ^ (f32Exp v - 1) : Nat) := by
  simp only [f32Scaled, if_neg h]

theorem natAbs_f32Scaled_of_exp_ne_zero {v : Dword} (h : f32Exp v ≠ 0) :
    (f32Scaled v).natAbs = (2 ^ 23 + f32Frac v) * 2 ^ (f32Exp v - 1) := by
  rw [f32Scaled_of_exp_ne_zero h]
  split <;> omega

theorem f32Scaled_ne_zero {v : Dword} (h : f32Exp v ≠ 0) : f32Scaled v ≠ 0 := by
  rw [← Int.natAbs_ne_zero, natAbs_f32Scaled_of_exp_ne_zero h]
  positivity

theorem decide_f32Scaled_neg {v : Dword} (h : f32Exp v ≠ 0) : decide (f32Scaled v < 0) = f32Sign v := by
  have hpos : 0 < (2 ^ 23 + f32Frac v) * 2 ^ (f32Exp v - 1) := by positivity
  rw [f32Scaled_of_exp_ne_zero h]
  cases f32Sign v with
  | false => exact decide_eq_false (Int.not_lt.mpr (Int.natCast_nonneg _))
  | true => exact decide_eq_true (Int.neg_neg_of_pos (Int.natCast_pos.mpr hpos))

theorem f32Unit_pos : 0 < f32Unit := by decide

/-! ## What encodes exactly (R79, R80) -/

/-- The top bit of a 24-bit significand moved up by `k` places. -/
theorem log2_significand {f : Nat} (hf : f < 2 ^ 23) (k : Nat) : ((2 ^ 23 + f) * 2 ^ k).log2 = 23 + k := by
  refine (Nat.log2_eq_iff (by positivity)).mpr ⟨?_, ?_⟩
  · rw [Nat.pow_add]
    exact Nat.mul_le_mul_right _ (Nat.le_add_right ..)
  · rw [Nat.add_right_comm, Nat.pow_add]
    exact Nat.mul_lt_mul_of_pos_right (by omega) (Nat.two_pow_pos k)

/-- A normal pattern is the one that encodes its number: the top bit of the number gives the exponent back, and what
is below it the fraction. -/
theorem f32EncodeExact_f32Scaled {r : Dword} (h : f32Class r = .normal) : f32EncodeExact (f32Scaled r) = some r := by
  obtain ⟨hzero, hmax⟩ := (f32Class_eq_normal_iff r).mp h
  have hexp : f32Exp r < 2 ^ 8 := f32Exp_lt r
  have hlog := log2_significand (f32Frac_lt r) (f32Exp r - 1)
  rw [f32EncodeExact, natAbs_f32Scaled_of_exp_ne_zero hzero, hlog, decide_f32Scaled_neg hzero, Nat.add_sub_cancel_left,
    Nat.mul_mod_left, Nat.mul_div_cancel _ (Nat.two_pow_pos _), Nat.add_sub_cancel_left, if_pos (by omega),
    show 23 + (f32Exp r - 1) - 22 = f32Exp r by omega]
  exact congrArg some (f32Fields_fields r)

/-! ## Add and subtract (R80) -/

/-- What `f32Result` answers where P-EXACT fixes the result, whatever the free values are. -/
theorem f32Result_exact {a b : Dword} (ha : f32ZeroOrNormal a = true) (hb : f32ZeroOrNormal b = true) (n : Int)
    (zeroIsNegative : Bool) (free : Dword) :
    (∀ r, f32Class r = .normal → f32Scaled r = n → f32Result a b n zeroIsNegative free = r) ∧
      (n = 0 → f32Result a b n zeroIsNegative free = 0x00000000 ∨
        f32Result a b n zeroIsNegative free = 0x80000000) := by
  constructor
  · rintro r hr rfl
    have hzero : f32Exp r ≠ 0 := ((f32Class_eq_normal_iff r).mp hr).1
    simp [f32Result, ha, hb, f32Scaled_ne_zero hzero, f32EncodeExact_f32Scaled hr]
  · rintro rfl
    cases zeroIsNegative <;> simp [f32Result, ha, hb]

/-- Settles O27: both operations are `f32Result` of their exact value. -/
theorem addAndSubtractAreExactWherePossible : Obligations.AddAndSubtractAreExactWherePossible :=
  ⟨fun _ _ ha hb => f32Result_exact ha hb .., fun _ _ ha hb => f32Result_exact ha hb ..⟩

/-! ## From integers (R86) -/

theorem natAbs_toInt_le (w : Word16) : w.toInt.natAbs ≤ 2 ^ 15 := by
  have hlow := w.le_toInt
  have hhigh := w.toInt_lt
  omega

/-- The fields of a converted word: the sign, the place of the top bit, and what is below it. -/
theorem i2fw_of_toInt_ne_zero {w : Word16} (h : w.toInt ≠ 0) :
    i2fw w = f32Fields (decide (w.toInt < 0)) (127 + w.toInt.natAbs.log2)
      ((w.toInt.natAbs - 2 ^ w.toInt.natAbs.log2) * 2 ^ (23 - w.toInt.natAbs.log2)) :=
  if_neg h

/-- The 24-bit significand of an integer `m` with top bit `e`: below the implicit 1 stands what is left of `m`. -/
theorem significand_of_top {m e : Nat} (he : e ≤ 23) (hlow : 2 ^ e ≤ m) :
    2 ^ 23 + (m - 2 ^ e) * 2 ^ (23 - e) = m * 2 ^ (23 - e) := by
  have htop : 2 ^ 23 = 2 ^ e * 2 ^ (23 - e) := by rw [← Nat.pow_add, Nat.add_sub_cancel' he]
  rw [htop, ← Nat.add_mul, Nat.add_sub_cancel' hlow]

theorem fraction_lt_of_top {m e : Nat} (he : e ≤ 23) (hlow : 2 ^ e ≤ m) (hhigh : m < 2 ^ (e + 1)) :
    (m - 2 ^ e) * 2 ^ (23 - e) < 2 ^ 23 := by
  have hsig := significand_of_top he hlow
  have hlt : m * 2 ^ (23 - e) < 2 ^ (e + 1) * 2 ^ (23 - e) := Nat.mul_lt_mul_of_pos_right hhigh (Nat.two_pow_pos _)
  rw [← Nat.pow_add, show e + 1 + (23 - e) = 24 by omega] at hlt
  omega

/-- The fields that R86 gives an integer `m` with top bit `e` stand for `m` in units of `2^-149`. -/
theorem f32Scaled_f32Fields_of_top (neg : Bool) {m e : Nat} (he : e ≤ 23) (hlow : 2 ^ e ≤ m)
    (hhigh : m < 2 ^ (e + 1)) :
    f32Scaled (f32Fields neg (127 + e) ((m - 2 ^ e) * 2 ^ (23 - e))) =
      if neg then -((m * 2 ^ 149 : Nat) : Int) else (m * 2 ^ 149 : Nat) := by
  have hexp := f32Exp_f32Fields neg ((m - 2 ^ e) * 2 ^ (23 - e)) (e := 127 + e) (by omega)
  have hunit : 2 ^ (23 - e) * 2 ^ (127 + e - 1) = 2 ^ 149 := by
    rw [← Nat.pow_add, show 23 - e + (127 + e - 1) = 149 by omega]
  rw [f32Scaled_of_exp_ne_zero (by omega), hexp, f32Frac_f32Fields _ _ (fraction_lt_of_top he hlow hhigh),
    f32Sign_f32Fields, significand_of_top he hlow, Nat.mul_assoc, hunit]

/-- A converted word is a finite pattern that stands for the word's number (R79, R86). -/
theorem i2fw_exact (w : Word16) : f32Exp (i2fw w) ≠ 255 ∧ f32Scaled (i2fw w) = w.toInt * f32Unit := by
  by_cases hw : w.toInt = 0
  · rw [i2fw, if_pos hw, hw]
    decide
  · have hm : w.toInt.natAbs ≠ 0 := Int.natAbs_ne_zero.mpr hw
    have he : w.toInt.natAbs.log2 < 16 :=
      (Nat.log2_lt hm).mpr (Nat.lt_of_le_of_lt (natAbs_toInt_le w) (by decide))
    rw [i2fw_of_toInt_ne_zero hw]
    constructor
    · rw [f32Exp_f32Fields _ _ (by omega)]
      omega
    · rw [f32Scaled_f32Fields_of_top _ (by omega) (Nat.log2_self_le hm) Nat.lt_log2_self]
      simp only [f32Unit, decide_eq_true_eq]
      split <;> omega

/-! ## To integers (R82) -/

theorem tdiv_lt_of_lt_mul {a b c : Int} (hb : 0 < b) (hc : 0 < c) (h : a < b * c) : a.tdiv c < b := by
  rcases Int.le_total 0 a with ha | ha
  · rw [Int.tdiv_eq_ediv_of_nonneg ha]
    exact Int.ediv_lt_of_lt_mul hc h
  · have hle := Int.tdiv_le_tdiv hc ha
    rw [Int.zero_tdiv] at hle
    omega

theorem le_tdiv_of_mul_le {a b c : Int} (hc : 0 < c) (h : b * c ≤ a) : b ≤ a.tdiv c := by
  have hle := Int.tdiv_le_tdiv hc h
  rwa [Int.mul_tdiv_cancel _ (Int.ne_of_gt hc)] at hle

theorem tdiv_le_of_le_mul {a b c : Int} (hc : 0 < c) (h : a ≤ b * c) : a.tdiv c ≤ b := by
  have hle := Int.tdiv_le_tdiv hc h
  rwa [Int.mul_tdiv_cancel _ (Int.ne_of_gt hc)] at hle

/-- A lane that is a number gives its integer part, held to the signed words (R82). -/
theorem f2iw_toInt (n : Nat) {v : Dword} (h : f32Exp v ≠ 255) :
    (f2iw n v).toInt = max (-32768) (min 32767 ((f32Scaled v).tdiv f32Unit)) := by
  rw [f2iw, if_neg h]
  split
  next habove =>
    have hdiv := le_tdiv_of_mul_le f32Unit_pos habove
    rw [show (0x00007FFF : Dword).toInt = 32767 from rfl]
    omega
  next hbelow =>
    split
    next hunder =>
      rw [← Int.neg_mul] at hunder
      have hdiv := tdiv_le_of_le_mul f32Unit_pos hunder
      rw [show (0xFFFF8000 : Dword).toInt = -32768 from rfl]
      omega
    next hover =>
      rw [← Int.neg_mul] at hover
      have hlow := le_tdiv_of_mul_le f32Unit_pos (Int.le_of_lt (Int.not_le.mp hover))
      have hhigh := tdiv_lt_of_lt_mul (by decide) f32Unit_pos (Int.not_le.mp hbelow)
      rw [BitVec.toInt_signExtend_of_le (by decide), BitVec.toInt_ofInt_eq_self (by decide) hlow hhigh]
      omega

theorem f2iw_of_infinity (n : Nat) {v : Dword} (h : f32Class v = .infinity) : f2iw n v = Config.f2iwInfinity v := by
  rw [f2iw, if_pos (f32Exp_of_infinity h), f2iwSpecial, if_neg (by simp [h])]

theorem f2iw_of_nan (n : Nat) {v : Dword} (h : f32Class v = .nan) : f2iw n v = Config.f2iwNaN n := by
  rw [f2iw, if_pos (f32Exp_of_nan h), f2iwSpecial, if_pos h]

/-- Settles O28: the pattern stands for the word's number exactly, which is its own integer part and within range. -/
theorem integerToFloatAndBackSignExtends : Obligations.IntegerToFloatAndBackSignExtends := by
  intro n w
  obtain ⟨hexp, hscaled⟩ := i2fw_exact w
  have hlow := w.le_toInt
  have hhigh := w.toInt_lt
  apply BitVec.eq_of_toInt_eq
  rw [f2iw_toInt n hexp, hscaled, Int.mul_tdiv_cancel _ (Int.ne_of_gt f32Unit_pos),
    BitVec.toInt_signExtend_of_le (by decide)]
  omega

end Sys2Proof.Machine
end

section
/-! SUPPORT. What the 3DNow! extension instructions leave in their destination (40_3dnow_ext.md R83 to R88, R90). -/

namespace Sys2Proof.Machine

open Sys2Proof

/-! ## Completion -/

/-- A two-operand instruction that may run, and whose source can be read, completes with its function of the old
destination and the source (R81, R90). -/
theorem mmxCompute_completes (f : Quad → Quad → Quad) {p : Pfx} {d : MmReg} {src : RM MmReg} {last : Nat}
    {s : State} {v : Quad} (hready : MmxReady s) (hv : quadSource s p src = .ok v) :
    ∃ t, mmxCompute f p d src last s = .next t ∧ t.mm d = f (s.mm d) v :=
  ⟨_, (mmxCompute_eq_next ..).mpr ⟨hready, v, hv, rfl⟩, by simp⟩

theorem execPf2iw_completes {p : Pfx} {d : MmReg} {src : RM MmReg} {s : State} {v : Quad} (hready : MmxReady s)
    (hv : quadSource s p src = .ok v) :
    ∃ t, execPf2iw p d src s = .next t ∧ t.draws = s.draws + 2 ∧ t.mm d = floatsToInts s.draws v :=
  ⟨_, (execPf2iw_eq_next ..).mpr ⟨hready, v, hv, rfl⟩, by simp, by simp⟩

/-! ## Results, lane by lane -/

theorem dwordLane_intsToFloats (v : Quad) {k : Nat} (hk : k < 2) :
    dwordLane (intsToFloats v) k = i2fw (wordLane v (2 * k)) := by
  obtain rfl | rfl : k = 0 ∨ k = 1 := by omega
  · exact dwordLane_zero_ofDwordLanes ..
  · exact dwordLane_one_ofDwordLanes ..

theorem dwordLane_floatsToInts (n : Nat) (v : Quad) {k : Nat} (hk : k < 2) :
    dwordLane (floatsToInts n v) k = f2iw (n + k) (dwordLane v k) := by
  obtain rfl | rfl : k = 0 ∨ k = 1 := by omega
  · exact dwordLane_zero_ofDwordLanes ..
  · exact dwordLane_one_ofDwordLanes ..

/-! ## The instructions -/

/-- Settles O23: the source's value is fixed before the destination is written, so it may be the destination. -/
theorem pswapdExchangesDoublewords : Obligations.PswapdExchangesDoublewords := by
  intro p d src s v hready hv
  obtain ⟨t, ht, hmm⟩ := mmxCompute_completes (d := d) (last := 1) (fun _ v => swapDwords v) hready hv
  exact ⟨t, ht, by rw [hmm, swapDwords, dwordLane_one_ofDwordLanes],
    by rw [hmm, swapDwords, dwordLane_zero_ofDwordLanes]⟩

/-- Settles O24: each lane is the conversion of its word, and that is exact. -/
theorem pi2fwConvertsExactly : Obligations.Pi2fwConvertsExactly := by
  intro p d src s v hready hv
  obtain ⟨t, ht, hmm⟩ := mmxCompute_completes (d := d) (last := 1) (fun _ v => intsToFloats v) hready hv
  refine ⟨t, ht, fun k hk => ?_⟩
  rw [hmm, dwordLane_intsToFloats v hk]
  obtain ⟨hexp, hscaled⟩ := i2fw_exact (wordLane v (2 * k))
  exact ⟨hexp, hscaled, fun hzero => if_pos hzero⟩

/-- Settles O25: each lane is the conversion of its doubleword, with draw number `s.draws + k` in lane `k`. -/
theorem pf2iwTruncatesAndSaturates : Obligations.Pf2iwTruncatesAndSaturates := by
  intro p d src s v hready hv
  obtain ⟨t, ht, hdraws, hmm⟩ := execPf2iw_completes (d := d) hready hv
  refine ⟨t, ht, hdraws, fun k hk => ?_⟩
  rw [hmm, dwordLane_floatsToInts _ v hk]
  exact ⟨f2iw_toInt _, f2iw_of_infinity _, f2iw_of_nan _⟩

/-- Settles O26: the old destination gives the low lane and the source the high one. -/
theorem accumulatesWithinEachOperand : Obligations.AccumulatesWithinEachOperand := by
  intro p d src s v hready hv
  obtain ⟨t, ht, htmm⟩ := mmxCompute_completes (d := d) (last := 1) negAccumulate hready hv
  obtain ⟨u, hu, humm⟩ := mmxCompute_completes (d := d) (last := 1) mixedAccumulate hready hv
  refine ⟨⟨t, ht, ?_⟩, u, hu, ?_⟩
  · rw [htmm, negAccumulate, dwordLane_zero_ofDwordLanes, dwordLane_one_ofDwordLanes]
    exact ⟨rfl, rfl⟩
  · rw [humm, mixedAccumulate, dwordLane_zero_ofDwordLanes, dwordLane_one_ofDwordLanes]
    exact ⟨rfl, rfl⟩

end Sys2Proof.Machine
end

section
/-! SUPPORT. The two streaming stores (41_streaming_stores.md R92 to R94; 20_memory.md R31, R38, R46, R47): the records
that each appends, what the agent sees of them, and when MASKMOVQ with an all-zero mask completes. -/

namespace Sys2Proof.Machine

open Sys2Proof

/-! ## The records of a store -/

theorem storeRecords_quad (e : Nat) (quad : Bool) (k : Nat) (cs : List (Nat × Byte)) :
    (storeRecords e quad k cs).map (·.quad) =
      (List.range' k cs.length).map fun j => if quad then some (Fin.ofNat 8 j) else none := by
  induction cs generalizing k with
  | nil => rfl
  | cons c cs ih =>
    obtain ⟨p, b⟩ := c
    simp [storeRecords, ih, List.range'_succ]

/-- The records of eight bytes carry the places 0 to 7 exactly where the store is one access (20_memory.md R40, R46). -/
theorem storeRecords_places {cs : List (Nat × Byte)} (h : cs.length = 8) (e : Nat) (lin : Dword) :
    (storeRecords e (alignedQuad lin 8) 0 cs).map (·.quad) =
      if lin.toNat % 8 = 0 then (List.finRange 8).map some else List.replicate 8 none := by
  rw [storeRecords_quad, h]
  by_cases ha : lin.toNat % 8 = 0
  · rw [if_pos ha, alignedQuad_eight ha]
    rfl
  · have hfalse : alignedQuad lin 8 = false := by simp [alignedQuad, ha]
    rw [if_neg ha, hfalse]
    rfl

theorem storeRecords_alone (e k : Nat) (cs : List (Nat × Byte)) : ∀ r ∈ storeRecords e false k cs, r.quad = none := by
  intro r hr
  have hquad := List.mem_map_of_mem (f := (·.quad)) hr
  rw [storeRecords_quad] at hquad
  obtain ⟨j, _, hj⟩ := List.mem_map.mp hquad
  exact hj.symm

/-! ## The cells of a store -/

theorem quadCells_eq_map {ps : List Nat} (h : ps.length = 8) (v : Quad) :
    quadCells ps v = (List.range 8).map fun k => (ps.getD k 0, byteLane v k) := by
  have hps : ps = (List.range 8).map fun k => ps.getD k 0 :=
    List.ext_getElem (by simp [h]) fun k hk _ => by simp [hk]
  conv_lhs => rw [quadCells, hps, List.zip_map']

/-- Of cells in a row the mask selects those at the places whose mask bit is 1 (20_memory.md R38). -/
theorem selectedCells_map (mask : Quad) (f : Nat → Nat × Byte) (k n : Nat) :
    selectedCells mask k ((List.range' k n).map f) = ((List.range' k n).filter (topBit mask)).map f := by
  induction n generalizing k with
  | zero => rfl
  | succ n ih =>
    rw [List.range'_succ, List.map_cons, selectedCells, ih, List.filter_cons]
    split <;> rfl

theorem selectedCells_quadCells {ps : List Nat} (h : ps.length = 8) (mask v : Quad) :
    selectedCells mask 0 (quadCells ps v) =
      ((List.range 8).filter (topBit mask)).map fun k => (ps.getD k 0, byteLane v k) := by
  rw [quadCells_eq_map h, List.range_eq_range', selectedCells_map]

/-- At different addresses an address has one place among the cells of a value. -/
theorem quadCells_place_unique {ps : List Nat} (hps : ps.Nodup) {v : Quad} {j k : Nat} {c : Nat × Byte}
    (hc : (quadCells ps v)[j]? = some c) (hk : ps[k]? = some c.1) : j = k := by
  obtain ⟨hj, _, _⟩ := (quadCells_get ..).mp hc
  exact (List.getElem?_inj (List.getElem?_eq_some_iff.mp hj).1 hps).mp (hj.trans hk.symm)

theorem mem_selectedCells_iff {ps : List Nat} (hps : ps.Nodup) {k q : Nat} (hk : k < 8) (hq : ps[k]? = some q)
    (mask v : Quad) : (q, byteLane v k) ∈ selectedCells mask 0 (quadCells ps v) ↔ topBit mask k = true := by
  rw [mem_selectedCells]
  constructor
  · rintro ⟨j, hj, hbit⟩
    rwa [Nat.zero_add, quadCells_place_unique hps hj hq] at hbit
  · intro hbit
    exact ⟨k, (quadCells_get ..).mpr ⟨hq, hk, rfl⟩, (Nat.zero_add k).symm ▸ hbit⟩

/-! ## What the agent sees of a store (20_memory.md R47) -/

/-- After a store of some cells of a value the agent sees, at the address of byte `k`, that byte where it was stored and
otherwise what it saw. -/
theorem sees_storeRecords {ps : List Nat} (hps : ps.Nodup) {v : Quad} {cs : List (Nat × Byte)}
    (hcs : ∀ c ∈ cs, c ∈ quadCells ps v) {k q : Nat} (hq : ps[k]? = some q) (s : State) (e : Nat) (quad : Bool) :
    (s.addPending (storeRecords e quad 0 cs)).sees q =
      if (q, byteLane v k) ∈ cs then byteLane v k else s.sees q := by
  have hunique : ∀ c ∈ cs, c.1 = q → c = (q, byteLane v k) := by
    intro c hc hcq
    obtain ⟨j, hj⟩ := List.mem_iff_getElem?.mp (hcs c hc)
    obtain ⟨_, _, hbyte⟩ := (quadCells_get ..).mp hj
    have hjk : j = k := quadCells_place_unique hps hj (hcq ▸ hq)
    exact Prod.ext hcq (hjk ▸ hbyte)
  split
  · rename_i hmem
    rw [sees_addPending, newestPending_storeRecords e quad 0 cs q _ hmem fun c hc hcq => by rw [hunique c hc hcq]]
    rfl
  · rename_i hmem
    refine sees_addPending_other s _ q fun r hr hrq => hmem ?_
    have hcell := storeRecords_cell _ _ _ _ r hr
    exact hunique _ hcell hrq ▸ hcell

/-- A store of some cells of a value shows at no address but the value's. -/
theorem sees_storeRecords_other {ps : List Nat} {v : Quad} {cs : List (Nat × Byte)}
    (hcs : ∀ c ∈ cs, c ∈ quadCells ps v) {q : Nat} (hq : q ∉ ps) (s : State) (e : Nat) (quad : Bool) :
    (s.addPending (storeRecords e quad 0 cs)).sees q = s.sees q :=
  sees_addPending_other s _ q fun r hr hrq => hq (hrq ▸ quadCells_mem (hcs _ (storeRecords_cell _ _ _ _ r hr)))

theorem accessCheck_getElem? {a : Agent} {seg : Seg} {off : Dword} {n : Nat} {kind : Access} {ps : List Nat}
    (h : accessCheck a seg off n kind = .ok ps) {k : Nat} (hk : k < n) : ∃ q, ps[k]? = some q :=
  ⟨_, List.getElem?_eq_getElem (accessCheck_length h ▸ hk)⟩

/-! ## Completion -/

theorem exec_movntq_completes {p : Pfx} {dst : MemRef} {r : MmReg} {s : State} {ps : List Nat} (hready : MmxReady s)
    (ha : accessCheck s.cpu (operandSeg p dst) (effectiveAddress s.cpu dst) 8 .write = .ok ps)
    (hdevice : ∀ q ∈ ps, s.inDevice q = false) (htext : ∀ q ∈ ps, s.inText q = false) :
    exec (.movntq p dst r) s = .next ((s.addPending (storeRecords s.cpu.epoch
      (alignedQuad (s.cpu.linear (operandSeg p dst) (effectiveAddress s.cpu dst) 0) 8) 0
      (quadCells ps (s.mm r)))).retireMmx (lengthOf p (memLength dst) 0)) := by
  have hcells : ∀ c ∈ quadCells ps (s.mm r), s.inDevice c.1 = false := fun c hc => hdevice _ (quadCells_mem hc)
  have hwrite := (memWrite_eq_ok s ..).mpr ⟨ps, ha, (store_eq_ok ..).mpr ⟨hcells, htext, rfl⟩⟩
  exact (execMovntq_eq_next ..).mpr ⟨hready, _, hwrite, rfl⟩

theorem exec_maskmovq_completes {p : Pfx} {d m : MmReg} {s : State} {ps : List Nat} (hready : MmxReady s)
    (ha : accessCheck s.cpu (maskmovSeg p) (maskmovOffset s.cpu p) 8 .write = .ok ps)
    (hdevice : ∀ c ∈ selectedCells (s.mm m) 0 (quadCells ps (s.mm d)), s.inDevice c.1 = false)
    (htext : ∀ q ∈ ps, s.inText q = false) :
    exec (.maskmovq p d m) s = .next ((s.addPending (storeRecords s.cpu.epoch false 0
      (selectedCells (s.mm m) 0 (quadCells ps (s.mm d))))).retireMmx (lengthOf p 0 0)) := by
  have hstore := (storeSelected_eq_ok s ..).mpr ⟨ps, ha, (store_eq_ok ..).mpr ⟨hdevice, htext, rfl⟩⟩
  exact (execMaskmovq_eq_next ..).mpr ⟨hready, _, (memWriteMasked_eq_ok ..).mpr (.inl hstore), rfl⟩

/-- Settles O29: all eight cells of the register are stored, and the addresses of an access are different, so that the
agent sees each byte. -/
theorem movntqStoresEightBytes : Obligations.MovntqStoresEightBytes := by
  intro p dst r s ps hready ha hordinary
  have hlen : ps.length = 8 := accessCheck_length ha
  have hnodup : ps.Nodup := accessCheck_nodup (by omega) ha
  refine ⟨_, _, exec_movntq_completes hready ha (fun q hq => (hordinary q hq).1) (fun q hq => (hordinary q hq).2),
    rfl, rfl, storeRecords_epoch _ _ _ _, storeRecords_map _ _ _ _, storeRecords_places ?_ _ _, fun k hk => ?_,
    fun q hq => ?_⟩
  · simp [quadCells, hlen]
  · obtain ⟨q, hq⟩ := accessCheck_getElem? ha hk
    have hcell : (q, byteLane (s.mm r) k) ∈ quadCells ps (s.mm r) :=
      List.mem_of_getElem? ((quadCells_get ..).mpr ⟨hq, hk, rfl⟩)
    exact ⟨q, hq, (sees_storeRecords hnodup (fun _ hc => hc) hq s ..).trans (if_pos hcell)⟩
  · exact sees_storeRecords_other (fun _ hc => hc) hq s ..

/-- Settles O30: the cells stored are those at the places that the mask selects, so that a byte that is not selected
keeps what the agent saw. -/
theorem maskmovqStoresSelectedBytes : Obligations.MaskmovqStoresSelectedBytes := by
  intro p d m s ps hready ha htext hdevice
  have hnodup : ps.Nodup := accessCheck_nodup (by omega) ha
  have hordinary : ∀ c ∈ selectedCells (s.mm m) 0 (quadCells ps (s.mm d)), s.inDevice c.1 = false := by
    intro c hc
    obtain ⟨j, hj, hbit⟩ := (mem_selectedCells ..).mp hc
    obtain ⟨haddr, hj8, _⟩ := (quadCells_get ..).mp hj
    exact hdevice j hj8 c.1 haddr (Nat.zero_add j ▸ hbit)
  have hsubset : ∀ c ∈ selectedCells (s.mm m) 0 (quadCells ps (s.mm d)), c ∈ quadCells ps (s.mm d) :=
    fun _ hc => selectedCells_subset hc
  refine ⟨_, _, exec_maskmovq_completes hready ha hordinary htext, rfl, rfl,
    fun x hx => ⟨storeRecords_epoch _ _ _ _ x hx, storeRecords_alone _ _ _ x hx⟩,
    (storeRecords_map _ _ _ _).trans (selectedCells_quadCells (accessCheck_length ha) _ _), fun k hk => ?_,
    fun q hq => sees_storeRecords_other hsubset hq s ..⟩
  obtain ⟨q, hq⟩ := accessCheck_getElem? ha hk
  exact ⟨q, hq, (sees_storeRecords hnodup hsubset hq s ..).trans
    (if_congr (mem_selectedCells_iff hnodup hk hq _ _) rfl rfl)⟩

/-! ## MASKMOVQ with an all-zero mask (41_streaming_stores.md R93) -/

theorem memWriteMasked_of_zeroMask {s : State} {mask : Quad} (hmask : byteMask mask = 0)
    (hfaults : Config.maskmovZeroMaskFaults = false) (seg : Seg) (off : Dword) (v : Quad) :
    memWriteMasked s seg off v mask = .ok s := by
  cases hs : s.storeSelected seg off v mask with
  | ok t =>
    obtain ⟨ps, _, hstore⟩ := (storeSelected_eq_ok ..).mp hs
    obtain ⟨_, _, rfl⟩ := (store_eq_ok ..).mp hstore
    rw [selectedCells_zero hmask] at hs
    exact (memWriteMasked_eq_ok ..).mpr (.inl (by simpa [storeRecords] using hs))
  | error e => exact (memWriteMasked_eq_ok ..).mpr (.inr ⟨⟨e, hs⟩, hmask, hfaults, rfl⟩)

/-- Where `maskmov_zero_mask_faults` is false an all-zero mask completes, whatever its window is. -/
theorem exec_maskmovq_of_zeroMask {p : Pfx} {d m : MmReg} {s : State} (hready : MmxReady s)
    (hmask : byteMask (s.mm m) = 0) (hfaults : Config.maskmovZeroMaskFaults = false) :
    exec (.maskmovq p d m) s = .next (s.retireMmx (lengthOf p 0 0)) :=
  (execMaskmovq_eq_next ..).mpr ⟨hready, s, memWriteMasked_of_zeroMask hmask hfaults .., rfl⟩

/-- Where the checks of the window hold and none of it is program text an all-zero mask completes, whatever the
parameter and the devices are. -/
theorem exec_maskmovq_of_zeroMask_of_access {p : Pfx} {d m : MmReg} {s : State} {ps : List Nat} (hready : MmxReady s)
    (hmask : byteMask (s.mm m) = 0)
    (ha : accessCheck s.cpu (maskmovSeg p) (maskmovOffset s.cpu p) 8 .write = .ok ps)
    (htext : ∀ q ∈ ps, s.inText q = false) :
    exec (.maskmovq p d m) s = .next (s.retireMmx (lengthOf p 0 0)) := by
  have hnone := selectedCells_zero hmask ps (s.mm d)
  have hexec := exec_maskmovq_completes (d := d) (m := m) hready ha (by simp [hnone]) htext
  simpa [hnone, storeRecords] using hexec

/-- MASKMOVQ raises the exception of its window's checks where that counts (60_exceptions.md R133). -/
theorem exec_maskmovq_of_check_error {p : Pfx} {d m : MmReg} {s : State} {x : Exn} (hready : MmxReady s)
    (hc : checkCounts s (.maskmovq p d m) = true)
    (ha : accessCheck s.cpu (maskmovSeg p) (maskmovOffset s.cpu p) 8 .write = .error x) :
    exec (.maskmovq p d m) s = .fault (faultOf x s.cpu.pc) := by
  have hstore : s.storeSelected (maskmovSeg p) (maskmovOffset s.cpu p) (s.mm d) (s.mm m) = .error (raise x s) := by
    simp [State.storeSelected, (access_eq_error ..).mpr ⟨x, ha, rfl⟩]
  have hwrite := (memWriteMasked_error hstore).trans (if_pos hc)
  simp [exec, execMaskmovq, mmxChecks_ready hready, hwrite]

/-- Settles O31: no cell is selected, so that only the window's checks and its program text can stop the store, and they
do only where `maskmov_zero_mask_faults` is true. -/
theorem maskmovqWithZeroMask : Obligations.MaskmovqWithZeroMask := by
  intro p d m s hready hzero unchanged
  have hmask : byteMask (s.mm m) = 0 := (byteMask_eq_zero _).mpr hzero
  have hcounts (hfaults : Config.maskmovZeroMaskFaults = true) : checkCounts s (.maskmovq p d m) = true := by
    simp [checkCounts, hfaults]
  refine ⟨fun ps ha => ?_, fun x ha => ?_⟩
  · split
    · rename_i hstop
      obtain ⟨hfaults, htext⟩ := hstop
      have hdevice : ∀ q ∈ (selectedCells (s.mm m) 0 (quadCells ps (s.mm d))).map Prod.fst, s.inDevice q = false := by
        simp [selectedCells_zero hmask]
      obtain ⟨q, hq, hqtext, hstore⟩ := store_of_text false hdevice htext
      exact ⟨q, hq, hqtext, exec_maskmovq_of_store_error hready ha (hcounts hfaults) hstore⟩
    · rename_i hgo
      refine ⟨s.retireMmx (lengthOf p 0 0), ?_, rfl, rfl⟩
      cases hfaults : Config.maskmovZeroMaskFaults with
      | false => exact exec_maskmovq_of_zeroMask hready hmask hfaults
      | true =>
        refine exec_maskmovq_of_zeroMask_of_access hready hmask ha fun q hq => ?_
        exact Bool.eq_false_iff.mpr fun htext => hgo ⟨hfaults, q, hq, htext⟩
  · split
    · rename_i hfaults
      exact exec_maskmovq_of_check_error hready (hcounts hfaults) ha
    · rename_i hfaults
      exact ⟨_, exec_maskmovq_of_zeroMask hready hmask (Bool.eq_false_iff.mpr hfaults), rfl, rfl⟩

end Sys2Proof.Machine
end

section
/-! SUPPORT. What the packed integer instructions of 42_packed_integer_a.md leave in their destination (R97 to R108),
and why an instruction that accesses no operand can stop (R110; 60_exceptions.md R131). -/

namespace Sys2Proof.Machine

open Sys2Proof

/-! ## The lane functions as numbers -/

theorem avgByte_toNat (a b : Byte) : (avgByte a b).toNat = (a.toNat + b.toNat + 1) / 2 := by
  have ha : a.toNat < 2 ^ 8 := a.isLt
  have hb : b.toNat < 2 ^ 8 := b.isLt
  exact (BitVec.toNat_ofNat ..).trans (Nat.mod_eq_of_lt (by omega))

theorem avgWord_toNat (a b : Word16) : (avgWord a b).toNat = (a.toNat + b.toNat + 1) / 2 := by
  have ha : a.toNat < 2 ^ 16 := a.isLt
  have hb : b.toNat < 2 ^ 16 := b.isLt
  exact (BitVec.toNat_ofNat ..).trans (Nat.mod_eq_of_lt (by omega))

theorem maxUnsignedByte_toNat (a b : Byte) : (maxUnsignedByte a b).toNat = max a.toNat b.toNat := by
  rw [maxUnsignedByte, apply_ite BitVec.toNat, max_comm, max_def_lt]

theorem minUnsignedByte_toNat (a b : Byte) : (minUnsignedByte a b).toNat = min a.toNat b.toNat := by
  rw [minUnsignedByte, apply_ite BitVec.toNat, min_def]

theorem maxSignedWord_toInt (a b : Word16) : (maxSignedWord a b).toInt = max a.toInt b.toInt := by
  rw [maxSignedWord, apply_ite BitVec.toInt, max_comm, max_def_lt]

theorem minSignedWord_toInt (a b : Word16) : (minSignedWord a b).toInt = min a.toInt b.toInt := by
  rw [minSignedWord, apply_ite BitVec.toInt, min_def]

/-- A product of two words is below `2^32`, so that its upper half is a word (R108). -/
theorem mulHighWord_toNat (a b : Word16) : (mulHighWord a b).toNat = a.toNat * b.toNat / 2 ^ 16 :=
  (BitVec.toNat_ofNat ..).trans (Nat.mod_eq_of_lt (Nat.div_lt_of_lt_mul (Nat.mul_lt_mul'' a.isLt b.isLt)))

theorem wordIndex_eq (imm : Byte) : wordIndex imm = imm.toNat % 4 := by
  simp [wordIndex, BitVec.extractLsb'_toNat]

theorem wordLane_toNat (v : Quad) (k : Nat) : (wordLane v k).toNat = v.toNat / 2 ^ (16 * k) % 2 ^ 16 := by
  rw [wordLane, BitVec.extractLsb'_toNat, Nat.shiftRight_eq_div_pow]

theorem wordLane_insertWord (v : Quad) (n : Nat) (w : Word16) {k : Nat} (hk : k < 4) :
    wordLane (insertWord v n w) k = if k = n then w else wordLane v k :=
  wordLane_ofWordLanes _ hk

/-! ## Completion -/

section

variable {p : Pfx} {d : MmReg} {src : RM MmReg} {s : State} {v : Quad}

/-- An instruction that works on byte lanes leaves in each lane its function of the two source lanes (R97). -/
theorem mmxCompute_mapBytes (f : Byte → Byte → Byte) (hready : MmxReady s) (hv : quadSource s p src = .ok v) :
    ∃ t, mmxCompute (mapBytes f) p d src 0 s = .next t ∧
      ∀ k < 8, byteLane (t.mm d) k = f (byteLane (s.mm d) k) (byteLane v k) := by
  obtain ⟨t, ht, hmm⟩ := mmxCompute_completes (d := d) (last := 0) (mapBytes f) hready hv
  exact ⟨t, ht, fun k hk => hmm ▸ byteLane_mapBytes f _ _ hk⟩

/-- An instruction that works on word lanes leaves in each lane its function of the two source lanes (R97). -/
theorem mmxCompute_mapWords (f : Word16 → Word16 → Word16) (hready : MmxReady s) (hv : quadSource s p src = .ok v) :
    ∃ t, mmxCompute (mapWords f) p d src 0 s = .next t ∧
      ∀ k < 4, wordLane (t.mm d) k = f (wordLane (s.mm d) k) (wordLane v k) := by
  obtain ⟨t, ht, hmm⟩ := mmxCompute_completes (d := d) (last := 0) (mapWords f) hready hv
  exact ⟨t, ht, fun k hk => hmm ▸ wordLane_mapWords f _ _ hk⟩

theorem execPextrw_completes {x : IntReg} {r : MmReg} {imm : Byte} (hready : MmxReady s) :
    ∃ t, execPextrw p x r imm s = .next t ∧ t.x x = (wordLane (s.mm r) (wordIndex imm)).setWidth 32 :=
  ⟨_, (execPextrw_eq_next ..).mpr ⟨hready, rfl⟩, by simp⟩

theorem execPmovmskb_completes {x : IntReg} {r : MmReg} (hready : MmxReady s) :
    ∃ t, execPmovmskb p x r s = .next t ∧ t.x x = (byteMask (s.mm r)).setWidth 32 :=
  ⟨_, (execPmovmskb_eq_next ..).mpr ⟨hready, rfl⟩, by simp⟩

theorem execPinsrw_completes {source : RM IntReg} {imm : Byte} {w : Word16} (hready : MmxReady s)
    (hw : wordSource s p source = .ok w) :
    ∃ t, execPinsrw p d source imm s = .next t ∧ t.mm d = insertWord (s.mm d) (wordIndex imm) w :=
  ⟨_, (execPinsrw_eq_next ..).mpr ⟨hready, w, hw, rfl⟩, by simp⟩

end

theorem wordSource_reg (s : State) (p : Pfx) (r : IntReg) : wordSource s p (.reg r) = .ok ((s.x r).setWidth 16) := rfl

/-! ## The instructions -/

/-- Settles O16: the sum of two lanes and 1, halved, fits in a lane, so that no bit of it is lost. -/
theorem packedAveragesRoundUp : Obligations.PackedAveragesRoundUp := by
  intro p d src s v hready hv
  obtain ⟨t, ht, hbytes⟩ := mmxCompute_mapBytes (d := d) avgByte hready hv
  obtain ⟨u, hu, hwords⟩ := mmxCompute_mapWords (d := d) avgWord hready hv
  exact ⟨⟨t, ht, fun k hk => by rw [hbytes k hk, avgByte_toNat]⟩,
    u, hu, fun k hk => by rw [hwords k hk, avgWord_toNat]⟩

/-- Settles O17: in each lane the comparison that selects a source lane is the one of the order of its numbers. -/
theorem packedMaximaAndMinima : Obligations.PackedMaximaAndMinima := by
  intro p d src s v hready hv
  obtain ⟨tmaxub, hmaxub, maxBytes⟩ := mmxCompute_mapBytes (d := d) maxUnsignedByte hready hv
  obtain ⟨tminub, hminub, minBytes⟩ := mmxCompute_mapBytes (d := d) minUnsignedByte hready hv
  obtain ⟨tmaxsw, hmaxsw, maxWords⟩ := mmxCompute_mapWords (d := d) maxSignedWord hready hv
  obtain ⟨tminsw, hminsw, minWords⟩ := mmxCompute_mapWords (d := d) minSignedWord hready hv
  exact ⟨⟨tmaxub, hmaxub, fun k hk => by rw [maxBytes k hk, maxUnsignedByte_toNat]⟩,
    ⟨tminub, hminub, fun k hk => by rw [minBytes k hk, minUnsignedByte_toNat]⟩,
    ⟨tmaxsw, hmaxsw, fun k hk => by rw [maxWords k hk, maxSignedWord_toInt]⟩,
    tminsw, hminsw, fun k hk => by rw [minWords k hk, minSignedWord_toInt]⟩

/-- Settles O18: each lane is the upper half of the product of its two source lanes. -/
theorem pmulhuwKeepsTheHighHalf : Obligations.PmulhuwKeepsTheHighHalf := by
  intro p d src s v hready hv
  obtain ⟨t, ht, hwords⟩ := mmxCompute_mapWords (d := d) mulHighWord hready hv
  exact ⟨t, ht, fun k hk => by rw [hwords k hk, mulHighWord_toNat]⟩

/-- Settles O21: the word, and the byte of top bits, keep their value in the wider register. -/
theorem extractsZeroExtend : Obligations.ExtractsZeroExtend := by
  intro p d r imm s hready
  obtain ⟨t, ht, htx⟩ := execPextrw_completes (p := p) (x := d) (r := r) (imm := imm) hready
  obtain ⟨u, hu, hux⟩ := execPmovmskb_completes (p := p) (x := d) (r := r) hready
  refine ⟨⟨t, ht, ?_⟩, u, hu, fun k hk => ?_⟩
  · rw [htx, BitVec.toNat_setWidth_of_le (by decide), wordLane_toNat, wordIndex_eq]
  · rw [hux, BitVec.getLsbD_setWidth, decide_eq_true hk, Bool.true_and, getLsbD_byteMask]

/-- Settles O22: the destination's words are the old ones but for the one that the immediate names, and a register's
word is its low half. -/
theorem pinsrwReplacesOneWord : Obligations.PinsrwReplacesOneWord := by
  intro p d src imm s w hready hw
  obtain ⟨t, ht, hmm⟩ := execPinsrw_completes (d := d) (imm := imm) hready hw
  refine ⟨⟨t, ht, fun k hk => ?_⟩, ?_⟩
  · rw [hmm, wordLane_insertWord _ _ _ hk, wordIndex_eq]
  · rintro r rfl
    rw [wordSource_reg] at hw
    rw [← Except.ok.inj hw, BitVec.toNat_setWidth]

/-! ## Instructions that access no operand -/

/-- What stops `MMXChecks` is one of its three exceptions (60_exceptions.md R131). -/
theorem mmxChecks_stops {s : State} {e : Stop} (h : mmxChecks s = .error e) :
    ∃ x ∈ [Exn.invalidOpcode, .deviceNotAvailable, .fpPending], e = raise x s := by
  rcases mmxChecks_cases s with ⟨_, hx⟩ | ⟨_, _, hx⟩ | ⟨_, _, _, hx⟩ | ⟨_, hok⟩
  · exact ⟨.invalidOpcode, by simp, Except.error.inj (h.symm.trans hx)⟩
  · exact ⟨.deviceNotAvailable, by simp, Except.error.inj (h.symm.trans hx)⟩
  · exact ⟨.fpPending, by simp, Except.error.inj (h.symm.trans hx)⟩
  · cases h.symm.trans hok

/-- An instruction that accesses no operand completes, or raises one of the three exceptions of `MMXChecks` (R110). -/
theorem exec_of_no_memoryOperand {i : Instr} {s : State} (h : memoryOperand s i = none) :
    (∃ t, exec i s = .next t) ∨
      ∃ x ∈ [Exn.invalidOpcode, .deviceNotAvailable, .fpPending], exec i s = .fault (faultOf x s.cpu.pc) := by
  rcases exec_completes_or_stops i s with hnext | ⟨_, e, hstop, hchecks | ⟨_, o, ho, _⟩⟩
  · exact .inl hnext
  · obtain ⟨x, hx, rfl⟩ := mmxChecks_stops hchecks
    exact .inr ⟨x, hx, hstop⟩
  · cases h.symm.trans ho

/-- Settles O50: without an operand there is no access that can stop, so that only `MMXChecks` can. -/
theorem registerFormsRaiseNoMemoryException : Obligations.RegisterFormsRaiseNoMemoryException := by
  intro i s hnone
  rcases exec_of_no_memoryOperand hnone with ⟨t, ht⟩ | ⟨x, hx, hfault⟩
  · rw [ht]
    exact ⟨nofun, nofun⟩
  · rw [hfault]
    refine ⟨fun f hf => ?_, nofun⟩
    obtain rfl := Host.Outcome.fault.inj hf
    exact List.mem_map_of_mem (f := (faultOf · s.cpu.pc)) hx

end Sys2Proof.Machine
end

section
/-! SUPPORT. The prefetch hints complete in every state (43_prefetch.md R113, R115). -/

namespace Sys2Proof.Machine

open Sys2Proof

/-- A prefetch hint makes no access and no check: it passes its own bytes, in whatever state (R113). -/
theorem exec_of_prefetch {p : Pfx} {m : MemRef} {i : Instr}
    (hi : i ∈ [Instr.prefetchnta p m, .prefetcht0 p m, .prefetcht1 p m, .prefetcht2 p m]) (s : State) :
    exec i s = .next (s.advance (instrLength i)) := by
  simp only [List.mem_cons, List.not_mem_nil, or_false] at hi
  rcases hi with rfl | rfl | rfl | rfl
  all_goals exact prefetchHint_eq p m s

/-- Settles O33: each prefetch is `advance` over its length, which is that of its encoding. -/
theorem prefetchesOnlyAdvance : Obligations.PrefetchesOnlyAdvance := by
  intro p m s i hi
  rw [exec_of_prefetch hi, length_encode, State.advance]

end Sys2Proof.Machine
end

section
/-! SUPPORT. What PSADBW and PSHUFW leave in their destination (44_packed_integer_b.md R118, R119). -/

namespace Sys2Proof.Machine

open Sys2Proof

/-! ## Sums of absolute differences (R118) -/

theorem absDiff_eq_natAbs (a b : Byte) : absDiff a b = ((a.toNat : Int) - b.toNat).natAbs := by
  unfold absDiff
  split <;> omega

theorem absDiff_le (a b : Byte) : absDiff a b ≤ 255 := by
  have ha : a.toNat < 2 ^ 8 := a.isLt
  have hb : b.toNat < 2 ^ 8 := b.isLt
  rw [absDiff_eq_natAbs]
  omega

theorem sumAbsDiff_eq_sum (a b : Quad) (n : Nat) :
    sumAbsDiff a b n =
      ((List.range n).map fun k => (((byteLane a k).toNat : Int) - (byteLane b k).toNat).natAbs).sum := by
  induction n with
  | zero => rfl
  | succ n ih => rw [sumAbsDiff, ih, absDiff_eq_natAbs, List.sum_range_succ]

theorem sumAbsDiff_le (a b : Quad) (n : Nat) : sumAbsDiff a b n ≤ 255 * n := by
  induction n with
  | zero => exact le_rfl
  | succ n ih => exact Nat.add_le_add ih (absDiff_le ..)

/-- Eight differences of bytes add up to at most 2040, so that the 16 bits kept of the sum are the whole sum. -/
theorem sadBytes_toNat (a b : Quad) : (sadBytes a b).toNat = sumAbsDiff a b 8 := by
  have hsum : sumAbsDiff a b 8 ≤ 255 * 8 := sumAbsDiff_le a b 8
  rw [sadBytes, BitVec.toNat_setWidth_of_le (by decide), BitVec.toNat_ofNat]
  exact Nat.mod_eq_of_lt (by omega)

/-! ## Shuffled words (R119) -/

theorem shuffleSelector_eq (imm : Byte) (k : Nat) : shuffleSelector imm k = imm.toNat / 4 ^ k % 4 := by
  rw [shuffleSelector, BitVec.extractLsb'_toNat, Nat.shiftRight_eq_div_pow, Nat.pow_mul]

theorem wordLane_shuffleWords (v : Quad) (imm : Byte) {k : Nat} (hk : k < 4) :
    wordLane (shuffleWords v imm) k = wordLane v (shuffleSelector imm k) :=
  wordLane_ofWordLanes _ hk

/-! ## The instructions -/

/-- Settles O19: the destination is the sum of the eight differences, of which no bit is lost. -/
theorem psadbwSumsAbsoluteDifferences : Obligations.PsadbwSumsAbsoluteDifferences := by
  intro p d src s v hready hv
  obtain ⟨t, ht, hmm⟩ := mmxCompute_completes (d := d) (last := 0) sadBytes hready hv
  have hsum : (t.mm d).toNat = sumAbsDiff (s.mm d) v 8 := by rw [hmm, sadBytes_toNat]
  exact ⟨t, ht, hsum.trans (sumAbsDiff_eq_sum ..), hsum.trans_le (sumAbsDiff_le ..)⟩

/-- Settles O20: the source's value is fixed before the destination is written, so it may be the destination. -/
theorem pshufwSelectsWords : Obligations.PshufwSelectsWords := by
  intro p d src imm s v hready hv
  obtain ⟨t, ht, hmm⟩ := mmxCompute_completes (d := d) (last := 1) (fun _ v => shuffleWords v imm) hready hv
  exact ⟨t, ht, fun k hk => by rw [hmm, wordLane_shuffleWords v imm hk, shuffleSelector_eq]⟩

end Sys2Proof.Machine
end

section
/-! SUPPORT. SFENCE completes in every state (45_sfence.md R121, R122). -/

namespace Sys2Proof.Machine

open Sys2Proof

/-- SFENCE makes no access and no check: it starts an epoch and passes its own bytes, in whatever state (R121). -/
theorem exec_sfence (p : Pfx) (s : State) :
    exec (.sfence p) s = .next (s.bumpEpoch.advance (instrLength (.sfence p))) :=
  execSfence_eq p s

/-- Settles O34: the fence is `bumpEpoch`, then `advance` over its length, which is that of its encoding. -/
theorem sfenceAlwaysCompletes : Obligations.SfenceAlwaysCompletes := by
  intro p s
  rw [exec_sfence, length_encode, State.advance, State.bumpEpoch]

end Sys2Proof.Machine
end

section
/-! SUPPORT. Which exceptions an instruction raises, and when (60_exceptions.md R126 to R133). -/

namespace Sys2Proof.Machine

open Sys2Proof

/-! ## A fault names its exception and its place (R133) -/

/-- The exception that a fault stands for. -/
def Fault.exn : Fault → Exn
  | .invalidOpcode _ => .invalidOpcode
  | .deviceNotAvailable _ => .deviceNotAvailable
  | .stackException _ => .stackException
  | .generalProtection _ => .generalProtection
  | .segmentOverrun _ => .segmentOverrun
  | .pageFault lin _ => .pageFault lin
  | .fpPending _ => .fpPending
  | .alignmentCheck _ => .alignmentCheck

/-- The `pc` that a fault holds. -/
def Fault.pc : Fault → Dword
  | .invalidOpcode pc | .deviceNotAvailable pc | .stackException pc | .generalProtection pc | .segmentOverrun pc
  | .pageFault _ pc | .fpPending pc | .alignmentCheck pc => pc

@[simp] theorem Fault.exn_faultOf (x : Exn) (q : Dword) : (faultOf x q).exn = x := by cases x <;> rfl

@[simp] theorem Fault.pc_faultOf (x : Exn) (q : Dword) : (faultOf x q).pc = q := by cases x <;> rfl

theorem faultOf_inj {x y : Exn} {q r : Dword} (h : faultOf x q = faultOf y r) : x = y ∧ q = r :=
  ⟨by simpa using congrArg Fault.exn h, by simpa using congrArg Fault.pc h⟩

theorem raise_inj {x y : Exn} {s : State} (h : raise x s = raise y s) : x = y :=
  (faultOf_inj (Stop.fault.inj h)).1

/-! ## MMXChecks (R127 to R129, R131) -/

/-- The exceptions of `MMXChecks`. -/
abbrev mmxExceptions : List Exn := [.invalidOpcode, .deviceNotAvailable, .fpPending]

theorem mmxChecks_eq_invalidOpcode_iff (s : State) :
    mmxChecks s = .error (raise .invalidOpcode s) ↔ s.cpu.em = true := by
  rcases mmxChecks_cases s with ⟨hem, h⟩ | ⟨hem, _, h⟩ | ⟨hem, _, _, h⟩ | ⟨⟨hem, _⟩, h⟩
  all_goals simp [h, hem, raise, faultOf]

theorem mmxChecks_eq_deviceNotAvailable_iff (s : State) :
    mmxChecks s = .error (raise .deviceNotAvailable s) ↔ s.cpu.em = false ∧ s.cpu.ts = true := by
  rcases mmxChecks_cases s with ⟨hem, h⟩ | ⟨hem, hts, h⟩ | ⟨hem, hts, _, h⟩ | ⟨⟨hem, hts, _⟩, h⟩
  all_goals simp [*, raise, faultOf]

theorem mmxChecks_eq_fpPending_iff (s : State) :
    mmxChecks s = .error (raise .fpPending s) ↔
      s.cpu.em = false ∧ s.cpu.ts = false ∧ s.cpu.fpPending = true := by
  rcases mmxChecks_cases s with ⟨hem, h⟩ | ⟨hem, hts, h⟩ | ⟨hem, hts, hfp, h⟩ | ⟨⟨hem, hts, hfp⟩, h⟩
  all_goals simp [*, raise, faultOf]

theorem mmxCompute_of_checks_error {s : State} {e : Stop} (h : mmxChecks s = .error e) (f : Quad → Quad → Quad)
    (p : Pfx) (d : MmReg) (src : RM MmReg) (last : Nat) : mmxCompute f p d src last s = conclude (.error e) := by
  simp [mmxCompute, h]

/-- `MMXChecks` comes before anything else that an instruction does, in all but the five that run no check (R131). -/
theorem exec_of_checks_error {i : Instr} {s : State} {e : Stop} (hr : runsNoCheck i = false)
    (h : mmxChecks s = .error e) : exec i s = conclude (.error e) := by
  cases i with
  | pfnacc | pfpnacc | pavgb | pavgw | pmaxsw | pmaxub | pminsw | pminub | pmulhuw | psadbw =>
    all_goals exact mmxCompute_of_checks_error h ..
  | pi2fw => exact mmxCompute_of_checks_error h (fun _ v => intsToFloats v) ..
  | pswapd => exact mmxCompute_of_checks_error h (fun _ v => swapDwords v) ..
  | pshufw p d src imm => exact mmxCompute_of_checks_error h (fun _ v => shuffleWords v imm) ..
  | pf2iw => simp [exec, execPf2iw, h]
  | pinsrw => simp [exec, execPinsrw, h]
  | pextrw => simp [exec, execPextrw, h]
  | pmovmskb => simp [exec, execPmovmskb, h]
  | movntq => simp [exec, execMovntq, h]
  | maskmovq => simp [exec, execMaskmovq, h]
  | prefetchnta | prefetcht0 | prefetcht1 | prefetcht2 | sfence => all_goals cases hr

/-! ## Where a fault comes from -/

/-- A fault is that of `MMXChecks`, or of the checks of the operand that an instruction accesses (R130, R131). -/
theorem exec_fault_cases {i : Instr} {s : State} {f : Fault} (h : exec i s = .fault f) :
    ∃ x, f = faultOf x s.cpu.pc ∧ runsNoCheck i = false ∧
      ((x ∈ mmxExceptions ∧ mmxChecks s = .error (raise x s)) ∨
        ∃ o, memoryOperand s i = some o ∧ accessCheck s.cpu o.seg o.off o.size o.kind = .error x) := by
  rcases exec_completes_or_stops i s with ⟨t, ht⟩ | ⟨hr, e, hstop, hwhy⟩
  · cases ht.symm.trans h
  · have he : e = .fault f := Except.error.inj ((conclude_eq_fault ..).mp (hstop.symm.trans h))
    rcases hwhy with hchecks | ⟨_, o, ho, hstops⟩
    · obtain ⟨x, hx, hraise⟩ := mmxChecks_stops hchecks
      exact ⟨x, Stop.fault.inj (he.symm.trans hraise), hr, .inl ⟨hx, hraise ▸ hchecks⟩⟩
    · cases hstops with
      | check x hcheck _ hraise => exact ⟨x, Stop.fault.inj (he.symm.trans hraise), hr, .inr ⟨o, ho, hcheck⟩⟩
      | device _ _ _ _ _ hrefused => cases he.symm.trans hrefused
      | text _ _ _ _ _ _ _ hrefused => cases he.symm.trans hrefused

/-- The checks of an operand raise none of the exceptions of `MMXChecks` (R130). -/
theorem accessCheck_ne_mmxException {x : Exn} (hx : x ∈ mmxExceptions) (a : Agent) (seg : Seg) (off : Dword) (n : Nat)
    (kind : Access) : accessCheck a seg off n kind ≠ .error x := by
  intro h
  rcases accessCheck_error_cases a seg off n kind x h with ⟨_, rfl | rfl⟩ | ⟨_, rfl⟩ | ⟨_, rfl⟩ | ⟨_, lin, rfl⟩
  all_goals simp at hx

/-- An exception of `MMXChecks` is raised by exactly the instructions that run it, exactly where it answers that. -/
theorem exec_raises_mmxException_iff {x : Exn} (hx : x ∈ mmxExceptions) (i : Instr) (s : State) (q : Dword) :
    exec i s = .fault (faultOf x q) ↔
      runsNoCheck i = false ∧ mmxChecks s = .error (raise x s) ∧ q = s.cpu.pc := by
  constructor
  · intro h
    obtain ⟨y, hf, hr, hwhy⟩ := exec_fault_cases h
    obtain ⟨rfl, hq⟩ := faultOf_inj hf
    rcases hwhy with ⟨_, hchecks⟩ | ⟨o, _, hcheck⟩
    · exact ⟨hr, hchecks, hq⟩
    · exact absurd hcheck (accessCheck_ne_mmxException hx s.cpu o.seg o.off o.size o.kind)
  · rintro ⟨hr, hchecks, rfl⟩
    exact exec_of_checks_error hr hchecks

/-- Settles O39: the first of the three checks. -/
theorem invalidOpcodeExactlyWhenEmIsSet : Obligations.InvalidOpcodeExactlyWhenEmIsSet := by
  intro i s q
  rw [← mmxChecks_eq_invalidOpcode_iff]
  exact exec_raises_mmxException_iff (x := .invalidOpcode) (by simp) i s q

/-- Settles O40: the second of the three checks, reached where the first holds. -/
theorem deviceNotAvailableExactlyWhenTsIsSet : Obligations.DeviceNotAvailableExactlyWhenTsIsSet := by
  intro i s q
  have h := exec_raises_mmxException_iff (x := .deviceNotAvailable) (by simp) i s q
  rwa [mmxChecks_eq_deviceNotAvailable_iff, and_assoc] at h

/-- The third of the three checks, reached where the other two hold (R129). -/
theorem exec_eq_fpPending_iff (i : Instr) (s : State) (q : Dword) :
    exec i s = .fault (.fpPending q) ↔
      runsNoCheck i = false ∧ s.cpu.em = false ∧ s.cpu.ts = false ∧ s.cpu.fpPending = true ∧ q = s.cpu.pc := by
  have h := exec_raises_mmxException_iff (x := .fpPending) (by simp) i s q
  rwa [mmxChecks_eq_fpPending_iff, and_assoc, and_assoc] at h

/-! ## Runs without a pending x87 exception (R129; log 35) -/

/-- No x87 exception is pending, and the run has not ended with one. -/
def Agent.NoFpPending (a : Agent) : Prop := a.fpPending = false ∧ ∀ q, a.ended ≠ some (.raised (.fpPending q))

theorem Agent.NoFpPending.congr {a b : Agent} (h : a.NoFpPending) (hfp : b.fpPending = a.fpPending)
    (hended : b.ended = a.ended) : b.NoFpPending := by
  rwa [Agent.NoFpPending, hfp, hended]

theorem outcome_eq_fault_iff (e : Ending) (f : Fault) : e.outcome = .fault f ↔ e = .raised f := by
  cases e <;> simp [Ending.outcome]

theorem ofOutcome_eq_raised_iff (o : Host.Outcome State Fault Refusal) (f : Fault) :
    Ending.ofOutcome o = some (.raised f) ↔ o = .fault f := by
  cases o <;> simp [Ending.ofOutcome]

/-- A fault of an instruction step is the decoded instruction's. -/
theorem exec_of_runInstruction_fault {s : State} {f : Fault} (h : s.runInstruction = .fault f) :
    ∃ i, exec i s = .fault f := by
  unfold State.runInstruction at h
  split at h
  · rename_i i _ _
    split at h
    · cases h
    · exact ⟨i, h⟩
  · split at h <;> cases h
  · cases h

theorem nextEnding_ne_fpPending {s : State} (h : s.cpu.fpPending = false) (q : Dword) :
    s.nextEnding ≠ some (.raised (.fpPending q)) := by
  intro hend
  unfold State.nextEnding at hend
  split at hend
  · cases hend
  · obtain ⟨i, hi⟩ := exec_of_runInstruction_fault ((ofOutcome_eq_raised_iff ..).mp hend)
    obtain ⟨_, _, _, hfp, _⟩ := (exec_eq_fpPending_iff ..).mp hi
    exact Bool.false_ne_true (h.symm.trans hfp)

/-- A turn of an agent without a pending x87 exception raises none. -/
theorem runAgent_ne_fpPending {s : State} (h : s.cpu.fpPending = false) (q : Dword) :
    s.runAgent ≠ .fault (.fpPending q) := by
  intro hrun
  unfold State.runAgent at hrun
  split at hrun
  · cases hrun
  · split at hrun
    · rename_i hnone
      obtain ⟨_, _, t, ht⟩ := (nextEnding_eq_none s).mp hnone
      cases ht.symm.trans hrun
    · rename_i e he
      unfold State.stop at hrun
      split at hrun
      · rw [(outcome_eq_fault_iff ..).mp hrun] at he
        exact nextEnding_ne_fpPending h q he
      · cases hrun

/-- An action of the memory system or of another agent changes of no agent whether an x87 exception is pending, or how
its run has ended. -/
theorem happen_agents (s : State) (e : Event) :
    ∀ b ∈ (s.happen e).agents, ∃ a ∈ s.agents, b.fpPending = a.fpPending ∧ b.ended = a.ended := by
  intro b hb
  cases e with
  | run => exact ⟨b, hb, rfl, rfl⟩
  | resume k =>
    refine ⟨b, ?_, rfl, rfl⟩
    rcases resume_cases s k with h | ⟨a, ha, h⟩
    · exact h ▸ hb
    · rw [State.happen, h] at hb
      rcases List.mem_cons.mp hb with rfl | hb
      · exact List.mem_cons_of_mem _ (List.mem_of_getElem? ha)
      · rcases List.mem_or_eq_of_mem_set hb with hb | rfl
        · exact List.mem_cons_of_mem _ hb
        · exact List.mem_cons_self
  | drain who i =>
    obtain ⟨v, hv⟩ := (mem_agents_iff _ b).mp hb
    obtain ⟨a, ha⟩ : ∃ a, s.agent v = some a := by
      rcases drain_cases s who i with h | ⟨c, start, n, hc, _, _, h⟩
      · exact ⟨b, h ▸ hv⟩
      · by_cases hw : v = who
        · exact ⟨c, hw ▸ hc⟩
        · exact ⟨b, (drained_agent_other start n hc hw).symm.trans (h ▸ hv)⟩
    refine ⟨a, (mem_agents_iff _ a).mpr ⟨v, ha⟩, ?_⟩
    rcases drain_agent s who i v a b ha hv with rfl | ⟨_, _, _, _, rfl⟩
    · exact ⟨rfl, rfl⟩
    · exact ⟨rfl, rfl⟩
  | early k p =>
    rcases List.mem_cons.mp hb with rfl | hb
    · exact ⟨s.cpu, List.mem_cons_self, rfl, rfl⟩
    · exact ⟨b, List.mem_cons_of_mem _ hb, rfl, rfl⟩
  | external p v =>
    refine ⟨b, ?_, rfl, rfl⟩
    rcases writeExternal_cases s p v with ⟨_, h⟩ | ⟨_, h⟩
    · exact h ▸ hb
    · rw [State.happen, h] at hb
      exact hb

theorem exec_keeps_noFpPending {i : Instr} {s t : State} (hs : ∀ a ∈ s.agents, a.NoFpPending)
    (h : exec i s = .next t) : ∀ a ∈ t.agents, a.NoFpPending := by
  obtain ⟨hcpu, hothers⟩ := List.forall_mem_cons.mp hs
  obtain ⟨_, _, _, hfp, _, _, _, _, hended, _, hsame, _⟩ := frameOfControlState i s t h
  exact List.forall_mem_cons.mpr ⟨hcpu.congr hfp hended, hsame ▸ hothers⟩

theorem endRun_keeps_noFpPending {s : State} {e : Ending} (hs : ∀ a ∈ s.agents, a.NoFpPending)
    (h : s.nextEnding = some e) : ∀ a ∈ (s.endRun e).agents, a.NoFpPending := by
  obtain ⟨hcpu, hothers⟩ := List.forall_mem_cons.mp hs
  exact List.forall_mem_cons.mpr
    ⟨⟨hcpu.1, fun q hq => nextEnding_ne_fpPending hcpu.1 q (h.trans hq)⟩, hothers⟩

/-- A step from agents without a pending x87 exception leaves agents without one. -/
theorem step_keeps_noFpPending {s t : State} (hs : ∀ a ∈ s.agents, a.NoFpPending) (h : step s = .next t) :
    ∀ a ∈ t.agents, a.NoFpPending := by
  have hu : ∀ a ∈ State.agents { s with schedule := s.schedule.tail }, a.NoFpPending := hs
  rcases turn_cases s with ⟨e, _, hturn⟩ | ⟨_, ⟨_, hturn⟩ | ⟨_, hturn⟩⟩
  · cases e.outcome_ne_next t (hturn.symm.trans h)
  · rcases runAgent_eq_next _ t (hturn.symm.trans h) with ⟨_, rfl⟩ | ⟨_, hrun | ⟨e, hend, _, rfl⟩⟩
    · exact hu
    · obtain ⟨i, _, _, _, hexec⟩ := (runInstruction_eq_next _ _).mp hrun
      exact exec_keeps_noFpPending hu hexec
    · exact endRun_keeps_noFpPending hu hend
  · obtain rfl := Host.Outcome.next.inj (hturn.symm.trans h)
    intro b hb
    obtain ⟨a, ha, hfp, hended⟩ := happen_agents _ _ b hb
    exact (hu a ha).congr hfp hended

/-- Settles O41: an agent's run ends with FpPending only by an instruction that raises it, and none does. -/
theorem fpPendingExactlyWhenPending : Obligations.FpPendingExactlyWhenPending := by
  refine ⟨exec_eq_fpPending_iff, ?_⟩
  intro s without hs
  refine ⟨fun q h => ?_, fun t => step_keeps_noFpPending hs⟩
  have hcpu : s.cpu.NoFpPending := hs s.cpu List.mem_cons_self
  rcases turn_cases s with ⟨e, hend, hturn⟩ | ⟨_, ⟨_, hturn⟩ | ⟨_, hturn⟩⟩
  · rw [(outcome_eq_fault_iff ..).mp (hturn.symm.trans h), State.completeEnding] at hend
    split at hend
    · exact hcpu.2 q hend
    · cases hend
  · exact runAgent_ne_fpPending (s := { s with schedule := s.schedule.tail }) hcpu.1 q (hturn.symm.trans h)
  · cases hturn.symm.trans h

/-! ## Failed checks of the operand (R130; 20_memory.md R39; 41_streaming_stores.md R93) -/

theorem memRead_of_check_error {s : State} {seg : Seg} {off : Dword} {n : Nat} {x : Exn}
    (h : accessCheck s.cpu seg off n .read = .error x) : memRead s seg off n = .error (raise x s) := by
  simp [memRead, (access_eq_error ..).mpr ⟨x, h, rfl⟩]

theorem exec_movntq_of_check_error {p : Pfx} {dst : MemRef} {r : MmReg} {s : State} {x : Exn} (hready : MmxReady s)
    (h : accessCheck s.cpu (operandSeg p dst) (effectiveAddress s.cpu dst) 8 .write = .error x) :
    exec (.movntq p dst r) s = .fault (faultOf x s.cpu.pc) := by
  simp [exec, execMovntq, mmxChecks_ready hready, memWrite, (access_eq_error ..).mpr ⟨x, h, rfl⟩]

/-- Settles O42: a source, MOVNTQ's destination and MASKMOVQ's window stop the instruction with their check's
exception. -/
theorem failedAccessCheckIsRaised : Obligations.FailedAccessCheckIsRaised := by
  intro i s o x hready ho hcounts h
  rcases memoryOperand_cases ho with hk | ⟨p, dst, r, rfl, rfl⟩ | ⟨p, d, m, rfl, rfl⟩
  · rw [hk] at h
    exact exec_of_memRead_error hready ho hk (memRead_of_check_error h)
  · exact exec_movntq_of_check_error hready h
  · exact exec_maskmovq_of_check_error hready hcounts h

/-! ## The exceptions of each mode (R126) -/

/-- Settles O49: `MMXChecks` raises its three exceptions in every mode, and the checks of an operand those of the
mode. -/
theorem faultsOfEachMode : Obligations.FaultsOfEachMode := by
  intro i s f h pc
  obtain ⟨x, rfl, _, ⟨hx, _⟩ | ⟨o, _, hcheck⟩⟩ := exec_fault_cases h
  · simp only [List.mem_cons, List.not_mem_nil, or_false] at hx
    rcases hx with rfl | rfl | rfl
    all_goals simp [faultOf, pc]
  · rcases accessCheck_error_cases _ _ _ _ _ x hcheck with ⟨hm, rfl | rfl⟩ | ⟨hm, rfl⟩ | ⟨hm, rfl⟩ | ⟨hm, lin, rfl⟩
    all_goals simp [hm, faultOf, pc]

end Sys2Proof.Machine
end

section
/-! SUPPORT. An instruction at another privilege level (60_exceptions.md R142; 10_state.md R22): the level enters the
alignment check, the rights of pages and, in protected mode, the low two bits of the CS selector, and nothing else. -/

namespace Sys2Proof.Machine

open Sys2Proof

/-! ## The agent at another privilege level -/

/-- The segment registers of the agent at another privilege level. -/
def Agent.segsAtCpl (a : Agent) (c : BitVec 2) : SegFile := (a.atCpl c).segs

theorem Agent.atCpl_eq (a : Agent) (c : BitVec 2) : a.atCpl c = { a with cpl := c, segs := a.segsAtCpl c } := by
  unfold Agent.segsAtCpl Agent.atCpl
  cases a.mode <;> rfl

theorem segsAtCpl_congr {a b : Agent} (hmode : b.mode = a.mode) (hsegs : b.segs = a.segs) (c : BitVec 2) :
    b.segsAtCpl c = a.segsAtCpl c := by
  unfold Agent.segsAtCpl Agent.atCpl
  rw [hmode]
  cases a.mode <;> simp [hsegs]

theorem segsAtCpl_of_not_protected {a : Agent} (h : a.mode ≠ .protectedMode) (c : BitVec 2) :
    a.segsAtCpl c = a.segs := by
  unfold Agent.segsAtCpl Agent.atCpl
  cases hm : a.mode with
  | protectedMode => exact absurd hm h
  | realAddress | virtual8086 => all_goals rfl

/-- Two segment registers that differ in the low two bits of the selector at most. -/
structure SegReg.SameButPrivilege (r q : SegReg) : Prop where
  index : r.selector.extractLsb' 2 14 = q.selector.extractLsb' 2 14
  base : r.base = q.base
  limit : r.limit = q.limit
  readable : r.readable = q.readable
  writable : r.writable = q.writable
  big : r.big = q.big

theorem segsAtCpl_get (a : Agent) (c : BitVec 2) (seg : Seg) :
    ((a.segsAtCpl c).get seg).SameButPrivilege (a.segs.get seg) := by
  unfold Agent.segsAtCpl Agent.atCpl
  cases a.mode with
  | realAddress | virtual8086 => all_goals exact ⟨rfl, rfl, rfl, rfl, rfl, rfl⟩
  | protectedMode =>
    cases seg with
    | cs => exact ⟨BitVec.extractLsb'_append_eq_left, rfl, rfl, rfl, rfl, rfl⟩
    | es | ss | ds | fs | gs => all_goals exact ⟨rfl, rfl, rfl, rfl, rfl, rfl⟩

@[simp] theorem Agent.atCpl_mm (a : Agent) (c : BitVec 2) : (a.atCpl c).mm = a.mm := by rw [a.atCpl_eq]
@[simp] theorem Agent.atCpl_x (a : Agent) (c : BitVec 2) : (a.atCpl c).x = a.x := by rw [a.atCpl_eq]
@[simp] theorem Agent.atCpl_pc (a : Agent) (c : BitVec 2) : (a.atCpl c).pc = a.pc := by rw [a.atCpl_eq]
@[simp] theorem Agent.atCpl_cr0 (a : Agent) (c : BitVec 2) : (a.atCpl c).cr0 = a.cr0 := by rw [a.atCpl_eq]
@[simp] theorem Agent.atCpl_mode (a : Agent) (c : BitVec 2) : (a.atCpl c).mode = a.mode := by rw [a.atCpl_eq]
@[simp] theorem Agent.atCpl_fpPending (a : Agent) (c : BitVec 2) : (a.atCpl c).fpPending = a.fpPending := by
  rw [a.atCpl_eq]
@[simp] theorem Agent.atCpl_eflagsAc (a : Agent) (c : BitVec 2) : (a.atCpl c).eflagsAc = a.eflagsAc := by
  rw [a.atCpl_eq]
@[simp] theorem Agent.atCpl_paging (a : Agent) (c : BitVec 2) : (a.atCpl c).paging = a.paging := by rw [a.atCpl_eq]
@[simp] theorem Agent.atCpl_pending (a : Agent) (c : BitVec 2) : (a.atCpl c).pending = a.pending := by rw [a.atCpl_eq]
@[simp] theorem Agent.atCpl_epoch (a : Agent) (c : BitVec 2) : (a.atCpl c).epoch = a.epoch := by rw [a.atCpl_eq]
@[simp] theorem Agent.atCpl_early (a : Agent) (c : BitVec 2) : (a.atCpl c).early = a.early := by rw [a.atCpl_eq]

/-! ## Operands (30_encoding.md R60 to R67) -/

@[simp] theorem effectiveAddress_atCpl (a : Agent) (c : BitVec 2) (m : MemRef) :
    effectiveAddress (a.atCpl c) m = effectiveAddress a m := by
  rw [a.atCpl_eq]
  rfl

theorem defaultAddrSize_atCpl (a : Agent) (c : BitVec 2) : defaultAddrSize (a.atCpl c) = defaultAddrSize a := by
  have hbig : (a.segsAtCpl c).cs.big = a.segs.cs.big := (segsAtCpl_get a c .cs).big
  rw [a.atCpl_eq]
  simp [defaultAddrSize, hbig]

@[simp] theorem maskmovOffset_atCpl (a : Agent) (c : BitVec 2) (p : Pfx) :
    maskmovOffset (a.atCpl c) p = maskmovOffset a p := by
  simp [maskmovOffset, defaultAddrSize_atCpl, lowWord]

/-! ## The checks (20_memory.md R35 to R37, R42) -/

theorem segBase_atCpl (a : Agent) (c : BitVec 2) (seg : Seg) : (a.atCpl c).segBase seg = a.segBase seg := by
  rw [a.atCpl_eq]
  by_cases hm : a.mode = .protectedMode
  · simp [Agent.segBase, hm, (segsAtCpl_get a c seg).base]
  · rw [segsAtCpl_of_not_protected hm]
    rfl

@[simp] theorem linear_atCpl (a : Agent) (c : BitVec 2) (seg : Seg) (off : Dword) (k : Nat) :
    (a.atCpl c).linear seg off k = a.linear seg off k := by
  simp [Agent.linear, segBase_atCpl]

/-- The segment check sees no privilege level: a null selector is one at any (20_memory.md R36). -/
theorem segCheck_atCpl (a : Agent) (c : BitVec 2) (seg : Seg) (off : Dword) (n : Nat) (kind : Access) :
    segCheck (a.atCpl c) seg off n kind = segCheck a seg off n kind := by
  have hsame := segsAtCpl_get a c seg
  have hpermits : ((a.segsAtCpl c).get seg).permits kind = (a.segs.get seg).permits kind := by
    cases kind with
    | read => exact hsame.readable
    | write => exact hsame.writable
  by_cases hm : a.mode = .protectedMode
  · rw [a.atCpl_eq]
    simp [segCheck, hm, SegReg.isNull, hsame.index, hsame.limit, hpermits]
  · rw [segCheck_of_not_protected hm, segCheck_of_not_protected (by simpa using hm)]

/-- Neither the alignment check nor the page check of the operand depends on the privilege level. -/
structure Agent.CplFree (a : Agent) (o : Operand) : Prop where
  aligned : a.eflagsAc = false ∨ a.cr0.getLsbD 18 = false ∨ a.mode = .realAddress ∨
    o.size ∣ (a.linear o.seg o.off 0).toNat
  rights : a.mode = .realAddress ∨ ∀ entries, a.paging = some entries → ∀ e ∈ entries,
    e.userRead = e.supervisorRead ∧ e.userWrite = e.supervisorWrite

theorem PageEntry.permits_of_same_rights {e : PageEntry}
    (h : e.userRead = e.supervisorRead ∧ e.userWrite = e.supervisorWrite) (kind : Access) (c d : BitVec 2) :
    e.permits kind c = e.permits kind d := by
  cases kind <;> simp [PageEntry.permits, h]

theorem physical_atCpl {a : Agent} {o : Operand} (h : a.CplFree o) (c : BitVec 2) (kind : Access) (lin : Dword) :
    (a.atCpl c).physical kind lin = a.physical kind lin := by
  by_cases hflat : a.mode = .realAddress ∨ a.paging = none
  · rw [physical_of_flat hflat, physical_of_flat (by simpa using hflat)]
  · obtain ⟨hm, hpaging⟩ := not_or.mp hflat
    obtain ⟨entries, hp⟩ := Option.ne_none_iff_exists'.mp hpaging
    have hrights := h.rights.resolve_left hm entries hp
    ext p
    rw [physical_eq_some_of_paging hm hp,
      physical_eq_some_of_paging (a := a.atCpl c) (by simpa using hm) (by simpa using hp)]
    refine exists_congr fun e => and_congr_right fun hfind => ?_
    rw [PageEntry.permits_of_same_rights (hrights e (List.mem_of_find?_eq_some hfind)) kind _ a.cpl]

theorem pageCheck_atCpl {a : Agent} {o : Operand} (h : a.CplFree o) (c : BitVec 2) (seg : Seg) (off : Dword)
    (kind : Access) (k n : Nat) : pageCheck (a.atCpl c) seg off kind k n = pageCheck a seg off kind k n := by
  induction n generalizing k with
  | zero => rfl
  | succ n ih => simp only [pageCheck, linear_atCpl, physical_atCpl h, ih]

/-- The alignment check is off or the operand is aligned, at whatever privilege level (20_memory.md R37). -/
theorem alignFault_of_cplFree {a : Agent} {o : Operand} (h : a.CplFree o) :
    alignFault a (a.linear o.seg o.off 0) o.size = false := by
  rw [Bool.eq_false_iff, Ne, alignFault_iff]
  rintro ⟨hm, ham, _, hac, hunaligned⟩
  rcases h.aligned with hoff | hoff | hoff | haligned
  · exact Bool.false_ne_true (hoff.symm.trans hac)
  · exact Bool.false_ne_true (hoff.symm.trans ham)
  · exact hm hoff
  · exact hunaligned haligned

theorem Agent.CplFree.atCpl {a : Agent} {o : Operand} (h : a.CplFree o) (c : BitVec 2) : (a.atCpl c).CplFree o :=
  ⟨by simpa using h.aligned, by simpa using h.rights⟩

theorem accessCheck_atCpl {a : Agent} {o : Operand} (h : a.CplFree o) (c : BitVec 2) :
    accessCheck (a.atCpl c) o.seg o.off o.size o.kind = accessCheck a o.seg o.off o.size o.kind := by
  simp only [accessCheck, Machine.translate, segCheck_atCpl, pageCheck_atCpl h, alignFault_of_cplFree h,
    alignFault_of_cplFree (h.atCpl c)]

/-! ## The operations on the state -/

@[simp] theorem State.atCpl_cpu (s : State) (c : BitVec 2) : (s.atCpl c).cpu = s.cpu.atCpl c := rfl
@[simp] theorem State.atCpl_draws (s : State) (c : BitVec 2) : (s.atCpl c).draws = s.draws := rfl

@[simp] theorem State.atCpl_mm_get (s : State) (c : BitVec 2) (r : MmReg) : (s.atCpl c).mm r = s.mm r := by
  simp [State.mm]

@[simp] theorem State.atCpl_x_get (s : State) (c : BitVec 2) (r : IntReg) : (s.atCpl c).x r = s.x r := by
  simp [State.x]

/-- The state with another privilege level and other segment registers of the running agent. -/
def State.setLevel (s : State) (c : BitVec 2) (segs : SegFile) : State :=
  { s with cpu := { s.cpu with cpl := c, segs := segs } }

theorem State.atCpl_eq (s : State) (c : BitVec 2) : s.atCpl c = s.setLevel c (s.cpu.segsAtCpl c) := by
  rw [State.atCpl, s.cpu.atCpl_eq, State.setLevel]

/-- An operation that keeps the mode and the segments and does not read the level commutes with a change of it. -/
theorem commutes_atCpl (f : State → State) {s : State} {c : BitVec 2} (hmode : (f s).cpu.mode = s.cpu.mode)
    (hsegs : (f s).cpu.segs = s.cpu.segs)
    (hf : f (s.setLevel c (s.cpu.segsAtCpl c)) = (f s).setLevel c (s.cpu.segsAtCpl c)) :
    f (s.atCpl c) = (f s).atCpl c := by
  rw [s.atCpl_eq, (f s).atCpl_eq, segsAtCpl_congr hmode hsegs, hf]

@[simp] theorem State.setMm_atCpl (s : State) (c : BitVec 2) (r : MmReg) (v : Quad) :
    (s.atCpl c).setMm r v = (s.setMm r v).atCpl c := commutes_atCpl (·.setMm r v) rfl rfl rfl

@[simp] theorem State.setX_atCpl (s : State) (c : BitVec 2) (r : IntReg) (v : Dword) :
    (s.atCpl c).setX r v = (s.setX r v).atCpl c := commutes_atCpl (·.setX r v) rfl rfl rfl

@[simp] theorem State.advance_atCpl (s : State) (c : BitVec 2) (n : Nat) :
    (s.atCpl c).advance n = (s.advance n).atCpl c := commutes_atCpl (·.advance n) rfl rfl rfl

@[simp] theorem State.retireMmx_atCpl (s : State) (c : BitVec 2) (n : Nat) :
    (s.atCpl c).retireMmx n = (s.retireMmx n).atCpl c := commutes_atCpl (·.retireMmx n) rfl rfl rfl

@[simp] theorem State.addPending_atCpl (s : State) (c : BitVec 2) (rs : List Record) :
    (s.atCpl c).addPending rs = (s.addPending rs).atCpl c := commutes_atCpl (·.addPending rs) rfl rfl rfl

@[simp] theorem State.bumpEpoch_atCpl (s : State) (c : BitVec 2) :
    (s.atCpl c).bumpEpoch = s.bumpEpoch.atCpl c := commutes_atCpl (·.bumpEpoch) rfl rfl rfl

@[simp] theorem State.draw_atCpl (s : State) (c : BitVec 2) (n : Nat) : (s.atCpl c).draw n = (s.draw n).atCpl c :=
  commutes_atCpl (·.draw n) rfl rfl rfl

/-! ## Checks, reads and stores -/

@[simp] theorem raise_atCpl (x : Exn) (s : State) (c : BitVec 2) : raise x (s.atCpl c) = raise x s := by
  simp [raise]

@[simp] theorem mmxChecks_atCpl (s : State) (c : BitVec 2) : mmxChecks (s.atCpl c) = mmxChecks s := by
  simp [mmxChecks, Agent.em, Agent.ts]

theorem access_atCpl {s : State} {o : Operand} (h : s.cpu.CplFree o) (c : BitVec 2) :
    (s.atCpl c).access o.seg o.off o.size o.kind = s.access o.seg o.off o.size o.kind := by
  simp only [State.access, State.atCpl_cpu, accessCheck_atCpl h, raise_atCpl]

@[simp] theorem refuseDevice_atCpl (s : State) (c : BitVec 2) (ps : List Nat) :
    (s.atCpl c).refuseDevice ps = s.refuseDevice ps := rfl

@[simp] theorem refuseText_atCpl (s : State) (c : BitVec 2) (ps : List Nat) :
    (s.atCpl c).refuseText ps = s.refuseText ps := rfl

theorem operandByte_atCpl (s : State) (c : BitVec 2) (quad : Bool) (k p : Nat) :
    (s.atCpl c).operandByte quad k p = s.operandByte quad k p := by
  have hsees : (s.atCpl c).sees p = s.sees p := by
    simp only [State.sees, Agent.sees, State.atCpl_cpu, Agent.atCpl_pending]
    rfl
  simp only [State.operandByte, State.atCpl_cpu, Agent.atCpl_early, hsees]

@[simp] theorem operandBytes_atCpl (s : State) (c : BitVec 2) (quad : Bool) (k : Nat) (ps : List Nat) :
    (s.atCpl c).operandBytes quad k ps = s.operandBytes quad k ps := by
  induction ps generalizing k with
  | nil => rfl
  | cons p ps ih => simp only [State.operandBytes, operandByte_atCpl, ih]

theorem memRead_atCpl {s : State} {seg : Seg} {off : Dword} {n : Nat} (h : s.cpu.CplFree ⟨seg, off, n, .read⟩)
    (c : BitVec 2) : memRead (s.atCpl c) seg off n = memRead s seg off n := by
  simp [memRead, access_atCpl h c]

theorem quadSource_atCpl {s : State} {p : Pfx} {src : RM MmReg}
    (h : ∀ o, sourceOperand s p 8 src = some o → s.cpu.CplFree o) (c : BitVec 2) :
    quadSource (s.atCpl c) p src = quadSource s p src := by
  cases src with
  | reg r => simp [quadSource]
  | mem m => simp [quadSource, memRead_atCpl (h _ rfl)]

theorem wordSource_atCpl {s : State} {p : Pfx} {src : RM IntReg}
    (h : ∀ o, sourceOperand s p 2 src = some o → s.cpu.CplFree o) (c : BitVec 2) :
    wordSource (s.atCpl c) p src = wordSource s p src := by
  cases src with
  | reg r => simp [wordSource]
  | mem m => simp [wordSource, memRead_atCpl (h _ rfl)]

theorem store_atCpl (s : State) (c : BitVec 2) (quad : Bool) (dst : List Nat) (cells : List (Nat × Byte)) :
    (s.atCpl c).store quad dst cells = (State.atCpl · c) <$> s.store quad dst cells := by
  simp only [State.store, map_bind]
  simp

theorem memWrite_atCpl {s : State} {seg : Seg} {off : Dword} (h : s.cpu.CplFree ⟨seg, off, 8, .write⟩) (c : BitVec 2)
    (v : Quad) : memWrite (s.atCpl c) seg off v = (State.atCpl · c) <$> memWrite s seg off v := by
  simp only [memWrite, map_bind, access_atCpl h c, store_atCpl, State.atCpl_cpu, linear_atCpl]

theorem storeSelected_atCpl {s : State} {seg : Seg} {off : Dword} (h : s.cpu.CplFree ⟨seg, off, 8, .write⟩)
    (c : BitVec 2) (v mask : Quad) :
    (s.atCpl c).storeSelected seg off v mask = (State.atCpl · c) <$> s.storeSelected seg off v mask := by
  simp only [State.storeSelected, map_bind, access_atCpl h c, store_atCpl]

theorem memWriteMasked_atCpl {s : State} {seg : Seg} {off : Dword} (h : s.cpu.CplFree ⟨seg, off, 8, .write⟩)
    (c : BitVec 2) (v mask : Quad) :
    memWriteMasked (s.atCpl c) seg off v mask = (State.atCpl · c) <$> memWriteMasked s seg off v mask := by
  have hstore := storeSelected_atCpl h c v mask
  cases hs : s.storeSelected seg off v mask with
  | ok t => simp [memWriteMasked, hstore, hs]
  | error e =>
    rw [hs] at hstore
    rw [memWriteMasked_error hs, memWriteMasked_error hstore]
    split <;> rfl

/-! ## The instructions -/

theorem conclude_atCpl (r : Except Stop State) (c : BitVec 2) :
    conclude ((State.atCpl · c) <$> r) = outcomeAtCpl (conclude r) c := by
  cases r with
  | ok t => rfl
  | error e => cases e <;> rfl

theorem mmxCompute_atCpl {s : State} {p : Pfx} {src : RM MmReg}
    (h : ∀ o, sourceOperand s p 8 src = some o → s.cpu.CplFree o) (c : BitVec 2) (f : Quad → Quad → Quad) (d : MmReg)
    (last : Nat) : mmxCompute f p d src last (s.atCpl c) = outcomeAtCpl (mmxCompute f p d src last s) c := by
  simp [mmxCompute, ← conclude_atCpl, quadSource_atCpl h]

/-- Settles O51: every operation commutes with the change of privilege level. -/
theorem executesAlikeAtEveryCpl : Obligations.ExecutesAlikeAtEveryCpl := by
  intro i s c hoperand
  have h : ∀ o, memoryOperand s i = some o → s.cpu.CplFree o := fun o ho =>
    have ⟨haligned, hrights⟩ := hoperand o ho
    ⟨haligned, hrights⟩
  cases i with
  | pf2iw p d src => simp [exec, execPf2iw, ← conclude_atCpl, quadSource_atCpl h]
  | pfnacc | pfpnacc | pavgb | pavgw | pmaxsw | pmaxub | pminsw | pminub | pmulhuw | psadbw =>
    all_goals exact mmxCompute_atCpl h ..
  | pi2fw => exact mmxCompute_atCpl h c (fun _ v => intsToFloats v) ..
  | pswapd => exact mmxCompute_atCpl h c (fun _ v => swapDwords v) ..
  | pshufw p d src imm => exact mmxCompute_atCpl h c (fun _ v => shuffleWords v imm) ..
  | pinsrw p d src imm => simp [exec, execPinsrw, ← conclude_atCpl, wordSource_atCpl h]
  | pextrw p d r imm => simp [exec, execPextrw, ← conclude_atCpl]
  | pmovmskb p d r => simp [exec, execPmovmskb, ← conclude_atCpl]
  | movntq p dst r => simp [exec, execMovntq, ← conclude_atCpl, memWrite_atCpl (h _ rfl)]
  | maskmovq p d m => simp [exec, execMaskmovq, ← conclude_atCpl, memWriteMasked_atCpl (h _ rfl)]
  | prefetchnta p m | prefetcht0 p m | prefetcht1 p m | prefetcht2 p m =>
    all_goals exact congrArg Host.Outcome.next (s.advance_atCpl c _)
  | sfence p => simp [exec, execSfence, outcomeAtCpl]

end Sys2Proof.Machine
end

section
/-! SUPPORT. What a turn does where no instruction runs: the scheduled event, what is left to happen once the running
agent has ended, and the ending of a complete run (20_memory.md R45, R46, R50; 70_reset_and_hazards.md R158). -/

namespace Sys2Proof.Machine

open Sys2Proof

/-! ## Whether the run is complete (R158) -/

theorem completeEnding_eq_some_iff (s : State) (e : Ending) :
    s.completeEnding = some e ↔ s.cpu.ended = some e ∧ s.OnlyRunningLeft := by
  rw [onlyRunningLeft_iff_lastOne, State.completeEnding]
  split <;> simp_all

theorem completeEnding_eq_none_iff (s : State) :
    s.completeEnding = none ↔ s.cpu.ended = none ∨ ¬ s.OnlyRunningLeft := by
  rw [onlyRunningLeft_iff_lastOne, State.completeEnding]
  split <;> simp_all

theorem step_of_completeEnding {s : State} {e : Ending} (h : s.completeEnding = some e) : step s = e.outcome := by
  simp [step, State.turn, h]

/-! ## The event of a turn -/

theorem turnEvent_of_schedule {s : State} {e : Event} {rest : List Event} (h : s.schedule = e :: rest) :
    s.turnEvent = e := by
  simp [State.turnEvent, h]

theorem turnEvent_of_ended {s : State} (he : s.cpu.ended ≠ none) (hs : s.schedule = []) :
    s.turnEvent = s.restEvent := by
  simp [State.turnEvent, hs, Option.isSome_iff_ne_none.mpr he]

theorem step_of_event {s : State} {e : Event} (hc : s.completeEnding = none) (ht : s.turnEvent = e) (he : e ≠ .run) :
    step s = .next (State.happen { s with schedule := s.schedule.tail } e) := by
  rcases turn_cases s with ⟨_, h, _⟩ | ⟨_, ⟨h, _⟩ | ⟨_, h⟩⟩
  · exact absurd (h.symm.trans hc) (by simp)
  · exact absurd (ht.symm.trans h) he
  · rwa [ht] at h

theorem runAgent_of_ended {s : State} (he : s.cpu.ended ≠ none) : s.runAgent = .next s := by
  obtain ⟨e, he⟩ := Option.ne_none_iff_exists'.mp he
  simp [State.runAgent, he]

/-- The turn of an agent that has ended is taken off the schedule, and nothing else. -/
theorem step_of_run_of_ended {s : State} {rest : List Event} (hc : s.completeEnding = none)
    (he : s.cpu.ended ≠ none) (hs : s.schedule = .run :: rest) : step s = .next { s with schedule := rest } := by
  simp only [step, State.turn, hc, turnEvent_of_schedule hs, hs, List.tail_cons]
  exact runAgent_of_ended (s := { s with schedule := rest }) he

/-! ## What is left to happen (R46; log 35) -/

theorem agents_getElem? (s : State) (who : Nat) : s.agents[who]? = s.agent who := by
  cases who <;> rfl

/-- While the run is not complete there is a record to drain or an agent that has not ended. -/
theorem restEvent_cases {s : State} (h : ¬ s.OnlyRunningLeft) :
    (∃ who a, s.agent who = some a ∧ a.pending ≠ [] ∧ s.restEvent = .drain who 0) ∨
    (∀ a ∈ s.agents, a.pending = []) ∧
      ∃ k a, s.others[k]? = some a ∧ a.ended = none ∧ s.restEvent = .resume k := by
  cases hwho : s.agents.findIdx? fun a => !a.pending.isEmpty with
  | some who =>
    obtain ⟨hlt, hpending, _⟩ := List.findIdx?_eq_some_iff_getElem.mp hwho
    have hagent : s.agent who = some s.agents[who] := (agents_getElem? s who).symm.trans (List.getElem?_eq_getElem hlt)
    exact .inl ⟨who, _, hagent, by simpa using hpending, by simp [State.restEvent, hwho]⟩
  | none =>
    have hpending : ∀ a ∈ s.agents, a.pending = [] := by simpa using List.findIdx?_eq_none_iff.mp hwho
    refine .inr ⟨hpending, ?_⟩
    cases hk : s.others.findIdx? fun a => a.ended.isNone with
    | some k =>
      obtain ⟨hlt, hended, _⟩ := List.findIdx?_eq_some_iff_getElem.mp hk
      exact ⟨k, _, List.getElem?_eq_getElem hlt, by simpa using hended, by simp [State.restEvent, hwho, hk]⟩
    | none =>
      have hended : ∀ a ∈ s.others, a.ended ≠ none := by
        simpa [Option.isSome_iff_ne_none] using List.findIdx?_eq_none_iff.mp hk
      exact absurd ⟨hended, hpending⟩ h

theorem withSchedule_tail_of_nil {s : State} (hs : s.schedule = []) : { s with schedule := s.schedule.tail } = s := by
  rw [hs, List.tail_nil, ← hs]

/-- With nothing scheduled and the running agent ended, a record drains, or an agent that has not ended resumes. -/
theorem step_of_rest {s : State} (he : s.cpu.ended ≠ none) (hs : s.schedule = []) (h : ¬ s.OnlyRunningLeft) :
    (∃ who a, s.agent who = some a ∧ a.pending ≠ [] ∧ step s = .next (s.drain who 0)) ∨
    (∀ a ∈ s.agents, a.pending = []) ∧
      ∃ k a, s.others[k]? = some a ∧ a.ended = none ∧ step s = .next (s.resume k) := by
  have hstep : ∀ e, s.restEvent = e → e ≠ .run → step s = .next (s.happen e) := fun e hrest hne => by
    have h := step_of_event ((completeEnding_eq_none_iff s).mpr (.inr h)) ((turnEvent_of_ended he hs).trans hrest) hne
    rwa [withSchedule_tail_of_nil hs] at h
  rcases restEvent_cases h with ⟨who, a, ha, hp, hrest⟩ | ⟨hp, k, a, ha, hended, hrest⟩
  · exact .inl ⟨who, a, ha, hp, hstep _ hrest nofun⟩
  · exact .inr ⟨hp, k, a, ha, hended, hstep _ hrest nofun⟩

/-! ## Outside writes and turns of other agents (R45, R50) -/

theorem writeExternal_of_not_inText {s : State} {p : Nat} (h : s.inText p = false) (b : Byte) :
    s.writeExternal p b = { s with mem := s.mem.write p b } := by
  simp [State.writeExternal, h]

theorem writeExternal_of_inText {s : State} {p : Nat} (h : s.inText p = true) (b : Byte) :
    s.writeExternal p b = s := by
  simp [State.writeExternal, h]

theorem resume_of_some {s : State} {k : Nat} {a : Agent} (h : s.others[k]? = some a) :
    s.resume k = { s with cpu := a, others := s.others.set k s.cpu } := by
  simp [State.resume, h]

theorem resume_of_none {s : State} {k : Nat} (h : s.others[k]? = none) : s.resume k = s := by
  simp [State.resume, h]

/-- Settles O10: the turn is read off `completeEnding` and `turnEvent`, and what is left to happen off `restEvent`. -/
theorem turnsFollowTheSchedule : Obligations.TurnsFollowTheSchedule := by
  intro s
  refine ⟨fun e he hlast => ?_, fun hrunning => ?_, fun p b => ⟨fun htext hwf => ?_, fun htext => ?_⟩,
    fun k => ⟨fun a ha => resume_of_some ha, fun hk => resume_of_none hk⟩⟩
  · have hstep := step_of_completeEnding ((completeEnding_eq_some_iff s e).mpr ⟨he, hlast⟩)
    exact ⟨fun h => hstep.trans (congrArg Ending.outcome h), fun f h => hstep.trans (congrArg Ending.outcome h),
      fun r h => hstep.trans (congrArg Ending.outcome h)⟩
  · have hc := (completeEnding_eq_none_iff s).mpr hrunning
    refine ⟨fun e rest hne hs => ?_, fun rest he hs => step_of_run_of_ended hc he hs, fun he hs => ?_⟩
    · have hstep := step_of_event hc (turnEvent_of_schedule hs) hne
      rwa [hs] at hstep
    · exact step_of_rest he hs (hrunning.resolve_left he)
  · exact ⟨_, writeExternal_of_not_inText htext b, Memory.read_write_same _ _ _ hwf,
      fun q hq => Memory.read_write_other _ _ hq⟩
  · exact writeExternal_of_inText htext b

end Sys2Proof.Machine
end

section
/-! SUPPORT. Every run ends: a rank that every step lowers (70_reset_and_hazards.md R158; 20_memory.md R46; 10_state.md
R18). -/

namespace Sys2Proof.Machine

open Sys2Proof

/-! ## What a state whose step answers no next state is -/

theorem runAgent_next_of_not_lastOne {s : State} (h : s.lastOne = false) : ∃ t, s.runAgent = .next t := by
  cases he : s.cpu.ended with
  | some e => exact ⟨s, runAgent_of_ended (by simp [he])⟩
  | none =>
    cases hn : s.nextEnding with
    | some e => exact ⟨_, (runAgent_of_nextEnding_some he hn).trans ((stop_eq_next s _ e).mpr ⟨h, rfl⟩)⟩
    | none =>
      obtain ⟨_, _, t, ht⟩ := (nextEnding_eq_none s).mp hn
      exact ⟨t, (runAgent_of_nextEnding_none he hn).trans ht⟩

/-- The machine goes on until every other agent has ended and nothing is pending. -/
theorem step_next_of_not_onlyRunningLeft {s : State} (h : ¬ s.OnlyRunningLeft) : ∃ t, step s = .next t := by
  rcases turn_cases s with ⟨e, he, _⟩ | ⟨_, ⟨_, hturn⟩ | ⟨_, hturn⟩⟩
  · exact absurd ((completeEnding_eq_some_iff s e).mp he).2 h
  · rw [onlyRunningLeft_iff_lastOne, Bool.not_eq_true] at h
    obtain ⟨t, ht⟩ := runAgent_next_of_not_lastOne (s := { s with schedule := s.schedule.tail }) h
    exact ⟨t, hturn.trans ht⟩
  · exact ⟨_, hturn⟩

/-! ## The schedule grows shorter -/

theorem happen_schedule (s : State) (e : Event) : (s.happen e).schedule = s.schedule := by
  cases e with
  | run | early => all_goals rfl
  | resume k => rcases resume_cases s k with h | ⟨_, _, h⟩ <;> simp [State.happen, h]
  | drain who i => rcases drain_cases s who i with h | ⟨_, _, _, _, _, _, h⟩ <;> simp [State.happen, h, drained]
  | external p b => rcases writeExternal_cases s p b with ⟨_, h⟩ | ⟨_, h⟩ <;> simp [State.happen, h]

theorem exec_schedule {i : Instr} {s t : State} (h : exec i s = .next t) : t.schedule = s.schedule := by
  obtain ⟨_, _, _, _, _, _, _, _, _, _, _, _, _, hschedule, _⟩ := frameOfControlState i s t h
  exact hschedule

/-- Every step takes its event off the schedule and puts none there. -/
theorem step_schedule {s t : State} (h : step s = .next t) : t.schedule = s.schedule.tail := by
  rcases step_eq_next s t h with ⟨_, _, hrun | ⟨e, _, rfl⟩⟩ | rfl
  · obtain ⟨i, _, _, _, hexec⟩ := (runInstruction_eq_next _ _).mp hrun
    exact exec_schedule hexec
  · rfl
  · exact happen_schedule ..

/-! ## The rank -/

/-- How many offsets an agent's `pc` has before it: none once its run has ended, and otherwise one at least. -/
def Agent.offsetsLeft (a : Agent) : Nat := if a.ended.isSome then 0 else 2 ^ 32 - a.pc.toNat

theorem Agent.offsetsLeft_congr {a b : Agent} (hended : b.ended = a.ended) (hpc : b.pc = a.pc) :
    b.offsetsLeft = a.offsetsLeft := by
  rw [Agent.offsetsLeft, hended, hpc, Agent.offsetsLeft]

theorem Agent.offsetsLeft_of_ended {a : Agent} (h : a.ended ≠ none) : a.offsetsLeft = 0 := by
  simp [Agent.offsetsLeft, Option.isSome_iff_ne_none.mpr h]

theorem Agent.offsetsLeft_of_running {a : Agent} (h : a.ended = none) : a.offsetsLeft = 2 ^ 32 - a.pc.toNat := by
  simp [Agent.offsetsLeft, h]

theorem Agent.offsetsLeft_pos {a : Agent} (h : a.ended = none) : 0 < a.offsetsLeft := by
  rw [Agent.offsetsLeft_of_running h]
  have := a.pc.isLt
  omega

/-- No fewer than the instructions that the agents can still run, since each takes one offset at least. -/
def State.offsetsLeft (s : State) : Nat := (s.agents.map Agent.offsetsLeft).sum

/-- How many records are pending. -/
def State.recordsLeft (s : State) : Nat := (s.agents.map fun a => a.pending.length).sum

/-- 1 while the running agent has ended, so that another one has yet to resume. -/
def State.turnsLeft (s : State) : Nat := if s.cpu.ended.isSome then 1 else 0

/-- What a step lowers, the first number before the second and the second before the third: a scheduled event shortens
the schedule; an instruction, or the end of a run, leaves fewer offsets; a drain leaves fewer records; and after a
`resume` the running agent has not ended. -/
def State.rank (s : State) : Nat ×ₗ Nat ×ₗ Nat :=
  toLex (s.schedule.length, toLex (s.offsetsLeft, s.recordsLeft + s.turnsLeft))

theorem rank_lt_of_schedule {s t : State} (h : t.schedule.length < s.schedule.length) : t.rank < s.rank :=
  Prod.Lex.toLex_lt_toLex.mpr (.inl h)

theorem rank_lt_of_offsetsLeft {s t : State} (hs : t.schedule = s.schedule) (h : t.offsetsLeft < s.offsetsLeft) :
    t.rank < s.rank :=
  Prod.Lex.toLex_lt_toLex.mpr (.inr ⟨congrArg List.length hs, Prod.Lex.toLex_lt_toLex.mpr (.inl h)⟩)

theorem rank_lt_of_recordsLeft {s t : State} (hs : t.schedule = s.schedule) (ho : t.offsetsLeft = s.offsetsLeft)
    (h : t.recordsLeft + t.turnsLeft < s.recordsLeft + s.turnsLeft) : t.rank < s.rank :=
  Prod.Lex.toLex_lt_toLex.mpr (.inr ⟨congrArg List.length hs, Prod.Lex.toLex_lt_toLex.mpr (.inr ⟨ho, h⟩)⟩)

/-! ## Instructions and the end of a run leave fewer offsets -/

/-- Where only the running agent has fewer offsets left, so have the agents together. -/
theorem offsetsLeft_lt_of_cpu {s t : State} (hothers : t.others = s.others)
    (h : t.cpu.offsetsLeft < s.cpu.offsetsLeft) : t.offsetsLeft < s.offsetsLeft := by
  simpa [State.offsetsLeft, State.agents, hothers] using h

theorem lastCodeOffset_lt (a : Agent) : lastCodeOffset a < 2 ^ 32 := by
  rw [lastCodeOffset_eq]
  split <;> omega

/-- An instruction that ends at the last offset at most moves `pc` up (10_state.md R18). -/
theorem exec_offsetsLeft_lt {i : Instr} {s t : State} (he : s.cpu.ended = none)
    (hp : s.cpu.pc.toNat + instrLength i ≤ lastCodeOffset s.cpu) (h : exec i s = .next t) :
    t.offsetsLeft < s.offsetsLeft := by
  obtain ⟨_, _, hpc⟩ := frameOfRegisters i s t h
  obtain ⟨_, _, _, _, _, _, _, _, hended, _, hothers, _⟩ := frameOfControlState i s t h
  have hlast := lastCodeOffset_lt s.cpu
  obtain ⟨hlength, _⟩ := instrLength_bounds i
  have hmoved : t.cpu.pc.toNat = s.cpu.pc.toNat + instrLength i := by
    rw [hpc, length_encode, BitVec.toNat_add, BitVec.toNat_ofNat]
    omega
  refine offsetsLeft_lt_of_cpu hothers ?_
  rw [Agent.offsetsLeft_of_running he, Agent.offsetsLeft_of_running (hended.trans he)]
  omega

theorem endRun_offsetsLeft_lt {s : State} (he : s.cpu.ended = none) (e : Ending) :
    (s.endRun e).offsetsLeft < s.offsetsLeft := by
  refine offsetsLeft_lt_of_cpu rfl ?_
  rw [Agent.offsetsLeft_of_ended (by simp)]
  exact Agent.offsetsLeft_pos he

/-- With nothing scheduled the turn of an agent that has not ended leaves fewer offsets. -/
theorem step_offsetsLeft_lt {s t : State} (he : s.cpu.ended = none) (hs : s.schedule = []) (h : step s = .next t) :
    t.offsetsLeft < s.offsetsLeft := by
  rw [step_of_own_turn he (.inl hs), withSchedule_tail_of_nil hs] at h
  rcases runAgent_eq_next s t h with ⟨hended, _⟩ | ⟨_, hrun | ⟨e, _, _, rfl⟩⟩
  · simp [he] at hended
  · obtain ⟨i, _, _, hp, hexec⟩ := (runInstruction_eq_next s t).mp hrun
    exact exec_offsetsLeft_lt he hp hexec
  · exact endRun_offsetsLeft_lt he e

/-! ## Sums over the agents, where one is replaced -/

theorem sum_map_set {α : Type} (f : α → Nat) {l : List α} {k : Nat} {a : α} (h : l[k]? = some a) (b : α) :
    ((l.set k b).map f).sum + f a = (l.map f).sum + f b := by
  obtain ⟨hk, rfl⟩ := List.getElem?_eq_some_iff.mp h
  have hnew := ((List.set_perm_cons_eraseIdx hk b).map f).sum_eq
  have hold := ((List.getElem_cons_eraseIdx_perm hk).map f).sum_eq
  simp only [List.map_cons, List.sum_cons] at hnew hold
  omega

theorem drained_agents (s : State) (who : Nat) (a : Agent) (start n : Nat) :
    (drained s who a start n).agents =
      s.agents.set who { a with pending := a.pending.take start ++ a.pending.drop (start + n) } := by
  cases who <;> rfl

/-- Two agents that exchange places leave every sum over the agents as it was. -/
theorem sum_map_resume (f : Agent → Nat) (s : State) (k : Nat) :
    ((s.resume k).agents.map f).sum = (s.agents.map f).sum := by
  rcases resume_cases s k with h | ⟨a, ha, h⟩
  · rw [h]
  · have hset := sum_map_set f ha s.cpu
    simp only [h, State.agents, List.map_cons, List.sum_cons]
    omega

/-! ## A drain leaves fewer records, and after a `resume` the running agent has not ended -/

/-- In program order the oldest record of an agent can drain (20_memory.md R46). -/
theorem drain_oldest {s : State} (hs : s.Inv) {who : Nat} {a : Agent} (ha : s.agent who = some a)
    (hp : a.pending ≠ []) : ∃ n, 0 < n ∧ s.drain who 0 = drained s who a 0 n := by
  obtain ⟨r, rs, hrs⟩ := List.exists_cons_of_ne_nil hp
  obtain ⟨hpairs, _⟩ := hs.ordered a ((mem_agents_iff s a).mpr ⟨who, ha⟩)
  refine drain_first s who a r rs ha hrs fun q hq => ?_
  rw [hrs, List.pairwise_cons] at hpairs
  rcases List.mem_cons.mp (hrs ▸ hq) with rfl | hq
  · exact le_rfl
  · exact hpairs.1 q hq

theorem drain_offsetsLeft (s : State) (who i : Nat) : (s.drain who i).offsetsLeft = s.offsetsLeft := by
  rcases drain_cases s who i with h | ⟨a, start, n, ha, _, _, h⟩
  · rw [h]
  · have hsum := sum_map_set Agent.offsetsLeft ((agents_getElem? s who).trans ha)
      { a with pending := a.pending.take start ++ a.pending.drop (start + n) }
    rw [Agent.offsetsLeft_congr (a := a) rfl rfl] at hsum
    rw [h, State.offsetsLeft, drained_agents]
    exact Nat.add_right_cancel hsum

theorem drain_turnsLeft (s : State) (who i : Nat) : (s.drain who i).turnsLeft = s.turnsLeft := by
  rcases drain_cases s who i with h | ⟨a, start, n, ha, _, _, h⟩
  · rw [h]
  · rw [h]
    cases who with
    | zero => cases ha; rfl
    | succ k => rfl

theorem drain_oldest_recordsLeft_lt {s : State} (hs : s.Inv) {who : Nat} {a : Agent} (ha : s.agent who = some a)
    (hp : a.pending ≠ []) : (s.drain who 0).recordsLeft < s.recordsLeft := by
  obtain ⟨n, hn, h⟩ := drain_oldest hs ha hp
  have hsum := sum_map_set (fun b => b.pending.length) ((agents_getElem? s who).trans ha)
    { a with pending := a.pending.take 0 ++ a.pending.drop (0 + n) }
  have hlength := List.length_pos_iff.mpr hp
  simp only [List.take_zero, List.nil_append, Nat.zero_add, List.length_drop] at hsum
  simp only [h, State.recordsLeft, drained_agents, List.take_zero, List.nil_append, Nat.zero_add]
  omega

theorem resume_turnsLeft_lt {s : State} (he : s.cpu.ended ≠ none) {k : Nat} {a : Agent} (ha : s.others[k]? = some a)
    (hended : a.ended = none) : (s.resume k).turnsLeft < s.turnsLeft := by
  simp [State.turnsLeft, resume_of_some ha, hended, Option.isSome_iff_ne_none.mpr he]

/-! ## Every step lowers the rank -/

theorem step_rank_lt {s t : State} (hs : s.Inv) (h : step s = .next t) : t.rank < s.rank := by
  have htail := step_schedule h
  cases hsched : s.schedule with
  | cons e rest => exact rank_lt_of_schedule (by simp [htail, hsched])
  | nil =>
    have hsame : t.schedule = s.schedule := by rw [htail, hsched, List.tail_nil]
    by_cases he : s.cpu.ended = none
    · exact rank_lt_of_offsetsLeft hsame (step_offsetsLeft_lt he hsched h)
    · have hleft : ¬ s.OnlyRunningLeft := fun hlast => by
        obtain ⟨e, he⟩ := Option.ne_none_iff_exists'.mp he
        have hstep := step_of_completeEnding ((completeEnding_eq_some_iff s e).mpr ⟨he, hlast⟩)
        exact e.outcome_ne_next t (hstep.symm.trans h)
      rcases step_of_rest he hsched hleft with ⟨who, a, ha, hp, hstep⟩ | ⟨_, k, a, ha, hended, hstep⟩
      · obtain rfl := Host.Outcome.next.inj (hstep.symm.trans h)
        refine rank_lt_of_recordsLeft hsame (drain_offsetsLeft ..) ?_
        rw [drain_turnsLeft]
        exact Nat.add_lt_add_right (drain_oldest_recordsLeft_lt hs ha hp) _
      · obtain rfl := Host.Outcome.next.inj (hstep.symm.trans h)
        refine rank_lt_of_recordsLeft hsame (sum_map_resume ..) ?_
        rw [State.recordsLeft, sum_map_resume]
        exact Nat.add_lt_add_left (resume_turnsLeft_lt he ha hended) _

/-- A run from a state that meets the invariant reaches one whose step answers no next state. -/
theorem run_ends (s : State) (hs : s.Inv) : ∃ n t, s.after n = some t ∧ ∀ u, step t ≠ .next u := by
  by_cases h : ∃ t, step s = .next t
  · obtain ⟨t, ht⟩ := h
    obtain ⟨n, u, hafter, hlast⟩ := run_ends t (stepKeepsInvariant s t hs ht)
    exact ⟨n + 1, u, by simpa [State.after, ht] using hafter, hlast⟩
  · exact ⟨0, s, rfl, not_exists.mp h⟩
termination_by s.rank
decreasing_by exact step_rank_lt hs ht

/-- Settles O59: every step lowers the rank, and only a complete run has no next step. -/
theorem everyRunEndsComplete : Obligations.EveryRunEndsComplete := by
  refine ⟨fun s h => ?_, run_ends⟩
  by_contra hleft
  obtain ⟨t, ht⟩ := step_next_of_not_onlyRunningLeft hleft
  exact h t ht

end Sys2Proof.Machine
end
